-- ==== Sys2Proof/Word.lean ====
section
/-! DEFINITION. The word and the byte of the block (00_scope.md R12, 20_memory.md R54). -/

namespace Sys2Proof

/-- A word of the data memory, of the register block and of every stream: 32 bits (R12). -/
abbrev Word := BitVec 32

/-- One of the four bytes the host sees a word as (R54). -/
abbrev Byte := BitVec 8

end Sys2Proof
end

