-- ==== Sys2Proof/Config.lean ====
section
/-! DEFINITION. What an implementation fixes (00_scope.md R8 to R13) and the free values of the model
(00_scope.md R19, 93_implementation_defined.md). -/

namespace Sys2Proof

/-- Values in a block (R8). -/
abbrev blockLen : Nat := 128

/-- `CHUNK_MAX`, the most values a chunk may hold (R9). -/
abbrev chunkMax : Nat := 2 ^ 24

/-- `SAMPLE_MAX`, the estimator's sample cap (R10). -/
abbrev sampleMax : Nat := 65536

/-- `HOST_ENDIAN`: the byte order in which the host sees a word (R13, R54). -/
inductive Endian where
  | little
  | big
  deriving DecidableEq, Repr

/-- Which packer the implementation has for the parameter `PACK` (R13, R90): the reference layout of R92,
or the packer number `k` of the packers the spec leaves open (log 2). -/
inductive Packer where
  | ref
  | external (k : Nat)
  deriving DecidableEq, Repr

/-- The parameters of R13. They are configuration, which no step changes; `exec` takes one state, so the
state carries them and a statement about every state is a statement about every value of them (log 1). -/
structure Params where
  memWords : Nat
  packer : Packer
  endian : Endian
  regBase : Nat
  deriving DecidableEq, Repr

/-- The constraint R13 puts on `MEM_WORDS`. -/
abbrev Params.Legal (p : Params) : Prop := 1 ≤ p.memWords ∧ p.memWords ≤ 2 ^ 32

/-- R13's defaults (log 1 for the two the spec gives no default for). -/
def Params.default : Params :=
  { memWords := 2 ^ 32, packer := .ref, endian := .little, regBase := 0 }

/-- The engine's scratch state (10_state.md R41), with the widths R41 gives. -/
structure Scratch where
  wc : Vector Word 128
  miss : List (BitVec 7)
  hist : Vector (BitVec 17) 33
  excs : List Word
  blockIndex : Word
  excIndex : Word
  outPos : Word
  deriving DecidableEq, Repr, Inhabited

/-- The bounds R41 puts on the two lists of the scratch state. -/
abbrev Scratch.Legal (x : Scratch) : Prop := x.miss.length ≤ 128 ∧ x.excs.length ≤ 2 ^ 24

/-- FREE VALUE (log 7): the word that draw `d` leaves at word address `a` ("any value", R143, R162, R63). -/
opaque Config.freeMem (d a : Nat) : Word

/-- FREE VALUE (log 10): the `k`-th register word of draw `d`, for a command whose regions the host wrote (R167). -/
opaque Config.freeReg (d k : Nat) : Word

/-- FREE VALUE (log 11): the scratch state draw `d` leaves (R42: unspecified between commands). -/
opaque Config.freeScratch (d : Nat) : Scratch

/-- FREE VALUE (log 2): for packer number `k` and width `b`, an arbitrary bijection of the payloads of a
block (lists of `4·b` words); every packer meeting R88 is the reference packer followed by one. -/
opaque Config.packPerm (k b : Nat) : Equiv.Perm (Fin (4 * b) → Word)

end Sys2Proof
end

