-- ==== Sys2Proof/Syntax.lean ====
section
/-! DEFINITION. The commands of the block, one constructor per row of spec/opcode_table.json (30_encoding.md R70). -/

namespace Sys2Proof

/-- A decoded command word. `b` is the field `B`, a natural number 0..63, which only the two block commands
read (R72); `op` is the reserved selector, 8..15 (R71). -/
inductive Instr where
  | estimate
  | blkEnc (b : Nat)
  | blkDec (b : Nat)
  | chunkEnc
  | chunkDec
  | arrayEnc
  | arrayDec
  | reservedOp0
  | reservedOp8F (op : Nat)
  deriving DecidableEq, Repr

end Sys2Proof
end

