-- ==== Sys2Proof/WellFormed.lean ====
section
/-! DEFINITION. The commands a command word can hold (30_encoding.md R69 to R72). -/

namespace Sys2Proof

/-- The operands fit their fields: `B` has 6 bits (R69), and a reserved selector of the second row is 8..15 (R70). -/
def Instr.wf : Instr → Bool
  | .estimate => true
  | .blkEnc b => decide (b < 64)
  | .blkDec b => decide (b < 64)
  | .chunkEnc => true
  | .chunkDec => true
  | .arrayEnc => true
  | .arrayDec => true
  | .reservedOp0 => true
  | .reservedOp8F op => decide (8 ≤ op ∧ op < 16)

end Sys2Proof
end

