-- ==== Sys2Proof/Decode.lean ====
section
/-! DEFINITION. The command word: its fields, the decoder and the encoder (30_encoding.md R69 to R73). -/

namespace Sys2Proof

/-- The bits of a command word that are not reserved: `OP` (3:0) and `B` (13:8) (R69). -/
def cmdMask : Word := 0x00003F0F#32

/-- Field `OP`, bits 3:0 (R69). -/
def opField (w : Word) : Nat := (w.extractLsb' 0 4).toNat

/-- Field `B`, bits 13:8, zero-extended (R72). -/
def bField (w : Word) : Nat := (w.extractLsb' 8 6).toNat

/-- The command map of R70. Every 32-bit word selects exactly one row by `OP`, so nothing is rejected;
reserved bits are ignored (R73), and `B` is read by the block commands only (R72). -/
def decode (w : Word) : Instr :=
  match opField w with
  | 0 => .reservedOp0
  | 1 => .estimate
  | 2 => .blkEnc (bField w)
  | 3 => .blkDec (bField w)
  | 4 => .chunkEnc
  | 5 => .chunkDec
  | 6 => .arrayEnc
  | 7 => .arrayDec
  | op => .reservedOp8F op

/-- The selector `OP` of a command (R70). -/
def opOf : Instr → Nat
  | .reservedOp0 => 0
  | .estimate => 1
  | .blkEnc _ => 2
  | .blkDec _ => 3
  | .chunkEnc => 4
  | .chunkDec => 5
  | .arrayEnc => 6
  | .arrayDec => 7
  | .reservedOp8F op => op

/-- The argument `B` of a command; 0 where the mnemonic takes none (R85). -/
def bOf : Instr → Nat
  | .blkEnc b => b
  | .blkDec b => b
  | .estimate => 0
  | .chunkEnc => 0
  | .chunkDec => 0
  | .arrayEnc => 0
  | .arrayDec => 0
  | .reservedOp0 => 0
  | .reservedOp8F _ => 0

/-- The command word of a command, `(n << 8) | OP` (R85). -/
def encode (i : Instr) : Word :=
  (BitVec.ofNat 32 (bOf i) <<< 8) ||| BitVec.ofNat 32 (opOf i)

/-- The command the decoder reads from the low `nbits` bits of `w`; a command is one 32-bit word and there is
no other command length (R69). -/
def decodeTableWord (nbits w : Nat) : Option Instr :=
  if nbits ≤ 32 then some (decode (BitVec.ofNat 32 (w % 2 ^ nbits))) else none

end Sys2Proof
end

