-- ==== Sys2Proof/Machine/State.lean ====
section
/-! DEFINITION. The state of the block and of the data memory (10_state.md R25, 20_memory.md R51), the events
that drive it, the reasons a step can stop, and the state after reset. -/

namespace Sys2Proof.Machine

/-- The phase of the block (10_state.md R25). -/
inductive Phase where
  | idle
  | busy
  deriving DecidableEq, Repr

/-- The error codes of 60_exceptions.md R140, in the order of their numbers 0..11. -/
inductive ErrCode where
  | noError
  | illegalOp
  | invalidArg
  | invalidLength
  | accessFault
  | overlap
  | outputOverflow
  | malTruncated
  | malLength
  | malWidth
  | malHeader
  | malChain
  deriving DecidableEq, Repr

/-- The width of a host access to the register block; only `word` accesses reach a register (R43). -/
inductive Width where
  | byte
  | half
  | word
  deriving DecidableEq, Repr

/-- The data memory as the host sees it: byte `4·a + k` is byte `k`, in `HOST_ENDIAN` order, of the word at word
address `a` (20_memory.md R51, R54; log 3). One canonical form: `Memory.wf`. -/
abbrev Memory := List Host.Cell

/-- What a byte no cell lists reads as (log 3; 20_memory.md R52 gives no value). -/
abbrev Memory.unlisted : Byte := 0#8

/-- The canonical form: addresses strictly rising, and no cell equal to what an unlisted byte reads as. -/
abbrev Memory.wf (m : Memory) : Prop :=
  m.Pairwise (fun c d => c.1 < d.1) ∧ ∀ c ∈ m, c.2 ≠ Memory.unlisted

/-- A region: a word address and a length in words (20_memory.md R57). -/
structure Region where
  base : Nat
  len : Nat
  deriving DecidableEq, Repr

/-- The events of a run (70_reset_and_hazards.md R171): host steps, the engine's turn, the platform reset, and the running
commands of other instances (60_exceptions.md R156).
Register accesses carry a bus address (R43), data memory accesses a word address (R51). -/
inductive Event where
  /-- A host read of the register block (R43, R84). -/
  | regRead (addr : Nat) (width : Width)
  /-- A host write of the register block (R43, R84). -/
  | regWrite (addr : Nat) (width : Width) (v : Word)
  /-- A host read of one data memory word (R171). -/
  | memRead (a : Nat)
  /-- A host write of one data memory word (R171). -/
  | memWrite (a : Nat) (v : Word)
  /-- The host polls `STATUS` until `BUSY = 0` (R84; log 5). -/
  | wait
  /-- The engine takes its step, if it has one (R49, R171). -/
  | engine
  /-- The platform asserts reset (R160). -/
  | reset
  /-- Another instance on the same data memory has a command running, with these read and written regions (R156;
  log 17). -/
  | peer (reads writes : List Region)
  deriving DecidableEq, Repr

/-- The machine. The fields up to `scratch` are the block's (R25); `params` are the parameters of R13;
`mem` is the data memory (R51); `script`, `reads`, `raced` and `draws` are the model's own (logs 4, 6, 7, 10). -/
structure State where
  phase : Phase
  cmd : Word
  done : Bool
  err : Bool
  ign : Bool
  errCode : ErrCode
  srcAddr : Word
  srcLen : Word
  dstAddr : Word
  dstCap : Word
  excAddr : Word
  excCur : Word
  excEnd : Word
  first : Word
  sampleSel : Word
  result0 : Word
  result1 : Word
  result2 : Word
  scratch : Scratch
  params : Params
  mem : Memory
  script : List Event
  reads : List Word
  raced : Bool
  draws : Nat
  deriving DecidableEq, Repr

/-- Why the machine stops. No command stops it: these are host accesses to a place the spec says does not exist. -/
inductive Fault where
  /-- A host access to a data memory word at or beyond `MEM_WORDS` (R51). Raised by the step of `Event.memRead`
  and `Event.memWrite`. Safe: the run stops where the spec gives the access no word. -/
  | noSuchWord
  /-- A host register access at a bus address below `REG_BASE`, which is no address of the block (R26, R61).
  Raised by the step of `Event.regRead` and `Event.regWrite`. Safe: the run stops. -/
  | belowRegisterBlock
  deriving DecidableEq, Repr

/-- Why a command has no meaning in the model. -/
inductive Refusal where
  /-- The command of this mnemonic is not modelled. Raised by no arm of `exec`: every command has its meaning.
  Safe: the run stops. -/
  | notModelled (mnemonic : String)
  deriving DecidableEq, Repr

/-- The state right after reset: 10_state.md R50 for the registers and the phase, R13's defaults for the parameters
(log 1), scratch zero (log 11), memory with nothing listed (log 3), and nothing scheduled (logs 16, 19). -/
def State.reset : State where
  phase := .idle
  cmd := 0#32
  done := false
  err := false
  ign := false
  errCode := .noError
  srcAddr := 0#32
  srcLen := 0#32
  dstAddr := 0#32
  dstCap := 0#32
  excAddr := 0#32
  excCur := 0#32
  excEnd := 0#32
  first := 0#32
  sampleSel := 0#32
  result0 := 0#32
  result1 := 0#32
  result2 := 0#32
  scratch :=
    { wc := Vector.replicate 128 0#32
      miss := []
      hist := Vector.replicate 33 0#17
      excs := []
      blockIndex := 0#32
      excIndex := 0#32
      outPos := 0#32 }
  params := Params.default
  mem := []
  script := []
  reads := []
  raced := false
  draws := 0

end Sys2Proof.Machine
end

