-- ==== Sys2Proof/Machine/Flags.lean ====
section
/-! DEFINITION. Error code numbers (60_exceptions.md R140, R142) and the STATUS word (10_state.md R29). -/

namespace Sys2Proof.Machine

/-- The number of an error code in `STATUS.ERRCODE` (60_exceptions.md R140). -/
def errNumber : ErrCode → Nat
  | .noError => 0
  | .illegalOp => 1
  | .invalidArg => 2
  | .invalidLength => 3
  | .accessFault => 4
  | .overlap => 5
  | .outputOverflow => 6
  | .malTruncated => 7
  | .malLength => 8
  | .malWidth => 9
  | .malHeader => 10
  | .malChain => 11

/-- The error code of a number 0..11; larger numbers are reserved and never written (60_exceptions.md R140). -/
def errOfNumber : Nat → ErrCode
  | 0 => .noError
  | 1 => .illegalOp
  | 2 => .invalidArg
  | 3 => .invalidLength
  | 4 => .accessFault
  | 5 => .overlap
  | 6 => .outputOverflow
  | 7 => .malTruncated
  | 8 => .malLength
  | 9 => .malWidth
  | 10 => .malHeader
  | _ => .malChain

/-- The codes decided from the registers alone, before the command's first read of memory (60_exceptions.md R142). -/
def beforeMemory : ErrCode → Bool
  | .illegalOp => true
  | .invalidArg => true
  | .invalidLength => true
  | .accessFault => true
  | .overlap => true
  | .noError => false
  | .outputOverflow => false
  | .malTruncated => false
  | .malLength => false
  | .malWidth => false
  | .malHeader => false
  | .malChain => false

/-- The value of a read of `STATUS` (10_state.md R29): `BUSY` is the phase, reserved bits read 0. -/
def statusWord (s : State) : Word :=
  0#20 ++ BitVec.ofNat 4 (errNumber s.errCode) ++ 0#4 ++ BitVec.ofBool s.ign ++ BitVec.ofBool s.err
    ++ BitVec.ofBool s.done ++ BitVec.ofBool (decide (s.phase = .busy))

/-- A host write of `v` to `STATUS`, accepted in either phase: bits 1, 2 and 3 of `v` clear `DONE`, `ERR` with
`ERRCODE`, and `IGN` (10_state.md R29). It is also how the host acknowledges an error (60_exceptions.md R150). -/
def writeStatus (v : Word) (s : State) : State :=
  { s with
    done := s.done && !v.getLsbD 1
    err := s.err && !v.getLsbD 2
    errCode := if v.getLsbD 2 then .noError else s.errCode
    ign := s.ign && !v.getLsbD 3 }

end Sys2Proof.Machine
end

