-- ==== Sys2Proof/Machine/Ops.lean ====
section
/-! DEFINITION. The named operations: the data memory (20_memory.md), regions, free draws, and the completion of a
command, with success or with an error (10_state.md R49, 60_exceptions.md R139 to R144). -/

namespace Sys2Proof.Machine

/-! ### Bytes of the data memory, as the host sees them -/

/-- The byte at host byte address `a`. -/
def readByte (m : Memory) (a : Nat) : Byte :=
  match m.find? (fun c => c.1 == a) with
  | some c => c.2
  | none => Memory.unlisted

/-- The cells of the bytes `bs` from byte address `a` on; a byte equal to an unlisted one gets no cell. -/
def listBytes (a : Nat) : List Byte → Memory
  | [] => []
  | b :: bs => if b = Memory.unlisted then listBytes (a + 1) bs else (a, b) :: listBytes (a + 1) bs

/-- Memory with the bytes `bs` stored from byte address `a` on. -/
def writeBytes (m : Memory) (a : Nat) (bs : List Byte) : Memory :=
  m.filter (fun c => decide (c.1 < a)) ++ listBytes a bs
    ++ m.filter (fun c => decide (a + bs.length ≤ c.1))

/-- The four bytes the host sees a word as, lowest byte address first (20_memory.md R54). -/
def wordBytes (e : Endian) (w : Word) : List Byte :=
  match e with
  | .little => [w.extractLsb' 0 8, w.extractLsb' 8 8, w.extractLsb' 16 8, w.extractLsb' 24 8]
  | .big => [w.extractLsb' 24 8, w.extractLsb' 16 8, w.extractLsb' 8 8, w.extractLsb' 0 8]

/-- The word the host sees as these four bytes, lowest byte address first (20_memory.md R54). -/
def bytesWord (e : Endian) (b0 b1 b2 b3 : Byte) : Word :=
  match e with
  | .little => b3 ++ b2 ++ b1 ++ b0
  | .big => b0 ++ b1 ++ b2 ++ b3

/-! ### Words of the data memory (20_memory.md R51; 00_scope.md R17) -/

/-- The word at word address `a`. -/
def readWord (e : Endian) (m : Memory) (a : Nat) : Word :=
  bytesWord e (readByte m (4 * a)) (readByte m (4 * a + 1)) (readByte m (4 * a + 2)) (readByte m (4 * a + 3))

/-- `MemRead(a, n)` (00_scope.md R17). -/
def memRead (e : Endian) (m : Memory) (a n : Nat) : List Word :=
  (List.range n).map fun i => readWord e m (a + i)

/-- `MemWrite(a, |ws|, ws)` (00_scope.md R17). -/
def memWrite (e : Endian) (m : Memory) (a : Nat) (ws : List Word) : Memory :=
  writeBytes m (4 * a) (ws.flatMap (wordBytes e))

/-! ### Regions (20_memory.md R57, R58) -/

/-- `inRange(a, n)` (20_memory.md R57). -/
def inRange (p : Params) (r : Region) : Bool := decide (r.base + r.len ≤ p.memWords)

/-- `overlaps((a, n), (c, m))` (20_memory.md R58). -/
def overlaps (r q : Region) : Bool :=
  decide (0 < r.len ∧ 0 < q.len ∧ r.base < q.base + q.len ∧ q.base < r.base + r.len)

/-- Word address `a` lies in the region (20_memory.md R57). -/
def inRegion (r : Region) (a : Nat) : Bool := decide (r.base ≤ a ∧ a < r.base + r.len)

/-- Some region of the list holds word address `a`. -/
def inRegions (rs : List Region) (a : Nat) : Bool := rs.any fun r => inRegion r a

/-- Two of the regions overlap. -/
def clashAmong : List Region → Bool
  | [] => false
  | r :: rs => rs.any (overlaps r) || clashAmong rs

/-- A written region overlaps another region of the command (20_memory.md R58). -/
def clash (reads writes : List Region) : Bool :=
  (writes.any fun w => reads.any fun r => overlaps w r) || clashAmong writes

/-! ### Free draws (00_scope.md R19) -/

/-- The words draw `d` leaves in the part of a region that exists. -/
def freeWords (p : Params) (d : Nat) (r : Region) : List Word :=
  (List.range (min r.len (p.memWords - r.base))).map fun i => Config.freeMem d (r.base + i)

/-- Memory with any value in every word of the regions (60_exceptions.md R143, 70_reset_and_hazards.md R162; log 7). -/
def fillFree (p : Params) (d : Nat) (rs : List Region) (m : Memory) : Memory :=
  rs.foldl (fun m r => memWrite p.endian m r.base (freeWords p d r)) m

/-- The unspecified scratch state that draw `d` leaves, within the sizes of 10_state.md R41 (log 11). -/
def freeScratch (d : Nat) : Scratch :=
  { Config.freeScratch d with
    miss := (Config.freeScratch d).miss.take 128
    excs := (Config.freeScratch d).excs.take (2 ^ 24) }

/-! ### Completion (10_state.md R49) -/

/-- What a command that succeeds does: the memory words it writes, in order, `EXC_CUR`, and its results. -/
structure Success where
  writes : List (Nat × List Word)
  excCur : Word
  result0 : Word
  result1 : Word
  result2 : Word

/-- The register writes every completion makes (10_state.md R49), with the scratch state left unspecified (R42). -/
def finish (c : ErrCode) (r0 r1 r2 : Word) (s : State) : State :=
  { s with
    phase := .idle
    done := true
    err := decide (c ≠ .noError)
    errCode := c
    result0 := r0
    result1 := r1
    result2 := r2
    scratch := freeScratch s.draws
    raced := false
    draws := s.draws + 1 }

/-- Completion with success: memory, `EXC_CUR`, results and `STATUS` (10_state.md R49). -/
def succeed (ok : Success) (s : State) : State :=
  finish .noError ok.result0 ok.result1 ok.result2
    { s with
      mem := ok.writes.foldl (fun m w => memWrite s.params.endian m w.1 w.2) s.mem
      excCur := ok.excCur }

/-- TAKING AN ERROR: completion with code `c` (60_exceptions.md R139, R144). Memory is unchanged where the code was
decided before memory was touched (R142), and else holds any value in the written regions `ws` (R143). -/
def raiseError (ws : List Region) (c : ErrCode) (s : State) : State :=
  finish c 0#32 0#32 0#32
    { s with mem := if beforeMemory c then s.mem else fillFree s.params s.draws ws s.mem }

/-- What a success that raced with the host leaves in the registers: any value in each of them. Only a command with
`cursor` writes `EXC_CUR` (10_state.md R36; 70_reset_and_hazards.md R167; log 10). -/
def racedSuccess (cursor : Bool) (s : State) : Success :=
  { writes := []
    excCur := if cursor then Config.freeReg s.draws 4 else s.excCur
    result0 := Config.freeReg s.draws 1
    result1 := Config.freeReg s.draws 2
    result2 := Config.freeReg s.draws 3 }

/-- Completion of a command whose regions the host wrote while it ran (70_reset_and_hazards.md R167): the registers
of some error of R144 or of some success, and any value in the written regions (log 10). -/
def finishRaced (ws : List Region) (cursor : Bool) (s : State) : State :=
  let filled := { s with mem := fillFree s.params s.draws ws s.mem }
  match errOfNumber ((Config.freeReg s.draws 0).toNat % 12) with
  | .noError => succeed (racedSuccess cursor s) filled
  | c => finish c 0#32 0#32 0#32 filled

/-- The engine's step for a command with written regions `ws` and outcome `body`; `cursor` says that its success writes
`EXC_CUR` (10_state.md R49, 60_exceptions.md R139, 70_reset_and_hazards.md R167, R171). -/
def complete (ws : List Region) (cursor : Bool) (body : Except ErrCode Success) (s : State) : State :=
  if s.raced then finishRaced ws cursor s
  else
    match body with
    | .ok ok => succeed ok s
    | .error c => raiseError ws c s

end Sys2Proof.Machine
end

