-- ==== Sys2Proof/Machine/Primitives.lean ====
section
/-! DEFINITION. Bit length, the packer contract and the reference packer (40_primitives.md), and the list
notation of the pseudocode (00_scope.md R18). -/

namespace Sys2Proof.Machine

/-- `xs[i..j)` (00_scope.md R18). -/
def slice (xs : List Word) (i j : Nat) : List Word := (xs.drop i).take (j - i)

/-- `xs[i]` as a word; the pseudocode never reads beyond a list's end (log 21). -/
def wordAt (xs : List Word) (i : Nat) : Word := xs.getD i 0#32

/-- `bitlen(v)`: 0 for 0, else one more than the index of the most significant 1 bit (40_primitives.md R86). -/
def bitlen (v : Word) : Nat := if v = 0#32 then 0 else v.toNat.log2 + 1

/-- `bw(b)`, the words of one packed block (40_primitives.md R87). -/
def bw (b : Nat) : Nat := 4 * b

/-- `words(L, b, E)`, the length of a chunk frame (30_encoding.md R81). -/
def frameWords (L b E : Nat) : Nat := 2 + L / 128 + L * b / 32 + E

/-- The external packer: the pair of functions of 40_primitives.md R88, on lists of words. -/
structure PackFns where
  pack : List Word → Nat → List Word
  unpack : List Word → Nat → List Word

/-- The contract of R88. Clause 6 (pure) is that they are functions; clauses 1 to 5 are the fields, and both
answers have their sizes. -/
structure PackFns.Contract (p : PackFns) : Prop where
  lossless : ∀ (P : List Word) (b : Nat), P.length = 128 → b ≤ 31 → (∀ v ∈ P, v.toNat < 2 ^ b) →
    p.unpack (p.pack P b) b = P
  range : ∀ (w : List Word) (b : Nat), b ≤ 31 → w.length = bw b → ∀ v ∈ p.unpack w b, v.toNat < 2 ^ b
  packSize : ∀ (P : List Word) (b : Nat), P.length = 128 → b ≤ 31 → (p.pack P b).length = bw b
  unpackSize : ∀ (w : List Word) (b : Nat), b ≤ 32 → w.length = bw b → (p.unpack w b).length = 128
  packZero : ∀ P : List Word, P.length = 128 → p.pack P 0 = []
  unpackZero : p.unpack [] 0 = List.replicate 128 0#32
  unpackRaw : ∀ w : List Word, w.length = 128 → p.unpack w 32 = w

/-- The number whose digits in base `B`, least significant first, are `ds`. -/
def joinDigits (B : Nat) : List Nat → Nat
  | [] => 0
  | d :: ds => d + B * joinDigits B ds

/-- The `n` lowest digits of `x` in base `B`, least significant first. -/
def splitDigits (B : Nat) : Nat → Nat → List Nat
  | 0, _ => []
  | n + 1, x => x % B :: splitDigits B n (x / B)

/-- One pack of the reference layout: the low `b` bits of 32 values, value `j` at stream bits
`j·b .. j·b + b − 1`, spread over `b` words, the stream's bit 0 first (40_primitives.md R92). -/
def packOne (vs : List Word) (b : Nat) : List Word :=
  (splitDigits (2 ^ 32) b (joinDigits (2 ^ b) (vs.map fun v => v.toNat % 2 ^ b))).map (BitVec.ofNat 32)

/-- The 32 values of one pack, from its `b` words (40_primitives.md R93). -/
def unpackOne (ws : List Word) (b : Nat) : List Word :=
  (splitDigits (2 ^ b) 32 (joinDigits (2 ^ 32) (ws.map BitVec.toNat))).map (BitVec.ofNat 32)

/-- `pack_ref(P, b)`: four packs one after the other (40_primitives.md R92). -/
def packRef (P : List Word) (b : Nat) : List Word :=
  (List.range 4).flatMap fun p => packOne (slice P (32 * p) (32 * p + 32)) b

/-- `unpack_ref(w, b)` (40_primitives.md R93). -/
def unpackRef (w : List Word) (b : Nat) : List Word :=
  (List.range 4).flatMap fun p => unpackOne (slice w (p * b) (p * b + b)) b

/-- `PACK_REF` (40_primitives.md R92, R93). -/
def refFns : PackFns := { pack := packRef, unpack := unpackRef }

/-- Packer number `k` of the ones the spec leaves open: the reference payload, rearranged by an arbitrary bijection
of the payloads (log 2). A width-32 block is stored raw, so its payload is not rearranged (R88, clause 5). -/
def externalFns (k : Nat) : PackFns where
  pack P b := List.ofFn (Config.packPerm k b fun i => wordAt (packRef P b) i)
  unpack w b :=
    if b = 32 then w
    else unpackRef (List.ofFn ((Config.packPerm k b).symm fun i => wordAt w i)) b

/-- The packer the parameter `PACK` names (00_scope.md R13). -/
def packFns : Packer → PackFns
  | .ref => refFns
  | .external k => externalFns k

end Sys2Proof.Machine
end

