-- ==== Sys2Proof/Machine/Operands.lean ====
section
/-! DEFINITION. The operands of the commands: argument registers as natural numbers (30_encoding.md R74), the region
table (20_memory.md R60) and the region checks (20_memory.md R57, R58). -/

namespace Sys2Proof.Machine

/-- The region of `n` words at the address a register holds. -/
def regionAt (a : Word) (n : Nat) : Region := { base := a.toNat, len := n }

/-- `(EXC_ADDR + EXC_CUR, EXC_END − EXC_CUR)`, on naturals (20_memory.md R57, R60). DESIGN CHOICE: where
`EXC_END < EXC_CUR`, for which the spec gives no length, it is empty (log 22). -/
def excRegion (s : State) : Region :=
  { base := s.excAddr.toNat + s.excCur.toNat, len := s.excEnd.toNat - s.excCur.toNat }

/-- `(SRC_ADDR, SRC_LEN)`. -/
def srcRegion (s : State) : Region := regionAt s.srcAddr s.srcLen.toNat

/-- `(DST_ADDR, DST_CAP)`. -/
def dstRegion (s : State) : Region := regionAt s.dstAddr s.dstCap.toNat

/-- The read regions of a command (20_memory.md R60). -/
def readRegions (i : Instr) (s : State) : List Region :=
  match i with
  | .estimate => [srcRegion s]
  | .blkEnc _ => [regionAt s.srcAddr blockLen]
  | .blkDec b => [regionAt s.srcAddr (bw b), excRegion s]
  | .chunkEnc => [srcRegion s]
  | .chunkDec => [srcRegion s]
  | .arrayEnc => [srcRegion s]
  | .arrayDec => [srcRegion s]
  | .reservedOp0 => []
  | .reservedOp8F _ => []

/-- The written regions of a command (20_memory.md R60). -/
def writtenRegions (i : Instr) (s : State) : List Region :=
  match i with
  | .estimate => []
  | .blkEnc b => [regionAt s.dstAddr (bw b), excRegion s]
  | .blkDec _ => [regionAt s.dstAddr blockLen]
  | .chunkEnc => [dstRegion s]
  | .chunkDec => [dstRegion s]
  | .arrayEnc => [dstRegion s]
  | .arrayDec => [dstRegion s]
  | .reservedOp0 => []
  | .reservedOp8F _ => []

/-- The commands whose success writes `EXC_CUR` (10_state.md R36). -/
def movesCursor : Instr → Bool
  | .estimate => false
  | .blkEnc _ => true
  | .blkDec _ => true
  | .chunkEnc => false
  | .chunkDec => false
  | .arrayEnc => false
  | .arrayDec => false
  | .reservedOp0 => false
  | .reservedOp8F _ => false

/-- Every region of the command is in range (20_memory.md R57). -/
def allInRange (i : Instr) (s : State) : Bool :=
  (readRegions i s ++ writtenRegions i s).all (inRange s.params)

/-- A written region of the command overlaps another of its regions (20_memory.md R58). -/
def anyOverlap (i : Instr) (s : State) : Bool := clash (readRegions i s) (writtenRegions i s)

/-- The words of the source region: `MemRead(SRC_ADDR, SRC_LEN)`. -/
def srcWords (s : State) : List Word :=
  memRead s.params.endian s.mem s.srcAddr.toNat s.srcLen.toNat

/-- A natural number written to a 32-bit register (00_scope.md R15). -/
def toReg (n : Nat) : Word := BitVec.ofNat 32 n

end Sys2Proof.Machine
end

