-- ==== Sys2Proof/Machine/Estimator.lean ====
section
/-! DEFINITION. The bit-width estimator and the meaning of ESTIMATE (41_estimator.md). -/

namespace Sys2Proof.Machine

/-- `S = min(n, 65536)` (41_estimator.md R98). -/
def sampleSize (n : Nat) : Nat := min n sampleMax

/-- The start of the sample window (41_estimator.md R98). -/
def sampleStart (n : Nat) (sel : Word) : Nat :=
  if sampleSize n < n then sel.toNat % (n - sampleSize n + 1) else 0

/-- The sample: `S` consecutive values of the segment (41_estimator.md R98). -/
def sampleOf (x : List Word) (sel : Word) : List Word :=
  slice x (sampleStart x.length sel) (sampleStart x.length sel + sampleSize x.length)

/-- `hist[k]` (41_estimator.md R99). -/
def hist (sample : List Word) (k : Nat) : Nat := sample.countP fun v => bitlen v == k

/-- FPF's `alt = (r·128 − 1) / (r · 2^b)` (41_estimator.md R101). -/
def altRate (r : Rat) (b : Nat) : Rat := (r * 128 - 1) / (r * 2 ^ b)

/-- The rate at candidate `b` with `e` exceptions in a sample of `S`, after the compensation (41_estimator.md R101). -/
def rate (S e b : Nat) : Rat :=
  let r : Rat := e / S
  if 0 < e then (if r < altRate r b then altRate r b else r) else r

/-- `cost(b) = b + r·32` (41_estimator.md R102). -/
def cost (S e b : Nat) : Rat := b + rate S e b * 32

/-- The downward sweep over the candidates still to visit, with the running count `e`, the best width and its cost so
far (41_estimator.md R100, R103). -/
def sweep (sample : List Word) (S : Nat) : List Nat → Nat → Nat → Rat → Nat
  | [], _, bestb, _ => bestb
  | b :: bs, e, bestb, bestcost =>
    let e' := e + hist sample (b + 1)
    if cost S e' b ≤ bestcost then sweep sample S bs e' b (cost S e' b)
    else sweep sample S bs e' bestb bestcost

/-- The candidates in the order `31, 30, …, 0` (41_estimator.md R100). -/
def candidates : List Nat := (List.range 32).reverse

/-- `estimate(x, sel)` (41_estimator.md R97 to R103). -/
def estimate (x : List Word) (sel : Word) : Nat :=
  if x.length = 0 then 0
  else sweep (sampleOf x sel) (sampleSize x.length) candidates 0 32 32

/-- The outcome of ESTIMATE (41_estimator.md R106). -/
def estimateBody (s : State) : Except ErrCode Success :=
  if !allInRange .estimate s then .error .accessFault
  else
    .ok
      { writes := []
        excCur := s.excCur
        result0 := toReg (estimate (srcWords s) s.sampleSel)
        result1 := toReg (sampleSize s.srcLen.toNat)
        result2 := toReg (sampleStart s.srcLen.toNat s.sampleSel) }

/-- ESTIMATE (41_estimator.md R106). -/
def execEstimate (s : State) : Host.Outcome State Fault Refusal :=
  .next (complete (writtenRegions .estimate s) (movesCursor .estimate) (estimateBody s) s)

end Sys2Proof.Machine
end

