-- ==== Sys2Proof/Machine/Patcher.lean ====
section
/-! DEFINITION. The exception patcher: the gap-chain encoder and decoder and the meanings of BLK_ENC and BLK_DEC
(42_patcher.md). -/

namespace Sys2Proof.Machine

/-- The miss list: the offsets of the values `≥ 2^b`, increasing (42_patcher.md R109). -/
def missList (v : List Word) (b : Nat) : List Nat :=
  (List.range blockLen).filter fun k => decide (2 ^ b ≤ (wordAt v k).toNat)

/-- The encoder's walk: the working copy, the exceptions so far and the last chain position (42_patcher.md R111). -/
structure Walk where
  wc : List Word
  excs : List Word
  prev : Nat

/-- The `while` loop of 42_patcher.md R112: compulsory exceptions at `prev + maxgap` until `cur` is in reach. Each round
moves `prev` up by at least 1, so `fuel` of a block's length is never used up (log 21). -/
def insertCompulsory (maxgap cur : Nat) : Nat → Walk → Walk
  | 0, w => w
  | fuel + 1, w =>
    if w.prev + maxgap < cur then
      insertCompulsory maxgap cur fuel
        { wc := w.wc.set w.prev (toReg (maxgap - 1))
          excs := w.excs ++ [wordAt w.wc (w.prev + maxgap)]
          prev := w.prev + maxgap }
    else w

/-- A real exception at `cur` (42_patcher.md R112, R113). -/
def linkReal (cur : Nat) (w : Walk) : Walk :=
  { wc := w.wc.set w.prev (toReg (cur - w.prev - 1))
    excs := w.excs ++ [wordAt w.wc cur]
    prev := cur }

/-- One remaining offset of the miss list; the compulsory step is skipped when `maxgap ≥ 128`
(42_patcher.md R112, R113). -/
def walkStep (b : Nat) (w : Walk) (cur : Nat) : Walk :=
  if b < 7 then linkReal cur (insertCompulsory (2 ^ b) cur blockLen w) else linkReal cur w

/-- What `compressBlock` returns (42_patcher.md R107). -/
structure Compressed where
  words : List Word
  first : Nat
  excs : List Word

/-- The low `b` bits of every slot (42_patcher.md R114). -/
def maskBlock (wc : List Word) (b : Nat) : List Word := wc.map fun v => toReg (v.toNat % 2 ^ b)

/-- The end of the walk over the whole miss list, which begins at `m0` (42_patcher.md R111 to R113). -/
def walkAll (v : List Word) (b m0 : Nat) (ms : List Nat) : Walk :=
  ms.foldl (walkStep b) { wc := v, excs := [wordAt v m0], prev := m0 }

/-- `compressBlock(v, b)` (42_patcher.md R107 to R115). -/
def compressBlock (pk : PackFns) (v : List Word) (b : Nat) : Compressed :=
  if b = 32 then { words := v, first := 128, excs := [] }
  else
    match missList v b with
    | [] => { words := pk.pack v b, first := 128, excs := [] }
    | m0 :: ms =>
      { words := pk.pack (maskBlock (walkAll v b m0 ms).wc b) b
        first := m0
        excs := (walkAll v b m0 ms).excs }

/-- The decoder's walk over the exceptions still to consume (42_patcher.md R120). -/
def walkChain : List Word → Nat → List Word → Except ErrCode (List Word)
  | [], _, out => .ok out
  | e :: es, cur, out =>
    if blockLen ≤ cur then .error .malChain
    else walkChain es (cur + (wordAt out cur).toNat + 1) (out.set cur e)

/-- `decompressBlock(w, b, excs, first)` (42_patcher.md R117 to R121). -/
def decompressBlock (pk : PackFns) (w : List Word) (b : Nat) (excs : List Word) (first : Nat) :
    Except ErrCode (List Word × Nat) :=
  if first = 128 then .ok (pk.unpack w b, 0)
  else
    match walkChain excs first (pk.unpack w b) with
    | .ok out => .ok (out, excs.length)
    | .error c => .error c

/-- The packer of the state's parameters. -/
def packer (s : State) : PackFns := packFns s.params.packer

/-- The block BLK_ENC compresses: `MemRead(SRC_ADDR, 128)` at width `b` (42_patcher.md R122). -/
def blkEncResult (b : Nat) (s : State) : Compressed :=
  compressBlock (packer s) (memRead s.params.endian s.mem s.srcAddr.toNat blockLen) b

/-- The outcome of BLK_ENC (42_patcher.md R122). -/
def blkEncBody (b : Nat) (s : State) : Except ErrCode Success :=
  if 32 < b then .error .invalidArg
  else if s.excEnd.toNat < s.excCur.toNat then .error .invalidArg
  else if !allInRange (.blkEnc b) s then .error .accessFault
  else if anyOverlap (.blkEnc b) s then .error .overlap
  else
    let r := blkEncResult b s
    if s.excEnd.toNat - s.excCur.toNat < r.excs.length then .error .outputOverflow
    else
      .ok
        { writes := [(s.dstAddr.toNat, r.words), (s.excAddr.toNat + s.excCur.toNat, r.excs)]
          excCur := toReg (s.excCur.toNat + r.excs.length)
          result0 := toReg r.first
          result1 := toReg r.excs.length
          result2 := toReg (bw b) }

/-- BLK_ENC (42_patcher.md R122). -/
def execBlkEnc (b : Nat) (s : State) : Host.Outcome State Fault Refusal :=
  .next (complete (writtenRegions (.blkEnc b) s) (movesCursor (.blkEnc b)) (blkEncBody b s) s)

/-- What BLK_DEC decompresses (42_patcher.md R123). -/
def blkDecResult (b : Nat) (s : State) : Except ErrCode (List Word × Nat) :=
  decompressBlock (packer s) (memRead s.params.endian s.mem s.srcAddr.toNat (bw b)) b
    (memRead s.params.endian s.mem (s.excAddr.toNat + s.excCur.toNat) (s.excEnd.toNat - s.excCur.toNat))
    s.first.toNat

/-- The outcome of BLK_DEC (42_patcher.md R123). -/
def blkDecBody (b : Nat) (s : State) : Except ErrCode Success :=
  if 32 < b then .error .invalidArg
  else if 128 < s.first.toNat then .error .invalidArg
  else if s.excEnd.toNat < s.excCur.toNat then .error .invalidArg
  else if !allInRange (.blkDec b) s then .error .accessFault
  else if anyOverlap (.blkDec b) s then .error .overlap
  else
    match blkDecResult b s with
    | .error c => .error c
    | .ok (out, used) =>
      .ok
        { writes := [(s.dstAddr.toNat, out)]
          excCur := toReg (s.excCur.toNat + used)
          result0 := toReg used
          result1 := 0#32
          result2 := 0#32 }

/-- BLK_DEC (42_patcher.md R123). -/
def execBlkDec (b : Nat) (s : State) : Host.Outcome State Fault Refusal :=
  .next (complete (writtenRegions (.blkDec b) s) (movesCursor (.blkDec b)) (blkDecBody b s) s)

end Sys2Proof.Machine
end

