-- ==== Sys2Proof/Machine/Chunk.lean ====
section
/-! DEFINITION. The chunk frame assembler and the meanings of CHUNK_ENC and CHUNK_DEC (43_chunk.md). -/

namespace Sys2Proof.Machine

/-! ### Block headers (30_encoding.md R77 to R79) -/

/-- The header of a block: `(first & 0x7F) | (count << 7)` on 32-bit words (30_encoding.md R78). -/
def headerWord (first count : Nat) : Word := (toReg first &&& 0x7F#32) ||| (toReg count <<< 7)

/-- `off = h[6:0]` (30_encoding.md R79). -/
def headerOff (h : Word) : Nat := (h.extractLsb' 0 7).toNat

/-- `end = h[31:7]` (30_encoding.md R79). -/
def headerEnd (h : Word) : Nat := (h.extractLsb' 7 25).toNat

/-! ### Encoder (43_chunk.md R125) -/

/-- What `encodeChunk` returns (43_chunk.md R125). -/
structure ChunkFrame where
  out : List Word
  width : Nat
  excCount : Nat

/-- The blocks `x[128k .. 128k + 128)` of a chunk, in order (43_chunk.md R125). -/
def blocksOf (x : List Word) : List (List Word) :=
  (List.range (x.length / 128)).map fun k => slice x (128 * k) (128 * k + 128)

/-- The blocks still to encode, after the exceptions `excs`: the headers and payloads, and all the exceptions of the
chunk (43_chunk.md R125). -/
def encodeBlocks (pk : PackFns) (b : Nat) : List (List Word) → List Word → List Word × List Word
  | [], excs => ([], excs)
  | v :: vs, excs =>
    let r := compressBlock pk v b
    let rest := encodeBlocks pk b vs (excs ++ r.excs)
    (headerWord r.first (excs ++ r.excs).length :: r.words ++ rest.1, rest.2)

/-- A chunk at width `b`: length, width, blocks, exception tail (43_chunk.md R125). -/
def encodeChunkAt (pk : PackFns) (x : List Word) (b : Nat) : ChunkFrame :=
  let body := encodeBlocks pk b (blocksOf x) []
  { out := [toReg x.length, toReg b] ++ body.1 ++ body.2, width := b, excCount := body.2.length }

/-- `encodeChunk(x, sel)` (43_chunk.md R125). -/
def encodeChunk (pk : PackFns) (x : List Word) (sel : Word) : ChunkFrame :=
  encodeChunkAt pk x (estimate x sel)

/-! ### Decoder (43_chunk.md R127 to R130) -/

/-- What `decodeChunk` returns (43_chunk.md R127). -/
structure ChunkValues where
  vals : List Word
  used : Nat
  width : Nat

/-- The tail start `T` of a chunk of `nb` blocks at width `b` (43_chunk.md R126, R127). -/
def tailStart (nb b : Nat) : Nat := 2 + nb * (1 + bw b)

/-- Block `k` of the frame `w`, whose slice starts at `cur`: its values and its slice's end (43_chunk.md R127 to R129). -/
def decodeBlock (pk : PackFns) (w : List Word) (b T k cur : Nat) : Except ErrCode (List Word × Nat) :=
  let h := wordAt w (2 + k * (1 + bw b))
  let stop := headerEnd h
  if stop < cur then .error .malHeader
  else if b = 32 ∧ stop ≠ cur then .error .malHeader
  else if w.length < T + stop then .error .malTruncated
  else
    match decompressBlock pk (slice w (3 + k * (1 + bw b)) (3 + k * (1 + bw b) + bw b)) b
        (slice w (T + cur) (T + stop)) (if stop = cur then 128 else headerOff h) with
    | .error c => .error c
    | .ok (blk, _) => .ok (blk, stop)

/-- The `todo` blocks from block `k` on: their values, and where the last slice ends (43_chunk.md R127). -/
def decodeBlocks (pk : PackFns) (w : List Word) (b T : Nat) : Nat → Nat → Nat → Except ErrCode (List Word × Nat)
  | 0, _, cur => .ok ([], cur)
  | todo + 1, k, cur =>
    match decodeBlock pk w b T k cur with
    | .error c => .error c
    | .ok (blk, stop) =>
      match decodeBlocks pk w b T todo (k + 1) stop with
      | .error c => .error c
      | .ok (rest, last) => .ok (blk ++ rest, last)

/-- `decodeChunk(w, avail)` (43_chunk.md R127). -/
def decodeChunk (pk : PackFns) (w : List Word) (avail : Nat) : Except ErrCode ChunkValues :=
  if w.length < 2 then .error .malTruncated
  else
    let L := (wordAt w 0).toNat
    let b := (wordAt w 1).toNat
    if L % 128 ≠ 0 ∨ chunkMax < L then .error .malLength
    else if 32 < b then .error .malWidth
    else if avail < L then .error .outputOverflow
    else if w.length < tailStart (L / 128) b then .error .malTruncated
    else
      match decodeBlocks pk w b (tailStart (L / 128) b) (L / 128) 0 0 with
      | .error c => .error c
      | .ok (vals, cur) => .ok { vals := vals, used := tailStart (L / 128) b + cur, width := b }

/-! ### Commands -/

/-- The frame CHUNK_ENC makes (43_chunk.md R131). -/
def chunkEncResult (s : State) : ChunkFrame := encodeChunk (packer s) (srcWords s) s.sampleSel

/-- The outcome of CHUNK_ENC (43_chunk.md R131). -/
def chunkEncBody (s : State) : Except ErrCode Success :=
  if s.srcLen.toNat % 128 ≠ 0 ∨ chunkMax < s.srcLen.toNat then .error .invalidLength
  else if !allInRange .chunkEnc s then .error .accessFault
  else if anyOverlap .chunkEnc s then .error .overlap
  else
    let f := chunkEncResult s
    if s.dstCap.toNat < f.out.length then .error .outputOverflow
    else
      .ok
        { writes := [(s.dstAddr.toNat, f.out)]
          excCur := s.excCur
          result0 := toReg f.out.length
          result1 := toReg f.width
          result2 := toReg f.excCount }

/-- CHUNK_ENC (43_chunk.md R131). -/
def execChunkEnc (s : State) : Host.Outcome State Fault Refusal :=
  .next (complete (writtenRegions .chunkEnc s) (movesCursor .chunkEnc) (chunkEncBody s) s)

/-- What CHUNK_DEC decodes (43_chunk.md R132). -/
def chunkDecResult (s : State) : Except ErrCode ChunkValues :=
  decodeChunk (packer s) (srcWords s) s.dstCap.toNat

/-- The outcome of CHUNK_DEC (43_chunk.md R132). -/
def chunkDecBody (s : State) : Except ErrCode Success :=
  if !allInRange .chunkDec s then .error .accessFault
  else if anyOverlap .chunkDec s then .error .overlap
  else
    match chunkDecResult s with
    | .error c => .error c
    | .ok r =>
      .ok
        { writes := [(s.dstAddr.toNat, r.vals)]
          excCur := s.excCur
          result0 := toReg r.used
          result1 := toReg r.vals.length
          result2 := toReg r.width }

/-- CHUNK_DEC (43_chunk.md R132). -/
def execChunkDec (s : State) : Host.Outcome State Fault Refusal :=
  .next (complete (writtenRegions .chunkDec s) (movesCursor .chunkDec) (chunkDecBody s) s)

end Sys2Proof.Machine
end

