-- ==== Sys2Proof/Machine/Array.lean ====
section
/-! DEFINITION. The array chunker and the meanings of ARRAY_ENC and ARRAY_DEC (44_array.md). -/

namespace Sys2Proof.Machine

/-- What `encodeArray` returns (44_array.md R133). -/
structure ArrayFrame where
  out : List Word
  chunks : Nat
  excCount : Nat

/-- The values still to encode, the next chunk being the longest allowed (44_array.md R133). Every round takes at least
one value, so `fuel` of the array's length is never used up (log 21). -/
def encodeArrayLoop (pk : PackFns) (sel : Word) : Nat → List Word → ArrayFrame
  | 0, _ => { out := [], chunks := 0, excCount := 0 }
  | fuel + 1, x =>
    if x.length = 0 then { out := [], chunks := 0, excCount := 0 }
    else
      let f := encodeChunk pk (x.take chunkMax) sel
      let rest := encodeArrayLoop pk sel fuel (x.drop chunkMax)
      { out := f.out ++ rest.out, chunks := rest.chunks + 1, excCount := f.excCount + rest.excCount }

/-- `encodeArray(x, sel)` for a length that is a multiple of 128 (44_array.md R133, R134). -/
def encodeArray (pk : PackFns) (x : List Word) (sel : Word) : ArrayFrame :=
  let r := encodeArrayLoop pk sel x.length x
  { r with out := toReg x.length :: r.out }

/-- What `decodeArray` returns (44_array.md R135). -/
structure ArrayValues where
  vals : List Word
  used : Nat
  chunks : Nat

/-- The chunks from word `pos` on, with `owed` values still owed (44_array.md R135). A round that raises nothing produces
at least one value, so `fuel` of the values owed is never used up (log 21). -/
def decodeArrayLoop (pk : PackFns) (w : List Word) : Nat → Nat → Nat → Except ErrCode ArrayValues
  | 0, _, pos => .ok { vals := [], used := pos, chunks := 0 }
  | fuel + 1, owed, pos =>
    if owed = 0 then .ok { vals := [], used := pos, chunks := 0 }
    else if w.length < pos + 2 then .error .malTruncated
    else if (wordAt w pos).toNat = 0 ∨ owed < (wordAt w pos).toNat then .error .malLength
    else
      match decodeChunk pk (w.drop pos) owed with
      | .error c => .error c
      | .ok r =>
        match decodeArrayLoop pk w fuel (owed - r.vals.length) (pos + r.used) with
        | .error c => .error c
        | .ok rest => .ok { vals := r.vals ++ rest.vals, used := rest.used, chunks := rest.chunks + 1 }

/-- `decodeArray(w, cap)` (44_array.md R135). -/
def decodeArray (pk : PackFns) (w : List Word) (cap : Nat) : Except ErrCode ArrayValues :=
  if w.length < 1 then .error .malTruncated
  else if cap < (wordAt w 0).toNat then .error .outputOverflow
  else decodeArrayLoop pk w (wordAt w 0).toNat (wordAt w 0).toNat 1

/-- The frame ARRAY_ENC makes (44_array.md R136). -/
def arrayEncResult (s : State) : ArrayFrame := encodeArray (packer s) (srcWords s) s.sampleSel

/-- The outcome of ARRAY_ENC (44_array.md R136). -/
def arrayEncBody (s : State) : Except ErrCode Success :=
  if s.srcLen.toNat % 128 ≠ 0 then .error .invalidLength
  else if !allInRange .arrayEnc s then .error .accessFault
  else if anyOverlap .arrayEnc s then .error .overlap
  else
    let f := arrayEncResult s
    if s.dstCap.toNat < f.out.length then .error .outputOverflow
    else
      .ok
        { writes := [(s.dstAddr.toNat, f.out)]
          excCur := s.excCur
          result0 := toReg f.out.length
          result1 := toReg f.chunks
          result2 := toReg f.excCount }

/-- ARRAY_ENC (44_array.md R136). -/
def execArrayEnc (s : State) : Host.Outcome State Fault Refusal :=
  .next (complete (writtenRegions .arrayEnc s) (movesCursor .arrayEnc) (arrayEncBody s) s)

/-- What ARRAY_DEC decodes (44_array.md R137). -/
def arrayDecResult (s : State) : Except ErrCode ArrayValues :=
  decodeArray (packer s) (srcWords s) s.dstCap.toNat

/-- The outcome of ARRAY_DEC (44_array.md R137). -/
def arrayDecBody (s : State) : Except ErrCode Success :=
  if !allInRange .arrayDec s then .error .accessFault
  else if anyOverlap .arrayDec s then .error .overlap
  else
    match arrayDecResult s with
    | .error c => .error c
    | .ok r =>
      .ok
        { writes := [(s.dstAddr.toNat, r.vals)]
          excCur := s.excCur
          result0 := toReg r.used
          result1 := toReg r.vals.length
          result2 := toReg r.chunks }

/-- ARRAY_DEC (44_array.md R137). -/
def execArrayDec (s : State) : Host.Outcome State Fault Refusal :=
  .next (complete (writtenRegions .arrayDec s) (movesCursor .arrayDec) (arrayDecBody s) s)

end Sys2Proof.Machine
end

