-- ==== Sys2Proof/Machine/Reserved.lean ====
section
/-! DEFINITION. The meanings of the reserved selectors (30_encoding.md R71, 60_exceptions.md R148). -/

namespace Sys2Proof.Machine

/-- `OP = 0x0`: completes with ILLEGAL_OP (60_exceptions.md R148). It has no region, so it cannot race with the host. -/
def execReservedOp0 (s : State) : Host.Outcome State Fault Refusal := .next (raiseError [] .illegalOp s)

/-- `OP = 0x8 .. 0xF`: completes with ILLEGAL_OP, whichever of them it is (60_exceptions.md R148). -/
def execReservedOp8F (_op : Nat) (s : State) : Host.Outcome State Fault Refusal :=
  .next (raiseError [] .illegalOp s)

end Sys2Proof.Machine
end

