-- ==== Sys2Proof/Machine/Dispatch.lean ====
section
/-! DEFINITION. The command map: one arm per command (30_encoding.md R70). -/

namespace Sys2Proof.Machine

def exec (i : Instr) (s : State) : Host.Outcome State Fault Refusal :=
  match i with
  | .estimate => Sys2Proof.Machine.execEstimate s
  | .blkEnc b => Sys2Proof.Machine.execBlkEnc b s
  | .blkDec b => Sys2Proof.Machine.execBlkDec b s
  | .chunkEnc => Sys2Proof.Machine.execChunkEnc s
  | .chunkDec => Sys2Proof.Machine.execChunkDec s
  | .arrayEnc => Sys2Proof.Machine.execArrayEnc s
  | .arrayDec => Sys2Proof.Machine.execArrayDec s
  | .reservedOp0 => Sys2Proof.Machine.execReservedOp0 s
  | .reservedOp8F op => Sys2Proof.Machine.execReservedOp8F op s

end Sys2Proof.Machine
end

