-- ==== Sys2Proof/Machine/Registers.lean ====
section
/-! DEFINITION. The register block as the host sees it (10_state.md R26 to R48). -/

namespace Sys2Proof.Machine

/-- The named registers of the block (10_state.md R26). -/
inductive Reg where
  | id
  | cmd
  | status
  | srcAddr
  | srcLen
  | dstAddr
  | dstCap
  | excAddr
  | excCur
  | excEnd
  | first
  | sampleSel
  | result0
  | result1
  | result2
  deriving DecidableEq, Repr

/-- `offset(REG)` (10_state.md R26). -/
def regOffset : Reg → Nat
  | .id => 0x00
  | .cmd => 0x04
  | .status => 0x08
  | .srcAddr => 0x0C
  | .srcLen => 0x10
  | .dstAddr => 0x14
  | .dstCap => 0x18
  | .excAddr => 0x1C
  | .excCur => 0x20
  | .excEnd => 0x24
  | .first => 0x28
  | .sampleSel => 0x2C
  | .result0 => 0x30
  | .result1 => 0x34
  | .result2 => 0x38

/-- The register at an offset; none at 0x3C, beyond it, or between the registers (10_state.md R26, R43). -/
def regAt : Nat → Option Reg
  | 0x00 => some .id
  | 0x04 => some .cmd
  | 0x08 => some .status
  | 0x0C => some .srcAddr
  | 0x10 => some .srcLen
  | 0x14 => some .dstAddr
  | 0x18 => some .dstCap
  | 0x1C => some .excAddr
  | 0x20 => some .excCur
  | 0x24 => some .excEnd
  | 0x28 => some .first
  | 0x2C => some .sampleSel
  | 0x30 => some .result0
  | 0x34 => some .result1
  | 0x38 => some .result2
  | _ => none

/-- The hardwired value of `ID`, the bytes "PFOR" (10_state.md R27). -/
def idValue : Word := 0x50464F52#32

/-- The value of a register (10_state.md R26 to R40). -/
def readReg (r : Reg) (s : State) : Word :=
  match r with
  | .id => idValue
  | .cmd => s.cmd
  | .status => statusWord s
  | .srcAddr => s.srcAddr
  | .srcLen => s.srcLen
  | .dstAddr => s.dstAddr
  | .dstCap => s.dstCap
  | .excAddr => s.excAddr
  | .excCur => s.excCur
  | .excEnd => s.excEnd
  | .first => s.first
  | .sampleSel => s.sampleSel
  | .result0 => s.result0
  | .result1 => s.result1
  | .result2 => s.result2

/-- Issue: the write of `v` to `CMD` while IDLE (10_state.md R28, R47). -/
def issue (v : Word) (s : State) : State :=
  { s with
    cmd := v &&& cmdMask
    done := false
    err := false
    errCode := .noError
    phase := .busy
    raced := false }

/-- The write of an RW register: `update` while IDLE; while BUSY it is ignored and sets `STATUS.IGN`
(10_state.md R44, R48). -/
def guarded (update : State → State) (s : State) : State :=
  match s.phase with
  | .idle => update s
  | .busy => { s with ign := true }

/-- A host write of `v` to a register (10_state.md R27 to R40, R44, R47). -/
def writeReg (r : Reg) (v : Word) (s : State) : State :=
  match r with
  | .id => s
  | .cmd => guarded (issue v) s
  | .status => writeStatus v s
  | .srcAddr => guarded (fun s => { s with srcAddr := v }) s
  | .srcLen => guarded (fun s => { s with srcLen := v }) s
  | .dstAddr => guarded (fun s => { s with dstAddr := v }) s
  | .dstCap => guarded (fun s => { s with dstCap := v }) s
  | .excAddr => guarded (fun s => { s with excAddr := v }) s
  | .excCur => guarded (fun s => { s with excCur := v }) s
  | .excEnd => guarded (fun s => { s with excEnd := v }) s
  | .first => guarded (fun s => { s with first := v }) s
  | .sampleSel => guarded (fun s => { s with sampleSel := v }) s
  | .result0 => s
  | .result1 => s
  | .result2 => s

/-- A host read at an offset: only an aligned 32-bit access reads a register; anything else returns 0
(10_state.md R43; logs 13, 14). -/
def busRead (off : Nat) (width : Width) (s : State) : Word :=
  match width with
  | .byte => 0#32
  | .half => 0#32
  | .word =>
    match regAt off with
    | some r => readReg r s
    | none => 0#32

/-- A host write at an offset: only an aligned 32-bit access writes a register; anything else is ignored
(10_state.md R43; logs 13, 14). -/
def busWrite (off : Nat) (width : Width) (v : Word) (s : State) : State :=
  match width with
  | .byte => s
  | .half => s
  | .word =>
    match regAt off with
    | some r => writeReg r v s
    | none => s

end Sys2Proof.Machine
end

