-- ==== Sys2Proof/Machine/HostPort.lean ====
section
/-! DEFINITION. What the host and the platform do to the block and to the data memory: the events of a run but for
the engine's turn (70_reset_and_hazards.md R160 to R162, R167, R171), what the command of another instance does to them
(60_exceptions.md R156), and the host script notation (30_encoding.md R84, R85). -/

namespace Sys2Proof.Machine

/-- The host's read returned `v`; `reads` keeps what its reads returned, oldest first (log 6). -/
def record (v : Word) (s : State) : State := { s with reads := s.reads ++ [v] }

/-- A host read at a bus address (10_state.md R43; log 12). -/
def hostRegRead (addr : Nat) (width : Width) (s : State) : Host.Outcome State Fault Refusal :=
  if addr < s.params.regBase then .fault .belowRegisterBlock
  else .next (record (busRead (addr - s.params.regBase) width s) s)

/-- A host write at a bus address (10_state.md R43; log 12). -/
def hostRegWrite (addr : Nat) (width : Width) (v : Word) (s : State) : Host.Outcome State Fault Refusal :=
  if addr < s.params.regBase then .fault .belowRegisterBlock
  else .next (busWrite (addr - s.params.regBase) width v s)

/-- The command latched in `CMD` (10_state.md R45, R49). -/
def latched (s : State) : Instr := decode s.cmd

/-- A host read of one data memory word. While a command runs, a word of its written regions reads as any value
(20_memory.md R63, item 4; log 9). -/
def hostMemRead (a : Nat) (s : State) : Host.Outcome State Fault Refusal :=
  if s.params.memWords ≤ a then .fault .noSuchWord
  else if s.phase = .busy ∧ inRegions (writtenRegions (latched s) s) a = true then
    .next (record (Config.freeMem s.draws a) { s with draws := s.draws + 1 })
  else .next (record (readWord s.params.endian s.mem a) s)

/-- A host write of one data memory word. If it hits a region of the running command, the command's outcome becomes a
free one (70_reset_and_hazards.md R167; log 10). A store of another instance is such an event (log 17). -/
def hostMemWrite (a : Nat) (v : Word) (s : State) : Host.Outcome State Fault Refusal :=
  if s.params.memWords ≤ a then .fault .noSuchWord
  else
    .next
      { s with
        mem := memWrite s.params.endian s.mem a [v]
        raced :=
          s.raced ||
            (decide (s.phase = .busy)
              && inRegions (readRegions (latched s) s ++ writtenRegions (latched s) s) a) }

/-- The platform reset (70_reset_and_hazards.md R161, R162): registers and phase as `State.reset`, scratch unspecified,
data memory unchanged, but for any value in the written regions of a command that was running (log 8). -/
def platformReset (s : State) : State :=
  { State.reset with
    scratch := freeScratch s.draws
    params := s.params
    mem :=
      match s.phase with
      | .idle => s.mem
      | .busy => fillFree s.params s.draws (writtenRegions (latched s) s) s.mem
    script := s.script
    reads := s.reads
    draws := s.draws + 1 }

/-! ### Other instances (60_exceptions.md R156) -/

/-- A written region of one of two commands overlaps any region of the other (60_exceptions.md R156). -/
def interfere (reads writes reads' writes' : List Region) : Bool :=
  (writes.any fun w => (reads' ++ writes').any (overlaps w)) || writes'.any fun w => (reads ++ writes).any (overlaps w)

/-- The outcome of the running command and that of another instance's command with written regions `ws` become free: this
one's at its completion, the other's words now (60_exceptions.md R156; 20_memory.md R63, item 4; logs 10, 17). -/
def freeBoth (ws : List Region) (s : State) : State :=
  { s with mem := fillFree s.params s.draws ws s.mem, raced := true, draws := s.draws + 1 }

/-- Another instance has a command with these regions running: if this block runs one too and the two interfere, the
outcome of both is free (60_exceptions.md R156; log 17). -/
def peerRuns (reads writes : List Region) (s : State) : State :=
  match s.phase with
  | .idle => s
  | .busy =>
    if interfere reads writes (readRegions (latched s) s) (writtenRegions (latched s) s) then freeBoth writes s else s

/-! ### Host scripts (30_encoding.md R84, R85) -/

/-- One line of a host script (30_encoding.md R84), or one of its pseudo-instructions (R85). -/
inductive Line where
  | write (r : Reg) (v : Word)
  | read (r : Reg)
  | wait
  | mem (a : Nat) (ws : List Word)
  | run (i : Instr)
  | clear
  | setRegionSrc (a n : Word)
  | setRegionDst (a n : Word)
  | setExc (a cur stop : Word)
  deriving DecidableEq, Repr

/-- `W <REG>, <value>` as a host event (30_encoding.md R84). -/
def writeEvent (base : Nat) (r : Reg) (v : Word) : Event := .regWrite (base + regOffset r) .word v

/-- `M <addr>: <w0>, <w1>, …` as host events, one for each word (30_encoding.md R84). -/
def memEvents (a : Nat) : List Word → List Event
  | [] => []
  | w :: ws => .memWrite a w :: memEvents (a + 1) ws

/-- The host events of a script line, with the register block at bus address `base` (30_encoding.md R84, R85). -/
def lineEvents (base : Nat) : Line → List Event
  | .write r v => [writeEvent base r v]
  | .read r => [.regRead (base + regOffset r) .word]
  | .wait => [.wait]
  | .mem a ws => memEvents a ws
  | .run i => [writeEvent base .cmd (encode i), .wait]
  | .clear => [writeEvent base .status 0x0000000E#32]
  | .setRegionSrc a n => [writeEvent base .srcAddr a, writeEvent base .srcLen n]
  | .setRegionDst a n => [writeEvent base .dstAddr a, writeEvent base .dstCap n]
  | .setExc a cur stop =>
    [writeEvent base .excAddr a, writeEvent base .excCur cur, writeEvent base .excEnd stop]

/-- The host events of a host script (30_encoding.md R84). -/
def scriptEvents (base : Nat) (ls : List Line) : List Event := ls.flatMap (lineEvents base)

end Sys2Proof.Machine
end

