-- ==== Sys2Proof/Machine/Step.lean ====
section
/-! DEFINITION. One step of the machine (70_reset_and_hazards.md R171). -/

namespace Sys2Proof.Machine

/-- The engine's turn: the latched command runs to its end while BUSY; while IDLE the engine has no step
(10_state.md R49). -/
def engineTurn (s : State) : Host.Outcome State Fault Refusal :=
  match s.phase with
  | .idle => .next s
  | .busy => exec (latched s) s

/-- One event of the schedule, `s` being the state with the event taken off it; `wait` while BUSY lets the engine run and
polls again, from the state `before` (log 5). -/
def runEvent (e : Event) (before s : State) : Host.Outcome State Fault Refusal :=
  match e with
  | .regRead addr width => hostRegRead addr width s
  | .regWrite addr width v => hostRegWrite addr width v s
  | .memRead a => hostMemRead a s
  | .memWrite a v => hostMemWrite a v s
  | .wait =>
    match s.phase with
    | .idle => .next s
    | .busy => engineTurn before
  | .engine => engineTurn s
  | .reset => .next (platformReset s)
  | .peer reads writes => .next (peerRuns reads writes s)

/-- One step: the next event of the schedule; with nothing scheduled, the engine takes its step, which is the weak
fairness of 10_state.md R49 (log 4). -/
def step (s : State) : Host.Outcome State Fault Refusal :=
  match s.script with
  | [] => engineTurn s
  | e :: rest => runEvent e s { s with script := rest }

/-- `s` with the command word `w` issued, and the engine's turn next, so that the very next step runs that command
(10_state.md R47, R49; log 16). -/
def State.withFetchWord (s : State) (nbits w : Nat) : State :=
  { issue (BitVec.ofNat 32 (w % 2 ^ nbits)) s with script := .engine :: s.script }

end Sys2Proof.Machine
end

