-- ==== Sys2Proof/Safety.lean ====
section
/-! DEFINITION. The invariant of the machine and the terms the statements are made of: what a completion leaves in the
registers, what a command leaves alone, and what a memory holds. -/

namespace Sys2Proof.Machine

/-- The invariant of the machine. Every run from a state that meets it keeps it. -/
structure MachineInv (s : State) : Prop where
  /-- R13: `1 ≤ MEM_WORDS ≤ 2^32`. -/
  params : s.params.Legal
  /-- The memory is in its canonical form (log 3). -/
  memWf : Memory.wf s.mem
  /-- R51: the data memory has `MEM_WORDS` words and no byte beyond them. -/
  memInside : ∀ c ∈ s.mem, c.1 < 4 * s.params.memWords
  /-- R28, R73: the reserved bits of `CMD` read 0. -/
  cmdReserved : s.cmd &&& cmdMask = s.cmd
  /-- R30: while `BUSY = 1`, `DONE = 0`, `ERR = 0` and `ERRCODE = 0`. -/
  busyClear : s.phase = .busy → s.done = false ∧ s.err = false ∧ s.errCode = .noError
  /-- R30: `ERR = 1` iff `ERRCODE ≠ 0`. -/
  errIff : s.err = true ↔ s.errCode ≠ .noError
  /-- R41: the sizes of the scratch lists. -/
  scratch : s.scratch.Legal
  /-- Only a running command can have raced with the host or interfered with another's (logs 10, 17). -/
  racedBusy : s.raced = true → s.phase = .busy

/-- R30 as it stands, on the `STATUS` word the host reads: `BUSY` iff the phase is BUSY; while it is 1, `DONE`, `ERR` and
`ERRCODE` are 0; `ERR` iff `ERRCODE ≠ 0`. -/
def StatusInv (s : State) : Prop :=
  ((statusWord s).getLsbD 0 = true ↔ s.phase = .busy) ∧
  ((statusWord s).getLsbD 0 = true → (statusWord s).getLsbD 1 = false ∧ (statusWord s).getLsbD 2 = false ∧
    (statusWord s).extractLsb' 8 4 = 0#4) ∧
  ((statusWord s).getLsbD 2 = true ↔ (statusWord s).extractLsb' 8 4 ≠ 0#4)

/-- The fields of `STATUS` after a completion with code `c` (R49). -/
def Completed (c : ErrCode) (t : State) : Prop :=
  t.phase = .idle ∧ t.done = true ∧ t.err = decide (c ≠ .noError) ∧ t.errCode = c

/-- The values of the three result registers (R40). -/
def Results (r0 r1 r2 : Nat) (t : State) : Prop :=
  t.result0 = toReg r0 ∧ t.result1 = toReg r1 ∧ t.result2 = toReg r2

/-- What no command changes: `CMD`, the argument registers but for `EXC_CUR`, `STATUS.IGN`, the parameters, and what is
scheduled and recorded (R44, R144). -/
def ArgsKept (s t : State) : Prop :=
  t.cmd = s.cmd ∧ t.srcAddr = s.srcAddr ∧ t.srcLen = s.srcLen ∧ t.dstAddr = s.dstAddr ∧ t.dstCap = s.dstCap ∧
  t.excAddr = s.excAddr ∧ t.excEnd = s.excEnd ∧ t.first = s.first ∧ t.sampleSel = s.sampleSel ∧
  t.ign = s.ign ∧ t.params = s.params ∧ t.script = s.script ∧ t.reads = s.reads

/-- The words from word address `a` on are `ws`. -/
def Holds (t : State) (a : Nat) (ws : List Word) : Prop :=
  memRead t.params.endian t.mem a ws.length = ws

/-- Every byte of a word outside the regions is as before (R59). -/
def KeptOutside (rs : List Region) (s t : State) : Prop :=
  ∀ x : Nat, inRegions rs (x / 4) = false → readByte t.mem x = readByte s.mem x

/-- The registers as after reset (R50). -/
def RegsReset (t : State) : Prop :=
  t.phase = .idle ∧ ∀ r : Reg, readReg r t = if r = .id then idValue else 0#32

/-- Word addresses `a .. a + n − 1` were stored to and no other byte changed. -/
def OnlyStored (a n : Nat) (s t : State) : Prop :=
  ∀ x : Nat, x < 4 * a ∨ 4 * (a + n) ≤ x → readByte t.mem x = readByte s.mem x

/-- The command ends with error `c` and changes nothing but what R144 lists (and what R143 leaves open). -/
def Fails (i : Instr) (s : State) (c : ErrCode) : Prop :=
  ∃ t, exec i s = .next t ∧ Completed c t ∧ Results 0 0 0 t ∧ t.excCur = s.excCur ∧ ArgsKept s t

/-- The interval test of R58 on two regions `(a, n)` and `(c, m)`. -/
abbrev Shares (a n c m : Nat) : Prop := 0 < n ∧ 0 < m ∧ a < c + m ∧ c < a + n

/-- A region of BLK_ENC is not in range: `(SRC_ADDR, 128)`, `(DST_ADDR, 4·b)` or the exception sink (R57, R60, R122). -/
abbrev BlkEncBeyond (b : Nat) (s : State) : Prop :=
  s.params.memWords < s.srcAddr.toNat + 128 ∨ s.params.memWords < s.dstAddr.toNat + 4 * b ∨
  s.params.memWords < s.excAddr.toNat + s.excCur.toNat + (s.excEnd.toNat - s.excCur.toNat)

/-- A written region of BLK_ENC overlaps another of its regions: payload and source, sink and source, or payload and sink
(R58, R60, R122). -/
abbrev BlkEncShared (b : Nat) (s : State) : Prop :=
  Shares s.dstAddr.toNat (4 * b) s.srcAddr.toNat 128 ∨
  Shares (s.excAddr.toNat + s.excCur.toNat) (s.excEnd.toNat - s.excCur.toNat) s.srcAddr.toNat 128 ∨
  Shares s.dstAddr.toNat (4 * b) (s.excAddr.toNat + s.excCur.toNat) (s.excEnd.toNat - s.excCur.toNat)

/-- A region of BLK_DEC is not in range: `(SRC_ADDR, 4·b)`, the block's slice or `(DST_ADDR, 128)` (R57, R60, R123). -/
abbrev BlkDecBeyond (b : Nat) (s : State) : Prop :=
  s.params.memWords < s.srcAddr.toNat + 4 * b ∨
  s.params.memWords < s.excAddr.toNat + s.excCur.toNat + (s.excEnd.toNat - s.excCur.toNat) ∨
  s.params.memWords < s.dstAddr.toNat + 128

/-- The written region of BLK_DEC overlaps its payload or its slice (R58, R60, R123). -/
abbrev BlkDecShared (b : Nat) (s : State) : Prop :=
  Shares s.dstAddr.toNat 128 s.srcAddr.toNat (4 * b) ∨
  Shares s.dstAddr.toNat 128 (s.excAddr.toNat + s.excCur.toNat) (s.excEnd.toNat - s.excCur.toNat)

/-- A region of a frame command is not in range: `(SRC_ADDR, SRC_LEN)` or `(DST_ADDR, DST_CAP)` (R57, R60). -/
abbrev FrameBeyond (s : State) : Prop :=
  s.params.memWords < s.srcAddr.toNat + s.srcLen.toNat ∨ s.params.memWords < s.dstAddr.toNat + s.dstCap.toNat

/-- The written region of a frame command overlaps its source (R58, R60). -/
abbrev FrameShared (s : State) : Prop :=
  Shares s.dstAddr.toNat s.dstCap.toNat s.srcAddr.toNat s.srcLen.toNat

/-- A written region of the latched command and a region of a command with these regions share a word, or the other way
round (R58, R156). -/
def Interferes (reads writes : List Region) (s : State) : Prop :=
  ∃ a : Nat,
    (inRegions writes a = true ∧ inRegions (readRegions (latched s) s ++ writtenRegions (latched s) s) a = true) ∨
    (inRegions (writtenRegions (latched s) s) a = true ∧ inRegions (reads ++ writes) a = true)

/-- The sample values that would be exceptions at width `b` (R100): those of bit length over `b`. -/
def excess (sample : List Word) (b : Nat) : Nat := sample.countP fun v => decide (b < bitlen v)

/-- `cost(b)` over `0..32`, with `cost(32) = 32` (R103). -/
def widthCost (x : List Word) (sel : Word) (b : Nat) : Rat :=
  if b = 32 then 32 else cost (sampleSize x.length) (excess (sampleOf x sel) b) b

/-- The chain positions `c` of a block `v` at width `b`, and the block `P` handed to the packer (R116, R112): real
exceptions are exactly the values `≥ 2^b`, and a position that holds another value is compulsory. -/
structure Chain (v : List Word) (b : Nat) (c : List Nat) (P : List Word) : Prop where
  size : P.length = 128
  rising : c.Pairwise (fun i j => i < j)
  inside : ∀ k ∈ c, k < 128
  atMost : c.length ≤ 128
  everyReal : ∀ k, k < 128 → 2 ^ b ≤ (wordAt v k).toNat → k ∈ c
  firstReal : ∃ k, c.head? = some k ∧ 2 ^ b ≤ (wordAt v k).toNat
  lastReal : ∃ k, c.getLast? = some k ∧ 2 ^ b ≤ (wordAt v k).toNat ∧ (wordAt P k).toNat = (wordAt v k).toNat % 2 ^ b
  gap : ∀ i, i + 1 < c.length →
    (wordAt P (c.getD i 0)).toNat = c.getD (i + 1) 0 - c.getD i 0 - 1 ∧ c.getD (i + 1) 0 - c.getD i 0 - 1 < 2 ^ b
  compulsory : ∀ i, i + 1 < c.length → (wordAt v (c.getD (i + 1) 0)).toNat < 2 ^ b →
    c.getD (i + 1) 0 = c.getD i 0 + 2 ^ b
  others : ∀ k, k < 128 → k ∉ c → wordAt P k = wordAt v k ∧ (wordAt v k).toNat < 2 ^ b

/-- The block decoder's walk (R120): after `i` exceptions it stands at `cur` with the values `out`. The gap is read
before its slot is overwritten. -/
inductive ChainAt (excs : List Word) (first : Nat) (unpacked : List Word) : Nat → Nat → List Word → Prop where
  | start : ChainAt excs first unpacked 0 first unpacked
  | next {i cur : Nat} {out : List Word} (before : ChainAt excs first unpacked i cur out)
      (left : i < excs.length) (inside : cur < 128) :
      ChainAt excs first unpacked (i + 1) (cur + (wordAt out cur).toNat + 1) (out.set cur (wordAt excs i))

/-- The header of block `k` of a chunk frame at width `b` (R80). -/
def blockHeader (w : List Word) (b k : Nat) : Word := wordAt w (2 + k * (1 + 4 * b))

/-- The payload of block `k` of a chunk frame at width `b` (R80). -/
def blockPayload (w : List Word) (b k : Nat) : List Word :=
  slice w (3 + k * (1 + 4 * b)) (3 + k * (1 + 4 * b) + 4 * b)

/-- What `decompressBlock` answers for block `k`, its slice running from `cur` to its header's `end`, and its first offset
being 128 where the slice is empty, whatever `OFF` holds (R127, R128). -/
def blockAnswer (pk : PackFns) (w : List Word) (b T k cur : Nat) : Except ErrCode (List Word × Nat) :=
  decompressBlock pk (blockPayload w b k) b (slice w (T + cur) (T + headerEnd (blockHeader w b k)))
    (if headerEnd (blockHeader w b k) = cur then 128 else headerOff (blockHeader w b k))

/-- The checks of block `k` before it is decoded all pass (R127). -/
structure BlockSound (w : List Word) (b T k cur : Nat) : Prop where
  rising : cur ≤ headerEnd (blockHeader w b k)
  raw : b = 32 → headerEnd (blockHeader w b k) = cur
  inside : T + headerEnd (blockHeader w b k) ≤ w.length

/-- The chunk decoder's loop (R127): after `k` blocks the next slice starts at `cur` and the values are `vals`. -/
inductive BlocksAt (pk : PackFns) (w : List Word) (b T : Nat) : Nat → Nat → List Word → Prop where
  | start : BlocksAt pk w b T 0 0 []
  | next {k cur used : Nat} {vals blk : List Word} (before : BlocksAt pk w b T k cur vals)
      (sound : BlockSound w b T k cur) (decoded : blockAnswer pk w b T k cur = .ok (blk, used)) :
      BlocksAt pk w b T (k + 1) (headerEnd (blockHeader w b k)) (vals ++ blk)

/-- The array decoder's loop (R135) on the words `w`, whose first is `N`: after `n` chunks it stands at word `pos` with the
values `vals`. -/
inductive ChunksAt (pk : PackFns) (w : List Word) (N : Nat) : Nat → List Word → Nat → Prop where
  | start : ChunksAt pk w N 1 [] 0
  | next {pos n : Nat} {vals : List Word} {r : ChunkValues} (before : ChunksAt pk w N pos vals n)
      (owed : vals.length < N) (room : pos + 2 ≤ w.length) (some : 0 < (wordAt w pos).toNat)
      (fits : (wordAt w pos).toNat ≤ N - vals.length)
      (decoded : decodeChunk pk (w.drop pos) (N - vals.length) = .ok r) :
      ChunksAt pk w N (pos + r.used) (vals ++ r.vals) (n + 1)

/-- An event that stops nothing: a register access at or above `REG_BASE`, a data memory access below `MEM_WORDS`. -/
def EventOk (p : Params) : Event → Prop
  | .regRead addr _ => p.regBase ≤ addr
  | .regWrite addr _ _ => p.regBase ≤ addr
  | .memRead a => a < p.memWords
  | .memWrite a _ => a < p.memWords
  | .wait => True
  | .engine => True
  | .reset => True
  | .peer _ _ => True

end Sys2Proof.Machine
end

