-- ==== Sys2Proof/Certificates/Slice0/Obligations.lean ====
section
/-! DEFINITION. The statements for the provers, each citing the rules of spec/ it formalises. -/

open Sys2Proof Sys2Proof.Machine

/-! ### The command word -/

/-- R70, R85: command words of every row decode to their command; R73: reserved bits set change nothing. -/
def Obligations.DecodeCommandWords : Prop :=
  decode 0x00000001#32 = .estimate ∧ decode 0x00000302#32 = .blkEnc 3 ∧ decode 0x00000203#32 = .blkDec 2 ∧
  decode 0x00000004#32 = .chunkEnc ∧ decode 0x00000005#32 = .chunkDec ∧ decode 0x00000006#32 = .arrayEnc ∧
  decode 0x00000007#32 = .arrayDec ∧ decode 0x00000000#32 = .reservedOp0 ∧ decode 0x00000008#32 = .reservedOp8F 8 ∧
  decode 0xFFFFFFFF#32 = .reservedOp8F 15 ∧ decode 0x000000F1#32 = .estimate ∧ decode 0x00003F02#32 = .blkEnc 63

/-- R69, R70, R85: the decoder reads back every command the encoder writes, at every operand a command word holds. -/
def Obligations.DecodeEncode : Prop := ∀ i : Instr, i.wf = true → decode (encode i) = i

/-- R70, R72: every 32-bit word is a command of the row its bits 3:0 name, well formed, with its bits 13:8 as the block
commands' `B`. -/
def Obligations.DecodeTotal : Prop :=
  ∀ w : Word, (decode w).wf = true ∧ opOf (decode w) = w.toNat % 16 ∧
    (∀ b, decode w = .blkEnc b ∨ decode w = .blkDec b → b = w.toNat / 256 % 64)

/-- R73: reserved bits of the command word are ignored when written and read back as 0, and the word executes as the
same word with them clear. -/
def Obligations.ReservedBitsIgnored : Prop :=
  ∀ (w : Word) (s : State), s.phase = .idle →
    readReg .cmd (writeReg .cmd w s) = w &&& 0x00003F0F#32 ∧
    writeReg .cmd w s = writeReg .cmd (w &&& 0x00003F0F#32) s ∧
    decode (w &&& 0x00003F0F#32) = decode w

/-! ### Reset -/

/-- R50: after reset every register holds its reset value, and the memory is not reset. -/
def Obligations.ResetRegisters : Prop :=
  RegsReset State.reset ∧ State.reset.done = false ∧ State.reset.err = false ∧ State.reset.ign = false ∧
  State.reset.errCode = .noError ∧
  ∀ s : State, RegsReset (platformReset s) ∧ (s.phase = .idle → (platformReset s).mem = s.mem)

/-- R162: a reset while BUSY abandons the command: registers at their reset values, any value in its written regions,
every other word unchanged. That the value is a draw by a counter is the model's (log 7), and so is that the regions are
filled whatever the command would have done, as far as the memory reaches (log 8); so is the empty exception region where
`EXC_END < EXC_CUR` (log 22). -/
def Obligations.ResetWhileBusy : Prop :=
  ∀ s : State, s.phase = .busy →
    RegsReset (platformReset s) ∧
    KeptOutside (writtenRegions (latched s) s) s (platformReset s) ∧
    (∀ a : Nat, inRegions (writtenRegions (latched s) s) a = true → a < s.params.memWords →
      readWord s.params.endian (platformReset s).mem a = Config.freeMem s.draws a)

/-! ### The register block -/

/-- R27: `ID` reads 0x50464F52, and a write of it changes nothing, `STATUS.IGN` included. -/
def Obligations.IdHardwired : Prop :=
  ∀ (s : State) (v : Word), busRead 0x00 .word s = 0x50464F52#32 ∧ busWrite 0x00 .word v s = s

/-- R43: narrow and misaligned accesses and accesses at or beyond 0x3C read 0 and write nothing; reserved bits read 0
and are ignored on write. The model's choices: the window has no upper end (log 13), and such a write leaves `IGN` as it
was (log 14). -/
def Obligations.RegisterAccessRules : Prop :=
  ∀ (s : State) (v : Word),
    (∀ (off : Nat) (width : Width), width ≠ .word ∨ off % 4 ≠ 0 ∨ 0x3C ≤ off →
      busRead off width s = 0#32 ∧ busWrite off width v s = s) ∧
    statusWord s &&& 0xFFFFF0F0#32 = 0#32 ∧
    writeReg .status v s = writeReg .status (v &&& 0x0000000E#32) s ∧
    writeReg .cmd v s = writeReg .cmd (v &&& 0x00003F0F#32) s

/-- R26, R28, R31 to R40: which register stands at which offset, read in either phase and written while IDLE; while IDLE
a write of a register other than `CMD` and `STATUS` that the host may write is read back at its offset, and no other
register changes; writes of `ID` and of the results change nothing in either phase. -/
def Obligations.RegisterReadBack : Prop :=
  ∀ (r : Reg) (v : Word) (s : State),
    (busRead 0x04 .word s = s.cmd ∧ busRead 0x0C .word s = s.srcAddr ∧ busRead 0x10 .word s = s.srcLen ∧
      busRead 0x14 .word s = s.dstAddr ∧ busRead 0x18 .word s = s.dstCap ∧ busRead 0x1C .word s = s.excAddr ∧
      busRead 0x20 .word s = s.excCur ∧ busRead 0x24 .word s = s.excEnd ∧ busRead 0x28 .word s = s.first ∧
      busRead 0x2C .word s = s.sampleSel ∧ busRead 0x30 .word s = s.result0 ∧ busRead 0x34 .word s = s.result1 ∧
      busRead 0x38 .word s = s.result2) ∧
    (s.phase = .idle →
      busWrite 0x0C .word v s = { s with srcAddr := v } ∧ busWrite 0x10 .word v s = { s with srcLen := v } ∧
      busWrite 0x14 .word v s = { s with dstAddr := v } ∧ busWrite 0x18 .word v s = { s with dstCap := v } ∧
      busWrite 0x1C .word v s = { s with excAddr := v } ∧ busWrite 0x20 .word v s = { s with excCur := v } ∧
      busWrite 0x24 .word v s = { s with excEnd := v } ∧ busWrite 0x28 .word v s = { s with first := v } ∧
      busWrite 0x2C .word v s = { s with sampleSel := v }) ∧
    (s.phase = .idle → r ∉ [Reg.id, Reg.cmd, Reg.status, Reg.result0, Reg.result1, Reg.result2] →
      busRead (regOffset r) .word (busWrite (regOffset r) .word v s) = v ∧
      ∀ q : Reg, q ≠ r → busRead (regOffset q) .word (busWrite (regOffset r) .word v s) = busRead (regOffset q) .word s) ∧
    (r ∈ [Reg.id, Reg.result0, Reg.result1, Reg.result2] → busWrite (regOffset r) .word v s = s)

/-- R26, R29, R140: `STATUS` stands at 0x08; its fields, the numbers of the error codes, and what a host write of it does,
in either phase. -/
def Obligations.StatusFields : Prop :=
  (errNumber .noError = 0 ∧ errNumber .illegalOp = 1 ∧ errNumber .invalidArg = 2 ∧ errNumber .invalidLength = 3 ∧
    errNumber .accessFault = 4 ∧ errNumber .overlap = 5 ∧ errNumber .outputOverflow = 6 ∧
    errNumber .malTruncated = 7 ∧ errNumber .malLength = 8 ∧ errNumber .malWidth = 9 ∧ errNumber .malHeader = 10 ∧
    errNumber .malChain = 11) ∧
  ∀ (s : State) (v : Word),
    (readReg .status s).getLsbD 0 = decide (s.phase = .busy) ∧
    (readReg .status s).getLsbD 1 = s.done ∧
    (readReg .status s).getLsbD 2 = s.err ∧
    (readReg .status s).getLsbD 3 = s.ign ∧
    (readReg .status s).extractLsb' 4 4 = 0#4 ∧
    ((readReg .status s).extractLsb' 8 4).toNat = errNumber s.errCode ∧
    (readReg .status s).extractLsb' 12 20 = 0#20 ∧
    busRead 0x08 .word s = readReg .status s ∧
    busWrite 0x08 .word v s =
      { s with
        done := if v.getLsbD 1 then false else s.done
        err := if v.getLsbD 2 then false else s.err
        errCode := if v.getLsbD 2 then .noError else s.errCode
        ign := if v.getLsbD 3 then false else s.ign } ∧
    writeReg .status v s = busWrite 0x08 .word v s

/-- R47: the issue of a command. The mark `raced`, which it clears, is the model's own (log 10). -/
def Obligations.Issue : Prop :=
  ∀ (v : Word) (s : State), s.phase = .idle →
    busWrite 0x04 .word v s =
      { s with
        cmd := v &&& 0x00003F0F#32
        done := false
        err := false
        errCode := .noError
        phase := .busy
        raced := false } ∧
    (busRead 0x08 .word (busWrite 0x04 .word v s)).getLsbD 0 = true

/-- R48: a host write of `CMD` or another RW register while BUSY changes only `STATUS.IGN`. -/
def Obligations.BusyWriteIgnored : Prop :=
  ∀ (r : Reg) (v : Word) (s : State), s.phase = .busy →
    r ∉ [Reg.id, Reg.status, Reg.result0, Reg.result1, Reg.result2] →
    busWrite (regOffset r) .word v s = { s with ign := true }

/-! ### Invariants -/

/-- R30: every step keeps the invariants of `STATUS`. -/
def Obligations.StatusInvariants : Prop :=
  ∀ s t : State, StatusInv s → step s = .next t → StatusInv t

/-- R13, R28, R30, R41, R51: every step keeps the invariant of the machine; the memory's canonical form is the model's
(log 3), and so is the mark of a raced command (log 10). -/
def Obligations.StepKeepsInv : Prop := ∀ s t : State, MachineInv s → step s = .next t → MachineInv t

/-- The invariant holds after reset; the parameters (log 1), the memory (log 3) and the scratch state (log 11) of
`State.reset` are the model's choices. -/
def Obligations.ResetInv : Prop := MachineInv State.reset

/-! ### Memory and regions -/

/-- R51, R63, R67, R156, R167: the next state of every host read and write of a memory word that exists. A write stores its word
and changes no other, in either phase; while BUSY it also makes the command's outcome free where it hits a region of the
running command, and a read of a written region returns a free word. What the host read is kept in `reads` (log 6); the
free read is log 9, the mark `raced` log 10, and the empty exception region log 22. A command of another instance makes the
outcomes of both free, this one's by that mark and its own words at once, exactly where both run and a written region of
one shares a word with a region of the other (log 17). -/
def Obligations.HostMemory : Prop :=
  (∀ (s : State) (a : Nat) (v : Word), a < s.params.memWords →
    (∀ c, readWord s.params.endian (memWrite s.params.endian s.mem a [v]) c =
      if c = a then v else readWord s.params.endian s.mem c) ∧
    (s.phase = .idle →
      hostMemWrite a v s = .next { s with mem := memWrite s.params.endian s.mem a [v] } ∧
      hostMemRead a s = .next { s with reads := s.reads ++ [readWord s.params.endian s.mem a] }) ∧
    (s.phase = .busy →
      (inRegions (writtenRegions (latched s) s) a = true →
        hostMemRead a s = .next { s with reads := s.reads ++ [Config.freeMem s.draws a], draws := s.draws + 1 }) ∧
      (inRegions (writtenRegions (latched s) s) a = false →
        hostMemRead a s = .next { s with reads := s.reads ++ [readWord s.params.endian s.mem a] }) ∧
      (inRegions (readRegions (latched s) s ++ writtenRegions (latched s) s) a = true →
        hostMemWrite a v s = .next { s with mem := memWrite s.params.endian s.mem a [v], raced := true }) ∧
      (inRegions (readRegions (latched s) s ++ writtenRegions (latched s) s) a = false →
        hostMemWrite a v s = .next { s with mem := memWrite s.params.endian s.mem a [v] }))) ∧
  ∀ (s : State) (rd wr : List Region),
    (s.phase = .idle ∨ ¬ Interferes rd wr s → peerRuns rd wr s = s) ∧
    (s.phase = .busy → Interferes rd wr s →
      ∃ t, peerRuns rd wr s = t ∧ t = { s with mem := t.mem, raced := true, draws := s.draws + 1 } ∧
        KeptOutside wr s t ∧
        ∀ a : Nat, inRegions wr a = true → a < s.params.memWords →
          readWord s.params.endian t.mem a = Config.freeMem s.draws a)

/-- R58: two regions overlap exactly when they share an address. -/
def Obligations.OverlapIsSharing : Prop :=
  ∀ r q : Region, overlaps r q = true ↔ ∃ a : Nat, inRegion r a = true ∧ inRegion q a = true

/-! ### Primitives -/

/-- R86: the bit length of a value. -/
def Obligations.BitLength : Prop :=
  (∀ v : Word,
    bitlen v ≤ 32 ∧ v.toNat < 2 ^ bitlen v ∧ (∀ k, v.toNat < 2 ^ k → bitlen v ≤ k) ∧
    (v ≠ 0#32 → v.getLsbD (bitlen v - 1) = true ∧ ∀ j, bitlen v ≤ j → v.getLsbD j = false) ∧
    (∀ b, b ≤ 32 → (2 ^ b ≤ v.toNat ↔ b < bitlen v))) ∧
  bitlen 0#32 = 0 ∧ bitlen 1#32 = 1 ∧ bitlen 0x80000000#32 = 32 ∧ bitlen 0xFFFFFFFF#32 = 32 ∧
  bitlen 5#32 = 3 ∧ bitlen 4000000000#32 = 32

/-- R88, R93: every packer the parameter `PACK` can name (log 2) meets the packer contract. -/
def Obligations.PackersMeetContract : Prop := ∀ p : Packer, (packFns p).Contract

/-- R88, R90: the packers the parameter can name (log 2) leave none out: on in-range blocks, a packer that meets the contract is
the reference packer followed by a bijection of the payloads. -/
def Obligations.PackersCovered : Prop :=
  ∀ pk : PackFns, pk.Contract → ∀ b, b ≤ 31 →
    ∃ σ : Equiv.Perm (Fin (4 * b) → Word), ∀ P : List Word, P.length = 128 → (∀ v ∈ P, v.toNat < 2 ^ b) →
      pk.pack P b = List.ofFn (σ fun i => wordAt (packRef P b) i)

/-- R92: the bits of the reference payload. -/
def Obligations.PackRefBits : Prop :=
  ∀ (P : List Word) (b : Nat), P.length = 128 → b ≤ 32 →
    (packRef P b).length = bw b ∧
    (∀ p j t, p < 4 → j < 32 → t < b →
      (wordAt (packRef P b) (p * b + (j * b + t) / 32)).getLsbD ((j * b + t) % 32) =
        (wordAt P (32 * p + j)).getLsbD t) ∧
    (b = 32 → packRef P b = P)

/-- R93: the bits of the values unpacked from a reference payload. -/
def Obligations.UnpackRefBits : Prop :=
  ∀ (w : List Word) (b : Nat), b ≤ 32 → w.length = bw b →
    (unpackRef w b).length = 128 ∧
    ∀ p j, p < 4 → j < 32 →
      (∀ t, t < b → (wordAt (unpackRef w b) (32 * p + j)).getLsbD t =
        (wordAt w (p * b + (j * b + t) / 32)).getLsbD ((j * b + t) % 32)) ∧
      (wordAt (unpackRef w b) (32 * p + j)).toNat < 2 ^ b

/-! ### The estimator -/

/-- R98: the sample window. -/
def Obligations.SampleWindow : Prop :=
  (∀ (x : List Word) (sel : Word),
    sampleSize x.length = min x.length 65536 ∧
    (sampleOf x sel).length = min x.length 65536 ∧
    (x.length ≤ 65536 → sampleStart x.length sel = 0 ∧ sampleOf x sel = x) ∧
    (65536 < x.length →
      sampleStart x.length sel = sel.toNat % (x.length - 65536 + 1) ∧
      sampleStart x.length sel ≤ x.length - 65536 ∧
      ∀ i, i < 65536 → wordAt (sampleOf x sel) i = wordAt x (sampleStart x.length sel + i))) ∧
  sampleStart 131072 65537#32 = 0

/-- R104: the integer forms of the compensation and of the cost. -/
def Obligations.CostIntegerForms : Prop :=
  ∀ S e b : Nat, 0 < S → 0 < e →
    altRate ((e : Rat) / S) b = (128 * (e : Rat) - S) / (e * 2 ^ b) ∧
    ((e : Rat) / S < altRate ((e : Rat) / S) b ↔ ((e : Int) ^ 2 * 2 ^ b < S * (128 * e - S))) ∧
    (¬ ((e : Int) ^ 2 * 2 ^ b < S * (128 * e - S)) → cost S e b = b + 32 * e / S) ∧
    ((e : Int) ^ 2 * 2 ^ b < S * (128 * e - S) → cost S e b = b + 32 * (128 * e - S) / (e * 2 ^ b))

/-- R100, R103: the estimator returns the smallest width of least cost, `cost(32)` being 32; 0 for no values. -/
def Obligations.EstimateLeastCost : Prop :=
  (∀ sel : Word, estimate [] sel = 0) ∧
  ∀ (x : List Word) (sel : Word), x ≠ [] →
    estimate x sel ≤ 32 ∧
    ∀ b, b ≤ 32 →
      widthCost x sel (estimate x sel) ≤ widthCost x sel b ∧
      (widthCost x sel b = widthCost x sel (estimate x sel) → estimate x sel ≤ b)

/-- R105: a sample whose values all need exactly `k` bits gets width `k`. -/
def Obligations.WidthMonotonicity : Prop :=
  ∀ (x : List Word) (sel : Word) (k : Nat), x ≠ [] → (∀ v ∈ sampleOf x sel, bitlen v = k) → estimate x sel = k

/-! ### The gap chain -/

/-- R108, R110: at width 32, and where no value is `≥ 2^b`, the block has no exceptions. -/
def Obligations.CompressNoExceptions : Prop :=
  ∀ (pk : PackFns) (v : List Word), v.length = 128 →
    compressBlock pk v 32 = { words := v, first := 128, excs := [] } ∧
    ∀ b, b < 32 → (∀ x ∈ v, x.toNat < 2 ^ b) → compressBlock pk v b = { words := pk.pack v b, first := 128, excs := [] }

/-- R109 to R116: the chain of a block with exceptions: its first position, the exceptions in chain order, and the block
handed to the packer. -/
def Obligations.CompressChain : Prop :=
  ∀ (pk : PackFns) (v : List Word) (b : Nat), v.length = 128 → b < 32 →
    (∃ k, k < 128 ∧ 2 ^ b ≤ (wordAt v k).toNat) →
    ∃ (c : List Nat) (P : List Word), Chain v b c P ∧
      (compressBlock pk v b).first = c.headD 128 ∧
      (compressBlock pk v b).excs = c.map (wordAt v) ∧
      (compressBlock pk v b).words = pk.pack P b

/-- R118 to R121: the decoder's walk, for every chain, also one the encoder would not make: it ends where the slice does,
and raises MAL_CHAIN exactly where it stands at or beyond 128 with exceptions left; what it consumes; and a slice too long
for the block. -/
def Obligations.DecompressConsumes : Prop :=
  ∀ (pk : PackFns) (w excs : List Word) (b first : Nat), pk.Contract → b ≤ 32 → w.length = bw b → first ≤ 128 →
    (first = 128 → decompressBlock pk w b excs first = .ok (pk.unpack w b, 0)) ∧
    (first < 128 → 128 - first < excs.length → decompressBlock pk w b excs first = .error .malChain) ∧
    (∀ out used, first < 128 → decompressBlock pk w b excs first = .ok (out, used) →
      out.length = 128 ∧ used = excs.length ∧ (0 < used → wordAt out first = wordAt excs 0)) ∧
    (∀ c, decompressBlock pk w b excs first = .error c → c = .malChain) ∧
    (∀ i cur out, first < 128 → ChainAt excs first (pk.unpack w b) i cur out →
      (i = excs.length → decompressBlock pk w b excs first = .ok (out, excs.length)) ∧
      (i < excs.length → 128 ≤ cur → decompressBlock pk w b excs first = .error .malChain))

/-- R124: the block round trip, for every packer that meets the contract. -/
def Obligations.BlockRoundTrip : Prop :=
  ∀ (pk : PackFns), pk.Contract → ∀ (v : List Word) (b : Nat), v.length = 128 → b ≤ 32 →
    decompressBlock pk (compressBlock pk v b).words b (compressBlock pk v b).excs (compressBlock pk v b).first =
      .ok (v, (compressBlock pk v b).excs.length)

/-! ### The chunk frame -/

/-- R77 to R79: a header holds the offset and the count, and gives both back. -/
def Obligations.HeaderFields : Prop :=
  (∀ first count : Nat, first ≤ 128 → count ≤ 2 ^ 24 →
    headerOff (headerWord first count) = first % 128 ∧ headerEnd (headerWord first count) = count ∧
    (headerWord first count).toNat = first % 128 + count * 2 ^ 7) ∧
  headerWord 10 1 = 0x0000008A#32

/-- R81, R125, R131: the size of a chunk frame and the bound on it. -/
def Obligations.ChunkFrameSize : Prop :=
  ∀ (pk : PackFns) (x : List Word) (sel : Word), pk.Contract → x.length % 128 = 0 → x.length ≤ 2 ^ 24 →
    (encodeChunk pk x sel).width = estimate x sel ∧
    (encodeChunk pk x sel).out.length = frameWords x.length (estimate x sel) (encodeChunk pk x sel).excCount ∧
    (encodeChunk pk x sel).excCount ≤ x.length ∧
    (encodeChunk pk x sel).out.length ≤ 2 + x.length / 128 + 2 * x.length

/-- R80, R125, R126: where the words of a chunk frame stand. -/
def Obligations.ChunkFrameLayout : Prop :=
  ∀ (pk : PackFns) (x : List Word) (sel : Word), pk.Contract → x.length % 128 = 0 → x.length ≤ 2 ^ 24 →
    let f := encodeChunk pk x sel
    let block := fun k => compressBlock pk (slice x (128 * k) (128 * k + 128)) f.width
    wordAt f.out 0 = toReg x.length ∧ wordAt f.out 1 = toReg f.width ∧
    (∀ k, k < x.length / 128 →
      wordAt f.out (2 + k * (1 + bw f.width)) =
        headerWord (block k).first (((List.range (k + 1)).map fun j => (block j).excs.length).sum) ∧
      slice f.out (3 + k * (1 + bw f.width)) (3 + k * (1 + bw f.width) + bw f.width) = (block k).words) ∧
    f.out.drop (tailStart (x.length / 128) f.width) = (List.range (x.length / 128)).flatMap fun k => (block k).excs

/-- R129: a width-32 chunk with a header whose slice is not empty is MAL_HEADER, in the chunk decoder and block by block;
the encoder makes none, and stores a block raw at that width. -/
def Obligations.Width32NoExceptions : Prop :=
  (∀ (pk : PackFns) (w : List Word) (avail L : Nat), (wordAt w 0).toNat = L → (wordAt w 1).toNat = 32 →
    L % 128 = 0 → L ≤ 2 ^ 24 → L ≤ avail → 2 + L / 128 * 129 ≤ w.length →
    (∃ k, k < L / 128 ∧
      headerEnd (blockHeader w 32 k) ≠ (if k = 0 then 0 else headerEnd (blockHeader w 32 (k - 1)))) →
    decodeChunk pk w avail = .error .malHeader) ∧
  (∀ (pk : PackFns) (x : List Word), (encodeChunkAt pk x 32).excCount = 0) ∧
  (∀ (pk : PackFns) (w : List Word) (T k cur : Nat), headerEnd (wordAt w (2 + k * (1 + bw 32))) ≠ cur →
    decodeBlock pk w 32 T k cur = .error .malHeader) ∧
  ∀ (pk : PackFns) (v : List Word), (compressBlock pk v 32).words = v ∧ (compressBlock pk v 32).excs = []

/-- R130: the chunk round trip, with any words after the frame. -/
def Obligations.ChunkRoundTrip : Prop :=
  ∀ (pk : PackFns), pk.Contract → ∀ (x rest : List Word) (sel : Word) (avail : Nat),
    x.length % 128 = 0 → x.length ≤ 2 ^ 24 → x.length ≤ avail →
    decodeChunk pk ((encodeChunk pk x sel).out ++ rest) avail =
      .ok { vals := x, used := (encodeChunk pk x sel).out.length, width := (encodeChunk pk x sel).width }

/-! ### The array frame -/

/-- R133, R134, R136: an array frame is the length followed by the frames of the greedy chunks in order; its chunks, its
exceptions and its size; the empty array. -/
def Obligations.ArrayFrameCounts : Prop :=
  (∀ (pk : PackFns) (sel : Word), encodeArray pk [] sel = { out := [0#32], chunks := 0, excCount := 0 }) ∧
  ∀ (pk : PackFns) (x : List Word) (sel : Word), pk.Contract → x.length % 128 = 0 → x.length < 2 ^ 32 →
    (encodeArray pk x sel).chunks = (x.length + (2 ^ 24 - 1)) / 2 ^ 24 ∧
    ((encodeArray pk x sel).out = toReg x.length ::
      (List.range ((x.length + (2 ^ 24 - 1)) / 2 ^ 24)).flatMap fun k =>
        (encodeChunk pk (slice x (2 ^ 24 * k) (2 ^ 24 * k + min (x.length - 2 ^ 24 * k) (2 ^ 24))) sel).out) ∧
    (encodeArray pk x sel).excCount =
      ((List.range ((x.length + (2 ^ 24 - 1)) / 2 ^ 24)).map fun k =>
        (encodeChunk pk (slice x (2 ^ 24 * k) (2 ^ 24 * k + min (x.length - 2 ^ 24 * k) (2 ^ 24))) sel).excCount).sum ∧
    (encodeArray pk x sel).excCount ≤ x.length ∧
    (encodeArray pk x sel).out.length ≤
      1 + 2 * ((x.length + (2 ^ 24 - 1)) / 2 ^ 24) + x.length / 128 + 2 * x.length ∧
    (0 < x.length → x.length ≤ 2 ^ 24 →
      (encodeArray pk x sel).out = toReg x.length :: (encodeChunk pk x sel).out)

/-- R138: chunk boundaries are transparent: the array round trip, for every packer that meets the contract. -/
def Obligations.ArrayRoundTrip : Prop :=
  ∀ (pk : PackFns), pk.Contract → ∀ (x rest : List Word) (sel : Word) (cap : Nat),
    x.length % 128 = 0 → x.length < 2 ^ 32 → x.length ≤ cap →
    decodeArray pk ((encodeArray pk x sel).out ++ rest) cap =
      .ok { vals := x, used := (encodeArray pk x sel).out.length, chunks := (x.length + (2 ^ 24 - 1)) / 2 ^ 24 }

/-! ### The commands, where they complete -/

/-- R106: ESTIMATE. -/
def Obligations.EstimateCompletes : Prop :=
  ∀ s : State, s.raced = false → s.srcAddr.toNat + s.srcLen.toNat ≤ s.params.memWords →
    ∃ t, exec .estimate s = .next t ∧ Completed .noError t ∧
      Results (estimate (srcWords s) s.sampleSel) (min s.srcLen.toNat 65536)
        (if 65536 < s.srcLen.toNat then s.sampleSel.toNat % (s.srcLen.toNat - 65536 + 1) else 0) t ∧
      t.excCur = s.excCur ∧ ArgsKept s t ∧ t.mem = s.mem

/-- R122: BLK_ENC. -/
def Obligations.BlkEncCompletes : Prop :=
  ∀ (b : Nat) (s : State), s.raced = false → b ≤ 32 → s.excCur.toNat ≤ s.excEnd.toNat →
    inRange s.params (regionAt s.srcAddr 128) = true → inRange s.params (regionAt s.dstAddr (bw b)) = true →
    inRange s.params (excRegion s) = true →
    overlaps (regionAt s.dstAddr (bw b)) (regionAt s.srcAddr 128) = false →
    overlaps (excRegion s) (regionAt s.srcAddr 128) = false →
    overlaps (regionAt s.dstAddr (bw b)) (excRegion s) = false →
    (blkEncResult b s).excs.length ≤ s.excEnd.toNat - s.excCur.toNat →
    ∃ t, exec (.blkEnc b) s = .next t ∧ Completed .noError t ∧
      Results (blkEncResult b s).first (blkEncResult b s).excs.length (4 * b) t ∧
      t.excCur.toNat = s.excCur.toNat + (blkEncResult b s).excs.length ∧ ArgsKept s t ∧
      (blkEncResult b s).words.length = 4 * b ∧
      Holds t s.dstAddr.toNat (blkEncResult b s).words ∧
      Holds t (s.excAddr.toNat + s.excCur.toNat) (blkEncResult b s).excs ∧
      ∀ x : Nat, (x < 4 * s.dstAddr.toNat ∨ 4 * (s.dstAddr.toNat + 4 * b) ≤ x) →
        (x < 4 * (s.excAddr.toNat + s.excCur.toNat) ∨
          4 * (s.excAddr.toNat + s.excCur.toNat + (blkEncResult b s).excs.length) ≤ x) →
        readByte t.mem x = readByte s.mem x

/-- R123: BLK_DEC. -/
def Obligations.BlkDecCompletes : Prop :=
  ∀ (b : Nat) (s : State) (out : List Word) (used : Nat), s.raced = false → b ≤ 32 → s.first.toNat ≤ 128 →
    s.excCur.toNat ≤ s.excEnd.toNat →
    inRange s.params (regionAt s.srcAddr (bw b)) = true → inRange s.params (excRegion s) = true →
    inRange s.params (regionAt s.dstAddr 128) = true →
    overlaps (regionAt s.dstAddr 128) (regionAt s.srcAddr (bw b)) = false →
    overlaps (regionAt s.dstAddr 128) (excRegion s) = false →
    blkDecResult b s = .ok (out, used) →
    ∃ t, exec (.blkDec b) s = .next t ∧ Completed .noError t ∧ Results used 0 0 t ∧
      used = (if s.first.toNat = 128 then 0 else s.excEnd.toNat - s.excCur.toNat) ∧
      t.excCur.toNat = s.excCur.toNat + used ∧ ArgsKept s t ∧
      out.length = 128 ∧ Holds t s.dstAddr.toNat out ∧ OnlyStored s.dstAddr.toNat 128 s t

/-- R131: CHUNK_ENC. -/
def Obligations.ChunkEncCompletes : Prop :=
  ∀ s : State, s.raced = false → s.srcLen.toNat % 128 = 0 → s.srcLen.toNat ≤ 2 ^ 24 →
    inRange s.params (srcRegion s) = true → inRange s.params (dstRegion s) = true →
    overlaps (dstRegion s) (srcRegion s) = false → (chunkEncResult s).out.length ≤ s.dstCap.toNat →
    ∃ t, exec .chunkEnc s = .next t ∧ Completed .noError t ∧
      Results (chunkEncResult s).out.length (estimate (srcWords s) s.sampleSel) (chunkEncResult s).excCount t ∧
      t.excCur = s.excCur ∧ ArgsKept s t ∧ Holds t s.dstAddr.toNat (chunkEncResult s).out ∧
      OnlyStored s.dstAddr.toNat (chunkEncResult s).out.length s t

/-- R132: CHUNK_DEC. -/
def Obligations.ChunkDecCompletes : Prop :=
  ∀ (s : State) (r : ChunkValues), s.raced = false →
    inRange s.params (srcRegion s) = true → inRange s.params (dstRegion s) = true →
    overlaps (dstRegion s) (srcRegion s) = false → chunkDecResult s = .ok r →
    ∃ t, exec .chunkDec s = .next t ∧ Completed .noError t ∧ Results r.used r.vals.length r.width t ∧
      t.excCur = s.excCur ∧ ArgsKept s t ∧ r.vals.length ≤ s.dstCap.toNat ∧
      Holds t s.dstAddr.toNat r.vals ∧ OnlyStored s.dstAddr.toNat r.vals.length s t

/-- R136: ARRAY_ENC. -/
def Obligations.ArrayEncCompletes : Prop :=
  ∀ s : State, s.raced = false → s.srcLen.toNat % 128 = 0 →
    inRange s.params (srcRegion s) = true → inRange s.params (dstRegion s) = true →
    overlaps (dstRegion s) (srcRegion s) = false → (arrayEncResult s).out.length ≤ s.dstCap.toNat →
    ∃ t, exec .arrayEnc s = .next t ∧ Completed .noError t ∧
      Results (arrayEncResult s).out.length ((s.srcLen.toNat + (2 ^ 24 - 1)) / 2 ^ 24) (arrayEncResult s).excCount t ∧
      t.excCur = s.excCur ∧ ArgsKept s t ∧ Holds t s.dstAddr.toNat (arrayEncResult s).out ∧
      OnlyStored s.dstAddr.toNat (arrayEncResult s).out.length s t

/-- R137: ARRAY_DEC. -/
def Obligations.ArrayDecCompletes : Prop :=
  ∀ (s : State) (r : ArrayValues), s.raced = false →
    inRange s.params (srcRegion s) = true → inRange s.params (dstRegion s) = true →
    overlaps (dstRegion s) (srcRegion s) = false → arrayDecResult s = .ok r →
    ∃ t, exec .arrayDec s = .next t ∧ Completed .noError t ∧ Results r.used r.vals.length r.chunks t ∧
      t.excCur = s.excCur ∧ ArgsKept s t ∧
      r.vals.length = (readWord s.params.endian s.mem s.srcAddr.toNat).toNat ∧
      Holds t s.dstAddr.toNat r.vals ∧ OnlyStored s.dstAddr.toNat r.vals.length s t

/-- R71, R148: a reserved selector completes with ILLEGAL_OP and changes nothing but `STATUS` and the results. -/
def Obligations.ReservedCompletes : Prop :=
  ∀ (s : State) (op : Nat),
    (∃ t, exec .reservedOp0 s = .next t ∧ Completed .illegalOp t ∧ Results 0 0 0 t ∧ t.excCur = s.excCur ∧
      ArgsKept s t ∧ t.mem = s.mem) ∧
    (∃ t, exec (.reservedOp8F op) s = .next t ∧ Completed .illegalOp t ∧ Results 0 0 0 t ∧ t.excCur = s.excCur ∧
      ArgsKept s t ∧ t.mem = s.mem)

/-! ### The commands, where they end in an error -/

/-- R57, R58, R60, R122, R123, R146: the checks of the block commands in order, on the registers, where the host did not
race with them (R171, log 10). -/
def Obligations.BlkCheckOrder : Prop :=
  ∀ (b : Nat) (s : State), s.raced = false →
    (32 < b → Fails (.blkEnc b) s .invalidArg ∧ Fails (.blkDec b) s .invalidArg) ∧
    (b ≤ 32 → s.excEnd.toNat < s.excCur.toNat → Fails (.blkEnc b) s .invalidArg ∧ Fails (.blkDec b) s .invalidArg) ∧
    (b ≤ 32 → 128 < s.first.toNat → Fails (.blkDec b) s .invalidArg) ∧
    (b ≤ 32 → s.excCur.toNat ≤ s.excEnd.toNat →
      (BlkEncBeyond b s → Fails (.blkEnc b) s .accessFault) ∧
      (¬ BlkEncBeyond b s → BlkEncShared b s → Fails (.blkEnc b) s .overlap) ∧
      (¬ BlkEncBeyond b s → ¬ BlkEncShared b s →
        s.excEnd.toNat - s.excCur.toNat < (blkEncResult b s).excs.length → Fails (.blkEnc b) s .outputOverflow)) ∧
    (b ≤ 32 → s.excCur.toNat ≤ s.excEnd.toNat → s.first.toNat ≤ 128 →
      (BlkDecBeyond b s → Fails (.blkDec b) s .accessFault) ∧
      (¬ BlkDecBeyond b s → BlkDecShared b s → Fails (.blkDec b) s .overlap) ∧
      (∀ c, ¬ BlkDecBeyond b s → ¬ BlkDecShared b s → blkDecResult b s = .error c →
        c = .malChain ∧ Fails (.blkDec b) s .malChain))

/-- R57, R58, R60, R135, R146: the checks of ESTIMATE and of the frame commands in order, on the registers, where the host
did not race with them (R171, log 10); for ARRAY_DEC each check of R135, wherever its loop stands. -/
def Obligations.FrameCheckOrder : Prop :=
  ∀ s : State, s.raced = false →
    (s.params.memWords < s.srcAddr.toNat + s.srcLen.toNat → Fails .estimate s .accessFault) ∧
    (s.srcLen.toNat % 128 ≠ 0 → Fails .chunkEnc s .invalidLength ∧ Fails .arrayEnc s .invalidLength) ∧
    (2 ^ 24 < s.srcLen.toNat → Fails .chunkEnc s .invalidLength) ∧
    (s.srcLen.toNat % 128 = 0 → s.srcLen.toNat ≤ 2 ^ 24 →
      (FrameBeyond s → Fails .chunkEnc s .accessFault) ∧
      (¬ FrameBeyond s → FrameShared s → Fails .chunkEnc s .overlap) ∧
      (¬ FrameBeyond s → ¬ FrameShared s →
        s.dstCap.toNat < (chunkEncResult s).out.length → Fails .chunkEnc s .outputOverflow)) ∧
    (s.srcLen.toNat % 128 = 0 →
      (FrameBeyond s → Fails .arrayEnc s .accessFault) ∧
      (¬ FrameBeyond s → FrameShared s → Fails .arrayEnc s .overlap) ∧
      (¬ FrameBeyond s → ¬ FrameShared s →
        s.dstCap.toNat < (arrayEncResult s).out.length → Fails .arrayEnc s .outputOverflow)) ∧
    (FrameBeyond s → Fails .chunkDec s .accessFault ∧ Fails .arrayDec s .accessFault) ∧
    (¬ FrameBeyond s → FrameShared s → Fails .chunkDec s .overlap ∧ Fails .arrayDec s .overlap) ∧
    (∀ c, ¬ FrameBeyond s → ¬ FrameShared s →
      (chunkDecResult s = .error c → Fails .chunkDec s c) ∧ (arrayDecResult s = .error c → Fails .arrayDec s c)) ∧
    (¬ FrameBeyond s → ¬ FrameShared s →
      (s.srcLen.toNat < 1 → Fails .arrayDec s .malTruncated) ∧
      (∀ N, 1 ≤ s.srcLen.toNat → (wordAt (srcWords s) 0).toNat = N →
        (s.dstCap.toNat < N → Fails .arrayDec s .outputOverflow) ∧
        (∀ pos vals n, N ≤ s.dstCap.toNat → ChunksAt (packer s) (srcWords s) N pos vals n →
          (vals.length = N → arrayDecResult s = .ok { vals := vals, used := pos, chunks := n }) ∧
          (vals.length < N →
            (s.srcLen.toNat < pos + 2 → Fails .arrayDec s .malTruncated) ∧
            (pos + 2 ≤ s.srcLen.toNat →
              ((wordAt (srcWords s) pos).toNat = 0 ∨ N - vals.length < (wordAt (srcWords s) pos).toNat →
                Fails .arrayDec s .malLength) ∧
              (∀ c, 0 < (wordAt (srcWords s) pos).toNat → (wordAt (srcWords s) pos).toNat ≤ N - vals.length →
                decodeChunk (packer s) ((srcWords s).drop pos) (N - vals.length) = .error c →
                Fails .arrayDec s c))))))

/-- R127, R128: the checks of the chunk decoder, in order: those before its blocks, and those of each block, wherever its
loop stands; the first that fails gives the code. A block whose slice is empty is unpacked only, whatever `OFF` holds. -/
def Obligations.ChunkDecodeChecks : Prop :=
  ∀ (pk : PackFns) (w : List Word) (avail : Nat),
    (w.length < 2 → decodeChunk pk w avail = .error .malTruncated) ∧
    (∀ L b, 2 ≤ w.length → (wordAt w 0).toNat = L → (wordAt w 1).toNat = b →
      (L % 128 ≠ 0 ∨ 2 ^ 24 < L → decodeChunk pk w avail = .error .malLength) ∧
      (L % 128 = 0 → L ≤ 2 ^ 24 →
        (32 < b → decodeChunk pk w avail = .error .malWidth) ∧
        (b ≤ 32 → avail < L → decodeChunk pk w avail = .error .outputOverflow) ∧
        (b ≤ 32 → L ≤ avail → w.length < 2 + L / 128 * (1 + 4 * b) → decodeChunk pk w avail = .error .malTruncated) ∧
        (b ≤ 32 → L = 0 → decodeChunk pk w avail = .ok { vals := [], used := 2, width := b }) ∧
        (∀ c, decodeChunk pk w avail = .error c →
          c ∈ [ErrCode.malTruncated, .malLength, .malWidth, .outputOverflow, .malHeader, .malChain]) ∧
        (∀ T k cur vals, b ≤ 32 → L ≤ avail → T = 2 + L / 128 * (1 + 4 * b) → T ≤ w.length →
          BlocksAt pk w b T k cur vals →
          (k = L / 128 → decodeChunk pk w avail = .ok { vals := vals, used := T + cur, width := b }) ∧
          (k < L / 128 →
            (headerEnd (blockHeader w b k) < cur → decodeChunk pk w avail = .error .malHeader) ∧
            (b = 32 → headerEnd (blockHeader w b k) ≠ cur → decodeChunk pk w avail = .error .malHeader) ∧
            (cur ≤ headerEnd (blockHeader w b k) → (b = 32 → headerEnd (blockHeader w b k) = cur) →
              w.length < T + headerEnd (blockHeader w b k) → decodeChunk pk w avail = .error .malTruncated) ∧
            (∀ c, BlockSound w b T k cur → blockAnswer pk w b T k cur = .error c →
              decodeChunk pk w avail = .error c) ∧
            (headerEnd (blockHeader w b k) = cur →
              blockAnswer pk w b T k cur = .ok (pk.unpack (blockPayload w b k) b, 0))))))

/-- R144: what an error records. -/
def Obligations.ErrorRecord : Prop :=
  ∀ (i : Instr) (s t : State), exec i s = .next t → t.errCode ≠ .noError →
    t.err = true ∧ t.done = true ∧ t.result0 = 0#32 ∧ t.result1 = 0#32 ∧ t.result2 = 0#32 ∧
    t.excCur = s.excCur ∧ ArgsKept s t

/-- R142: the codes decided from the registers alone leave memory as it was, and no memory contents change them. -/
def Obligations.EarlyErrorsKeepMemory : Prop :=
  ∀ (i : Instr) (s t : State), s.raced = false → exec i s = .next t →
    t.errCode ∈ [ErrCode.illegalOp, .invalidArg, .invalidLength, .accessFault, .overlap] →
    t.mem = s.mem ∧ ∀ m : Memory, ∃ u, exec i { s with mem := m } = .next u ∧ u.errCode = t.errCode ∧ u.mem = m

/-- R143: after an error found while processing, the written regions hold free words (log 7); a command that raced with
the host (log 10) is the subject of `RacedOutcome`. -/
def Obligations.ProcessingErrorsFreeRegions : Prop :=
  ∀ (i : Instr) (s t : State), s.raced = false → exec i s = .next t →
    t.errCode ∈ [ErrCode.outputOverflow, .malTruncated, .malLength, .malWidth, .malHeader, .malChain] →
    KeptOutside (writtenRegions i s) s t ∧
    ∀ a : Nat, inRegions (writtenRegions i s) a = true → a < s.params.memWords →
      readWord s.params.endian t.mem a = Config.freeMem s.draws a

/-! ### Every command -/

/-- R59: no command writes a memory word outside its written regions, in any outcome; the exception region is empty where
`EXC_END < EXC_CUR` (log 22). -/
def Obligations.WritesConfined : Prop :=
  ∀ (i : Instr) (s t : State), exec i s = .next t → KeptOutside (writtenRegions i s) s t

/-- R36, R44: no command changes `CMD`, an argument register, `STATUS.IGN` or a parameter; only the block commands change
`EXC_CUR`. -/
def Obligations.CommandFrame : Prop :=
  ∀ (i : Instr) (s t : State), exec i s = .next t →
    ArgsKept s t ∧ ((∀ b, i ≠ .blkEnc b ∧ i ≠ .blkDec b) → t.excCur = s.excCur) ∧
    (i = .estimate → t.mem = s.mem)

/-- R49: every command completes. The mark `raced`, which it clears, is the model's own (log 10). -/
def Obligations.EveryCommandCompletes : Prop :=
  ∀ (i : Instr) (s : State), ∃ t, exec i s = .next t ∧ t.phase = .idle ∧ t.done = true ∧
    (t.err = true ↔ t.errCode ≠ .noError) ∧ t.raced = false

/-- R63, R156, R167: a command that raced with the host, or interfered with another instance's, ends with the registers of
an error or of a success, any value in each result register of the success and in `EXC_CUR` where the command's success
writes it, and any value in its written regions; no other word changes. Which of them it is, is a free value (logs 7, 10,
17); the exception region is empty where `EXC_END < EXC_CUR` (log 22). -/
def Obligations.RacedOutcome : Prop :=
  ∀ (i : Instr) (s : State), s.raced = true →
    ∃ t, exec i s = .next t ∧ KeptOutside (writtenRegions i s) s t ∧ ArgsKept s t ∧
      (∀ a : Nat, inRegions (writtenRegions i s) a = true → a < s.params.memWords →
        readWord s.params.endian t.mem a = Config.freeMem s.draws a) ∧
      ((Completed .noError t ∧ t.result0 = Config.freeReg s.draws 1 ∧ t.result1 = Config.freeReg s.draws 2 ∧
          t.result2 = Config.freeReg s.draws 3 ∧
          t.excCur = if movesCursor i then Config.freeReg s.draws 4 else s.excCur) ∨
        ∃ c, c ≠ .noError ∧ Completed c t ∧ Results 0 0 0 t ∧ t.excCur = s.excCur)

/-- R42: no command depends on the scratch state. -/
def Obligations.ScratchNotRead : Prop :=
  ∀ (i : Instr) (s : State) (x : Scratch), exec i { s with scratch := x } = exec i s

/-- R54: the engine's semantics do not depend on the byte order: from memories that hold the same words in two byte
orders (log 3), every command leaves the same registers and memories that hold the same words. -/
def Obligations.ByteOrderInvisible : Prop :=
  ∀ (i : Instr) (s t : State) (e : Endian) (m : Memory),
    (∀ a, readWord e m a = readWord s.params.endian s.mem a) →
    exec i s = .next t →
    ∃ u, exec i { s with params := { s.params with endian := e }, mem := m } = .next u ∧
      (∀ r : Reg, readReg r u = readReg r t) ∧ ∀ a, readWord e u.mem a = readWord t.params.endian t.mem a

/-! ### The step -/

/-- R49, R84, R171: a step runs the latched command at the engine's turn, in a `WAIT` while BUSY, and when nothing is
scheduled; while IDLE the engine has no step. A command placed by `withFetchWord` is the one the next step runs. The
schedule is the model's (logs 4, 5, 16). -/
def Obligations.StepRunsCommand : Prop :=
  ∀ (s : State) (rest : List Event),
    (s.phase = .busy → s.script = [] → step s = exec (decode s.cmd) s) ∧
    (s.phase = .busy → s.script = .engine :: rest → step s = exec (decode s.cmd) { s with script := rest }) ∧
    (s.phase = .busy → s.script = .wait :: rest → step s = exec (decode s.cmd) s) ∧
    (s.phase = .idle → s.script = [] → step s = .next s) ∧
    (s.phase = .idle → s.script = .engine :: rest ∨ s.script = .wait :: rest → step s = .next { s with script := rest }) ∧
    (∀ w, step (s.withFetchWord 32 w) =
      exec (decode (BitVec.ofNat 32 w)) { s.withFetchWord 32 w with script := s.script })

/-- R43, R51, R156, R160, R171: a step serves the host's next access, the platform's reset, or the running command of
another instance (log 17); a data memory word at or beyond
`MEM_WORDS` and a bus address below `REG_BASE` do not exist, and an access there stops the run (log 12). -/
def Obligations.StepServesHost : Prop :=
  ∀ (s : State) (rest : List Event) (addr a : Nat) (width : Width) (v : Word),
    (s.script = .regWrite addr width v :: rest →
      (s.params.regBase ≤ addr → step s = .next (busWrite (addr - s.params.regBase) width v { s with script := rest })) ∧
      (addr < s.params.regBase → step s = .fault .belowRegisterBlock)) ∧
    (s.script = .regRead addr width :: rest →
      (s.params.regBase ≤ addr → step s =
        .next { s with script := rest, reads := s.reads ++ [busRead (addr - s.params.regBase) width s] }) ∧
      (addr < s.params.regBase → step s = .fault .belowRegisterBlock)) ∧
    (s.script = .memWrite a v :: rest →
      step s = (if a < s.params.memWords then hostMemWrite a v { s with script := rest } else .fault .noSuchWord)) ∧
    (s.script = .memRead a :: rest →
      step s = (if a < s.params.memWords then hostMemRead a { s with script := rest } else .fault .noSuchWord)) ∧
    (s.script = .reset :: rest → step s = .next (platformReset { s with script := rest })) ∧
    (∀ rd wr, s.script = .peer rd wr :: rest → step s = .next (peerRuns rd wr { s with script := rest }))

/-- R49, R170: with a finite schedule that stops nothing, the machine has served it and is IDLE after at most two steps for
each event and one more. The schedule is the model's (log 4). -/
def Obligations.RunsToIdle : Prop :=
  ∀ s : State, (∀ e ∈ s.script, EventOk s.params e) →
    ∃ t, Host.Core.run Sys2Proof.core (2 * s.script.length + 1) s = .next t ∧ t.phase = .idle ∧ t.script = []
end

