-- ==== Sys2Proof/Laws/Memory.lean ====
section
/-! SUPPORT. What each memory operation does: reads after writes, the canonical form, the addresses of the cells. -/

namespace Sys2Proof.Machine

/-! ### Reading one byte -/

@[simp] theorem readByte_nil (x : Nat) : readByte [] x = 0#8 := rfl

theorem readByte_cons (c : Host.Cell) (m : Memory) (x : Nat) :
    readByte (c :: m) x = if c.1 = x then c.2 else readByte m x := by
  unfold readByte
  by_cases h : c.1 = x <;> simp [h]

theorem readByte_append (m n : Memory) (x : Nat) :
    readByte (m ++ n) x = if ∃ c ∈ m, c.1 = x then readByte m x else readByte n x := by
  induction m with
  | nil => simp
  | cons c m ih =>
    rw [List.cons_append, readByte_cons, readByte_cons, ih]
    by_cases h : c.1 = x
    · simp [h]
    · have : (∃ d ∈ c :: m, d.1 = x) ↔ ∃ d ∈ m, d.1 = x := by simp [h]
      simp only [h, this, if_false]

theorem readByte_unlisted {m : Memory} {x : Nat} (h : ∀ c ∈ m, c.1 ≠ x) : readByte m x = 0#8 := by
  induction m with
  | nil => rfl
  | cons c m ih =>
    rw [readByte_cons, if_neg (h c (by simp)), ih fun d hd => h d (by simp [hd])]

theorem readByte_filter {m : Memory} {x : Nat} {p : Host.Cell → Bool} (h : ∀ c ∈ m, c.1 = x → p c = true) :
    readByte (m.filter p) x = readByte m x := by
  induction m with
  | nil => rfl
  | cons c m ih =>
    have ih := ih fun d hd => h d (by simp [hd])
    by_cases hc : p c = true
    · rw [List.filter_cons_of_pos hc, readByte_cons, readByte_cons, ih]
    · have : c.1 ≠ x := fun e => hc (h c (by simp) e)
      rw [List.filter_cons_of_neg hc, readByte_cons, if_neg this, ih]

/-! ### Storing bytes -/

theorem listBytes_cons (a : Nat) (b : Byte) (bs : List Byte) :
    listBytes a (b :: bs) = if b = 0#8 then listBytes (a + 1) bs else (a, b) :: listBytes (a + 1) bs := rfl

theorem mem_listBytes {c : Host.Cell} {a : Nat} {bs : List Byte} (h : c ∈ listBytes a bs) :
    a ≤ c.1 ∧ c.1 < a + bs.length ∧ c.2 ≠ 0#8 := by
  induction bs generalizing a with
  | nil => simp [listBytes] at h
  | cons b bs ih =>
    have tail : c ∈ listBytes (a + 1) bs → a ≤ c.1 ∧ c.1 < a + (b :: bs).length ∧ c.2 ≠ 0#8 := fun h => by
      have := ih h
      simp only [List.length_cons]
      exact ⟨by omega, by omega, this.2.2⟩
    rw [listBytes_cons] at h
    split at h
    · exact tail h
    · rename_i hb
      rcases List.mem_cons.mp h with rfl | h
      · exact ⟨Nat.le_refl _, by simp, hb⟩
      · exact tail h

theorem readByte_listBytes (a : Nat) (bs : List Byte) (x : Nat) :
    readByte (listBytes a bs) x = if a ≤ x ∧ x < a + bs.length then bs.getD (x - a) 0#8 else 0#8 := by
  induction bs generalizing a with
  | nil => simp [listBytes]
  | cons b bs ih =>
    have key : readByte (listBytes a (b :: bs)) x = if a = x then b else readByte (listBytes (a + 1) bs) x := by
      rw [listBytes_cons]
      by_cases hb : b = 0#8
      · rw [if_pos hb]
        by_cases hx : a = x
        · rw [if_pos hx, hb]
          exact readByte_unlisted fun c hc => by have := mem_listBytes hc; omega
        · rw [if_neg hx]
      · rw [if_neg hb, readByte_cons]
    rw [key, ih, List.length_cons]
    by_cases hx : a = x
    · subst hx
      simp
    · rw [if_neg hx]
      by_cases hr : a + 1 ≤ x ∧ x < a + 1 + bs.length
      · have : x - a = x - (a + 1) + 1 := by omega
        rw [if_pos hr, if_pos (by omega), this, List.getD_cons_succ]
      · rw [if_neg hr, if_neg (by omega)]

/-- A byte after a store: the stored byte inside the stored range, the old byte outside it. -/
theorem readByte_writeBytes (m : Memory) (a : Nat) (bs : List Byte) (x : Nat) :
    readByte (writeBytes m a bs) x =
      if a ≤ x ∧ x < a + bs.length then bs.getD (x - a) 0#8 else readByte m x := by
  unfold writeBytes
  rw [List.append_assoc, readByte_append, readByte_append]
  by_cases hlo : x < a
  · have hf : readByte (m.filter fun c => decide (c.1 < a)) x = readByte m x :=
      readByte_filter fun c _ hc => by simp; omega
    have hm : ¬∃ c ∈ listBytes a bs, c.1 = x := fun ⟨c, hc, e⟩ => by have := mem_listBytes hc; omega
    rw [if_neg (show ¬(a ≤ x ∧ x < a + bs.length) by omega), hf, if_neg hm]
    split
    · rfl
    · rename_i hn
      rw [readByte_filter fun c hc e => absurd ⟨c, List.mem_filter.mpr ⟨hc, by simp; omega⟩, e⟩ hn]
  · have h1 : ¬∃ c ∈ m.filter fun c => decide (c.1 < a), c.1 = x := fun ⟨c, hc, e⟩ => by
      have := (List.mem_filter.mp hc).2
      simp at this; omega
    rw [if_neg h1]
    by_cases hin : x < a + bs.length
    · rw [if_pos (show a ≤ x ∧ x < a + bs.length by omega)]
      split
      · rw [readByte_listBytes, if_pos (by omega)]
      · rename_i hn
        have h3 : readByte (m.filter fun c => decide (a + bs.length ≤ c.1)) x = 0#8 :=
          readByte_unlisted fun c hc => by
            have := (List.mem_filter.mp hc).2
            simp at this; omega
        have h2 := readByte_listBytes a bs x
        rw [readByte_unlisted fun c hc e => hn ⟨c, hc, e⟩, if_pos (by omega)] at h2
        rw [h3, ← h2]
    · rw [if_neg (show ¬(a ≤ x ∧ x < a + bs.length) by omega)]
      have hm : ¬∃ c ∈ listBytes a bs, c.1 = x := fun ⟨c, hc, e⟩ => by have := mem_listBytes hc; omega
      rw [if_neg hm]
      exact readByte_filter fun c _ hc => by simp; omega

theorem mem_writeBytes {m : Memory} {a : Nat} {bs : List Byte} {c : Host.Cell} (h : c ∈ writeBytes m a bs) :
    c ∈ m ∨ (a ≤ c.1 ∧ c.1 < a + bs.length ∧ c.2 ≠ 0#8) := by
  simp only [writeBytes, List.mem_append, List.mem_filter] at h
  rcases h with (h | h) | h
  · exact .inl h.1
  · exact .inr (mem_listBytes h)
  · exact .inl h.1

theorem listBytes_rising (a : Nat) (bs : List Byte) : (listBytes a bs).Pairwise (fun c d => c.1 < d.1) := by
  induction bs generalizing a with
  | nil => simp [listBytes]
  | cons b bs ih =>
    rw [listBytes_cons]
    split
    · exact ih _
    · exact List.pairwise_cons.mpr ⟨fun c hc => (mem_listBytes hc).1, ih _⟩

/-- A store keeps the canonical form. -/
theorem writeBytes_wf {m : Memory} (h : m.wf) (a : Nat) (bs : List Byte) : Memory.wf (writeBytes m a bs) := by
  refine ⟨?_, fun c hc => ?_⟩
  · simp only [writeBytes]
    refine List.pairwise_append.mpr ⟨List.pairwise_append.mpr ⟨h.1.filter _, listBytes_rising _ _, ?_⟩, h.1.filter _, ?_⟩
    · intro c hc d hd
      have h1 := (List.mem_filter.mp hc).2
      have h2 := mem_listBytes hd
      simp at h1
      omega
    · intro c hc d hd
      have h2 := (List.mem_filter.mp hd).2
      simp at h2
      rcases List.mem_append.mp hc with hc | hc
      · have h1 := (List.mem_filter.mp hc).2
        simp at h1
        omega
      · have := mem_listBytes hc
        omega
  · rcases mem_writeBytes hc with hc | hc
    · exact h.2 c hc
    · exact hc.2.2

/-! ### Words -/

@[simp] theorem wordBytes_length (e : Endian) (w : Word) : (wordBytes e w).length = 4 := by
  cases e <;> rfl

@[simp] theorem flatMap_wordBytes_length (e : Endian) (ws : List Word) :
    (ws.flatMap (wordBytes e)).length = 4 * ws.length := by
  induction ws with
  | nil => rfl
  | cons w ws ih => simp [ih]; omega

/-- The four bytes of a word make that word again, in either byte order. -/
theorem bytesWord_wordBytes (e : Endian) (w : Word) :
    bytesWord e ((wordBytes e w).getD 0 0#8) ((wordBytes e w).getD 1 0#8) ((wordBytes e w).getD 2 0#8)
      ((wordBytes e w).getD 3 0#8) = w := by
  cases e <;>
  · simp only [wordBytes, bytesWord, List.getD_cons_zero, List.getD_cons_succ]
    apply BitVec.eq_of_getLsbD_eq
    intro i hi
    simp only [BitVec.getLsbD_append, BitVec.getLsbD_extractLsb']
    by_cases h1 : i < 8
    · simp [h1]
    · by_cases h2 : i - 8 < 8
      · simp [h1, h2, show 8 + (i - 8) = i by omega]
      · by_cases h3 : i - 8 - 8 < 8
        · simp [h1, h2, h3, show 16 + (i - 8 - 8) = i by omega]
        · simp [h1, h2, h3, show i - 8 - 8 - 8 < 8 by omega, show 24 + (i - 8 - 8 - 8) = i by omega]

theorem getD_flatMap_wordBytes (e : Endian) (ws : List Word) (i k : Nat) (hi : i < ws.length) (hk : k < 4) :
    (ws.flatMap (wordBytes e)).getD (4 * i + k) 0#8 = (wordBytes e (ws.getD i 0#32)).getD k 0#8 := by
  induction ws generalizing i with
  | nil => simp at hi
  | cons w ws ih =>
    rw [List.flatMap_cons]
    cases i with
    | zero =>
      rw [List.getD_append _ _ _ _ (by simpa using hk)]
      simp
    | succ i =>
      rw [List.getD_append_right _ _ _ _ (by simp; omega), wordBytes_length,
        show 4 * (i + 1) + k - 4 = 4 * i + k by omega, ih i (by simpa using hi), List.getD_cons_succ]

/-- A byte after `MemWrite`, outside the words written. -/
theorem readByte_memWrite_outside (e : Endian) (m : Memory) (a : Nat) (ws : List Word) (x : Nat)
    (h : x < 4 * a ∨ 4 * (a + ws.length) ≤ x) : readByte (memWrite e m a ws) x = readByte m x := by
  rw [memWrite, readByte_writeBytes, if_neg]
  simp
  omega

/-- A word after `MemWrite`: the word written there, or the old one. -/
theorem readWord_memWrite (e : Endian) (m : Memory) (a : Nat) (ws : List Word) (x : Nat) :
    readWord e (memWrite e m a ws) x =
      if a ≤ x ∧ x < a + ws.length then ws.getD (x - a) 0#32 else readWord e m x := by
  by_cases h : a ≤ x ∧ x < a + ws.length
  · rw [if_pos h]
    have key : ∀ k, k < 4 → readByte (memWrite e m a ws) (4 * x + k)
        = (wordBytes e (ws.getD (x - a) 0#32)).getD k 0#8 := fun k hk => by
      rw [memWrite, readByte_writeBytes, if_pos (by simp; omega),
        show 4 * x + k - 4 * a = 4 * (x - a) + k by omega, getD_flatMap_wordBytes _ _ _ _ (by omega) hk]
    have k0 := key 0 (by omega)
    rw [Nat.add_zero] at k0
    rw [readWord, k0, key 1 (by omega), key 2 (by omega), key 3 (by omega), bytesWord_wordBytes]
  · rw [if_neg h, readWord, readWord]
    have key : ∀ k, k < 4 → readByte (memWrite e m a ws) (4 * x + k) = readByte m (4 * x + k) :=
      fun k hk => readByte_memWrite_outside _ _ _ _ _ (by omega)
    have k0 := key 0 (by omega)
    rw [Nat.add_zero] at k0
    rw [k0, key 1 (by omega), key 2 (by omega), key 3 (by omega)]

@[simp] theorem memRead_length (e : Endian) (m : Memory) (a n : Nat) : (memRead e m a n).length = n := by
  simp [memRead]

theorem getD_memRead (e : Endian) (m : Memory) (a n i : Nat) (h : i < n) :
    (memRead e m a n).getD i 0#32 = readWord e m (a + i) := by
  simp [memRead, List.getD_eq_getElem?_getD, h]

/-- `MemRead` of what `MemWrite` wrote. -/
theorem memRead_memWrite_same (e : Endian) (m : Memory) (a : Nat) (ws : List Word) :
    memRead e (memWrite e m a ws) a ws.length = ws := by
  apply List.ext_getElem (by simp)
  intro i h1 h2
  simp only [memRead, List.getElem_map, List.getElem_range]
  rw [readWord_memWrite, if_pos ⟨by omega, by omega⟩]
  simp [List.getD_eq_getElem?_getD, h2]

/-- `MemRead` of words a `MemWrite` leaves alone. -/
theorem memRead_memWrite_outside (e : Endian) (m : Memory) (a : Nat) (ws : List Word) (c n : Nat)
    (h : c + n ≤ a ∨ a + ws.length ≤ c) : memRead e (memWrite e m a ws) c n = memRead e m c n := by
  unfold memRead
  apply List.map_congr_left
  intro i hi
  have := List.mem_range.mp hi
  rw [readWord_memWrite, if_neg (by omega)]

theorem memWrite_wf {m : Memory} (h : m.wf) (e : Endian) (a : Nat) (ws : List Word) :
    Memory.wf (memWrite e m a ws) := writeBytes_wf h _ _

theorem mem_memWrite {e : Endian} {m : Memory} {a : Nat} {ws : List Word} {c : Host.Cell}
    (h : c ∈ memWrite e m a ws) : c ∈ m ∨ (4 * a ≤ c.1 ∧ c.1 < 4 * (a + ws.length)) := by
  rcases mem_writeBytes h with h | h
  · exact .inl h
  · refine .inr ⟨h.1, ?_⟩
    have := h.2.1
    simp at this
    omega

/-! ### Free words in the regions of a command -/

@[simp] theorem freeWords_length (p : Params) (d : Nat) (r : Region) :
    (freeWords p d r).length = min r.len (p.memWords - r.base) := by
  simp [freeWords]

theorem fillFree_wf {m : Memory} (h : m.wf) (p : Params) (d : Nat) (rs : List Region) :
    Memory.wf (fillFree p d rs m) := by
  unfold fillFree
  induction rs generalizing m with
  | nil => exact h
  | cons r rs ih => exact ih (memWrite_wf h _ _ _)

/-- Free words land in the regions only: a word outside all of them reads as before. -/
theorem readWord_fillFree_outside (p : Params) (d : Nat) (rs : List Region) (m : Memory) (x : Nat)
    (h : inRegions rs x = false) : readWord p.endian (fillFree p d rs m) x = readWord p.endian m x := by
  unfold fillFree
  induction rs generalizing m with
  | nil => rfl
  | cons r rs ih =>
    simp only [inRegions, List.any_cons, Bool.or_eq_false_iff, inRegion, decide_eq_false_iff_not] at h
    rw [List.foldl_cons, ih _ h.2, readWord_memWrite, if_neg]
    simp
    omega

/-- Free words land in the regions only: a byte of a word outside all of them reads as before. -/
theorem readByte_fillFree_outside (p : Params) (d : Nat) (rs : List Region) (m : Memory) (x : Nat)
    (h : inRegions rs (x / 4) = false) : readByte (fillFree p d rs m) x = readByte m x := by
  unfold fillFree
  induction rs generalizing m with
  | nil => rfl
  | cons r rs ih =>
    simp only [inRegions, List.any_cons, Bool.or_eq_false_iff, inRegion, decide_eq_false_iff_not] at h
    rw [List.foldl_cons, ih _ h.2, readByte_memWrite_outside]
    simp
    omega

/-- Free words are stored at addresses that exist. -/
theorem mem_fillFree {p : Params} {d : Nat} {rs : List Region} {m : Memory} {c : Host.Cell}
    (h : c ∈ fillFree p d rs m) : c ∈ m ∨ c.1 < 4 * p.memWords := by
  unfold fillFree at h
  induction rs generalizing m with
  | nil => exact .inl h
  | cons r rs ih =>
    rcases ih h with h | h
    · rcases mem_memWrite h with h | h
      · exact .inl h
      · simp at h
        exact .inr (by omega)
    · exact .inr h

end Sys2Proof.Machine
end

