-- ==== Sys2Proof/Laws/State.lean ====
section
/-! SUPPORT. For each update of the state, what every field holds after it. -/

namespace Sys2Proof.Machine

/-! ### Completion -/

@[simp] theorem finish_phase (c : ErrCode) (r0 r1 r2 : Word) (s : State) :
    (finish c r0 r1 r2 s).phase = .idle := rfl

@[simp] theorem finish_cmd (c : ErrCode) (r0 r1 r2 : Word) (s : State) :
    (finish c r0 r1 r2 s).cmd = s.cmd := rfl

@[simp] theorem finish_done (c : ErrCode) (r0 r1 r2 : Word) (s : State) :
    (finish c r0 r1 r2 s).done = true := rfl

@[simp] theorem finish_err (c : ErrCode) (r0 r1 r2 : Word) (s : State) :
    (finish c r0 r1 r2 s).err = decide (c ≠ .noError) := rfl

@[simp] theorem finish_ign (c : ErrCode) (r0 r1 r2 : Word) (s : State) :
    (finish c r0 r1 r2 s).ign = s.ign := rfl

@[simp] theorem finish_errCode (c : ErrCode) (r0 r1 r2 : Word) (s : State) :
    (finish c r0 r1 r2 s).errCode = c := rfl

@[simp] theorem finish_srcAddr (c : ErrCode) (r0 r1 r2 : Word) (s : State) :
    (finish c r0 r1 r2 s).srcAddr = s.srcAddr := rfl

@[simp] theorem finish_srcLen (c : ErrCode) (r0 r1 r2 : Word) (s : State) :
    (finish c r0 r1 r2 s).srcLen = s.srcLen := rfl

@[simp] theorem finish_dstAddr (c : ErrCode) (r0 r1 r2 : Word) (s : State) :
    (finish c r0 r1 r2 s).dstAddr = s.dstAddr := rfl

@[simp] theorem finish_dstCap (c : ErrCode) (r0 r1 r2 : Word) (s : State) :
    (finish c r0 r1 r2 s).dstCap = s.dstCap := rfl

@[simp] theorem finish_excAddr (c : ErrCode) (r0 r1 r2 : Word) (s : State) :
    (finish c r0 r1 r2 s).excAddr = s.excAddr := rfl

@[simp] theorem finish_excCur (c : ErrCode) (r0 r1 r2 : Word) (s : State) :
    (finish c r0 r1 r2 s).excCur = s.excCur := rfl

@[simp] theorem finish_excEnd (c : ErrCode) (r0 r1 r2 : Word) (s : State) :
    (finish c r0 r1 r2 s).excEnd = s.excEnd := rfl

@[simp] theorem finish_first (c : ErrCode) (r0 r1 r2 : Word) (s : State) :
    (finish c r0 r1 r2 s).first = s.first := rfl

@[simp] theorem finish_sampleSel (c : ErrCode) (r0 r1 r2 : Word) (s : State) :
    (finish c r0 r1 r2 s).sampleSel = s.sampleSel := rfl

@[simp] theorem finish_result0 (c : ErrCode) (r0 r1 r2 : Word) (s : State) :
    (finish c r0 r1 r2 s).result0 = r0 := rfl

@[simp] theorem finish_result1 (c : ErrCode) (r0 r1 r2 : Word) (s : State) :
    (finish c r0 r1 r2 s).result1 = r1 := rfl

@[simp] theorem finish_result2 (c : ErrCode) (r0 r1 r2 : Word) (s : State) :
    (finish c r0 r1 r2 s).result2 = r2 := rfl

@[simp] theorem finish_scratch (c : ErrCode) (r0 r1 r2 : Word) (s : State) :
    (finish c r0 r1 r2 s).scratch = freeScratch s.draws := rfl

@[simp] theorem finish_params (c : ErrCode) (r0 r1 r2 : Word) (s : State) :
    (finish c r0 r1 r2 s).params = s.params := rfl

@[simp] theorem finish_mem (c : ErrCode) (r0 r1 r2 : Word) (s : State) :
    (finish c r0 r1 r2 s).mem = s.mem := rfl

@[simp] theorem finish_script (c : ErrCode) (r0 r1 r2 : Word) (s : State) :
    (finish c r0 r1 r2 s).script = s.script := rfl

@[simp] theorem finish_reads (c : ErrCode) (r0 r1 r2 : Word) (s : State) :
    (finish c r0 r1 r2 s).reads = s.reads := rfl

@[simp] theorem finish_raced (c : ErrCode) (r0 r1 r2 : Word) (s : State) :
    (finish c r0 r1 r2 s).raced = false := rfl

@[simp] theorem finish_draws (c : ErrCode) (r0 r1 r2 : Word) (s : State) :
    (finish c r0 r1 r2 s).draws = s.draws + 1 := rfl

/-! ### The registers of a raced success -/

@[simp] theorem racedSuccess_writes (cursor : Bool) (s : State) :
    (racedSuccess cursor s).writes = [] := rfl

@[simp] theorem racedSuccess_excCur (cursor : Bool) (s : State) :
    (racedSuccess cursor s).excCur = if cursor then Config.freeReg s.draws 4 else s.excCur := rfl

@[simp] theorem racedSuccess_result0 (cursor : Bool) (s : State) :
    (racedSuccess cursor s).result0 = Config.freeReg s.draws 1 := rfl

@[simp] theorem racedSuccess_result1 (cursor : Bool) (s : State) :
    (racedSuccess cursor s).result1 = Config.freeReg s.draws 2 := rfl

@[simp] theorem racedSuccess_result2 (cursor : Bool) (s : State) :
    (racedSuccess cursor s).result2 = Config.freeReg s.draws 3 := rfl

/-! ### Completion with success -/

@[simp] theorem succeed_phase (ok : Success) (s : State) :
    (succeed ok s).phase = .idle := rfl

@[simp] theorem succeed_cmd (ok : Success) (s : State) :
    (succeed ok s).cmd = s.cmd := rfl

@[simp] theorem succeed_done (ok : Success) (s : State) :
    (succeed ok s).done = true := rfl

@[simp] theorem succeed_err (ok : Success) (s : State) :
    (succeed ok s).err = false := rfl

@[simp] theorem succeed_ign (ok : Success) (s : State) :
    (succeed ok s).ign = s.ign := rfl

@[simp] theorem succeed_errCode (ok : Success) (s : State) :
    (succeed ok s).errCode = .noError := rfl

@[simp] theorem succeed_srcAddr (ok : Success) (s : State) :
    (succeed ok s).srcAddr = s.srcAddr := rfl

@[simp] theorem succeed_srcLen (ok : Success) (s : State) :
    (succeed ok s).srcLen = s.srcLen := rfl

@[simp] theorem succeed_dstAddr (ok : Success) (s : State) :
    (succeed ok s).dstAddr = s.dstAddr := rfl

@[simp] theorem succeed_dstCap (ok : Success) (s : State) :
    (succeed ok s).dstCap = s.dstCap := rfl

@[simp] theorem succeed_excAddr (ok : Success) (s : State) :
    (succeed ok s).excAddr = s.excAddr := rfl

@[simp] theorem succeed_excCur (ok : Success) (s : State) :
    (succeed ok s).excCur = ok.excCur := rfl

@[simp] theorem succeed_excEnd (ok : Success) (s : State) :
    (succeed ok s).excEnd = s.excEnd := rfl

@[simp] theorem succeed_first (ok : Success) (s : State) :
    (succeed ok s).first = s.first := rfl

@[simp] theorem succeed_sampleSel (ok : Success) (s : State) :
    (succeed ok s).sampleSel = s.sampleSel := rfl

@[simp] theorem succeed_result0 (ok : Success) (s : State) :
    (succeed ok s).result0 = ok.result0 := rfl

@[simp] theorem succeed_result1 (ok : Success) (s : State) :
    (succeed ok s).result1 = ok.result1 := rfl

@[simp] theorem succeed_result2 (ok : Success) (s : State) :
    (succeed ok s).result2 = ok.result2 := rfl

@[simp] theorem succeed_scratch (ok : Success) (s : State) :
    (succeed ok s).scratch = freeScratch s.draws := rfl

@[simp] theorem succeed_params (ok : Success) (s : State) :
    (succeed ok s).params = s.params := rfl

@[simp] theorem succeed_mem (ok : Success) (s : State) :
    (succeed ok s).mem = ok.writes.foldl (fun m w => memWrite s.params.endian m w.1 w.2) s.mem := rfl

@[simp] theorem succeed_script (ok : Success) (s : State) :
    (succeed ok s).script = s.script := rfl

@[simp] theorem succeed_reads (ok : Success) (s : State) :
    (succeed ok s).reads = s.reads := rfl

@[simp] theorem succeed_raced (ok : Success) (s : State) :
    (succeed ok s).raced = false := rfl

@[simp] theorem succeed_draws (ok : Success) (s : State) :
    (succeed ok s).draws = s.draws + 1 := rfl

/-! ### Completion with an error -/

@[simp] theorem raiseError_phase (ws : List Region) (c : ErrCode) (s : State) :
    (raiseError ws c s).phase = .idle := rfl

@[simp] theorem raiseError_cmd (ws : List Region) (c : ErrCode) (s : State) :
    (raiseError ws c s).cmd = s.cmd := rfl

@[simp] theorem raiseError_done (ws : List Region) (c : ErrCode) (s : State) :
    (raiseError ws c s).done = true := rfl

@[simp] theorem raiseError_err (ws : List Region) (c : ErrCode) (s : State) :
    (raiseError ws c s).err = decide (c ≠ .noError) := rfl

@[simp] theorem raiseError_ign (ws : List Region) (c : ErrCode) (s : State) :
    (raiseError ws c s).ign = s.ign := rfl

@[simp] theorem raiseError_errCode (ws : List Region) (c : ErrCode) (s : State) :
    (raiseError ws c s).errCode = c := rfl

@[simp] theorem raiseError_srcAddr (ws : List Region) (c : ErrCode) (s : State) :
    (raiseError ws c s).srcAddr = s.srcAddr := rfl

@[simp] theorem raiseError_srcLen (ws : List Region) (c : ErrCode) (s : State) :
    (raiseError ws c s).srcLen = s.srcLen := rfl

@[simp] theorem raiseError_dstAddr (ws : List Region) (c : ErrCode) (s : State) :
    (raiseError ws c s).dstAddr = s.dstAddr := rfl

@[simp] theorem raiseError_dstCap (ws : List Region) (c : ErrCode) (s : State) :
    (raiseError ws c s).dstCap = s.dstCap := rfl

@[simp] theorem raiseError_excAddr (ws : List Region) (c : ErrCode) (s : State) :
    (raiseError ws c s).excAddr = s.excAddr := rfl

@[simp] theorem raiseError_excCur (ws : List Region) (c : ErrCode) (s : State) :
    (raiseError ws c s).excCur = s.excCur := rfl

@[simp] theorem raiseError_excEnd (ws : List Region) (c : ErrCode) (s : State) :
    (raiseError ws c s).excEnd = s.excEnd := rfl

@[simp] theorem raiseError_first (ws : List Region) (c : ErrCode) (s : State) :
    (raiseError ws c s).first = s.first := rfl

@[simp] theorem raiseError_sampleSel (ws : List Region) (c : ErrCode) (s : State) :
    (raiseError ws c s).sampleSel = s.sampleSel := rfl

@[simp] theorem raiseError_result0 (ws : List Region) (c : ErrCode) (s : State) :
    (raiseError ws c s).result0 = 0#32 := rfl

@[simp] theorem raiseError_result1 (ws : List Region) (c : ErrCode) (s : State) :
    (raiseError ws c s).result1 = 0#32 := rfl

@[simp] theorem raiseError_result2 (ws : List Region) (c : ErrCode) (s : State) :
    (raiseError ws c s).result2 = 0#32 := rfl

@[simp] theorem raiseError_scratch (ws : List Region) (c : ErrCode) (s : State) :
    (raiseError ws c s).scratch = freeScratch s.draws := rfl

@[simp] theorem raiseError_params (ws : List Region) (c : ErrCode) (s : State) :
    (raiseError ws c s).params = s.params := rfl

@[simp] theorem raiseError_mem (ws : List Region) (c : ErrCode) (s : State) :
    (raiseError ws c s).mem = if beforeMemory c then s.mem else fillFree s.params s.draws ws s.mem := rfl

@[simp] theorem raiseError_script (ws : List Region) (c : ErrCode) (s : State) :
    (raiseError ws c s).script = s.script := rfl

@[simp] theorem raiseError_reads (ws : List Region) (c : ErrCode) (s : State) :
    (raiseError ws c s).reads = s.reads := rfl

@[simp] theorem raiseError_raced (ws : List Region) (c : ErrCode) (s : State) :
    (raiseError ws c s).raced = false := rfl

@[simp] theorem raiseError_draws (ws : List Region) (c : ErrCode) (s : State) :
    (raiseError ws c s).draws = s.draws + 1 := rfl

/-! ### Issue -/

@[simp] theorem issue_phase (v : Word) (s : State) :
    (issue v s).phase = .busy := rfl

@[simp] theorem issue_cmd (v : Word) (s : State) :
    (issue v s).cmd = v &&& cmdMask := rfl

@[simp] theorem issue_done (v : Word) (s : State) :
    (issue v s).done = false := rfl

@[simp] theorem issue_err (v : Word) (s : State) :
    (issue v s).err = false := rfl

@[simp] theorem issue_ign (v : Word) (s : State) :
    (issue v s).ign = s.ign := rfl

@[simp] theorem issue_errCode (v : Word) (s : State) :
    (issue v s).errCode = .noError := rfl

@[simp] theorem issue_srcAddr (v : Word) (s : State) :
    (issue v s).srcAddr = s.srcAddr := rfl

@[simp] theorem issue_srcLen (v : Word) (s : State) :
    (issue v s).srcLen = s.srcLen := rfl

@[simp] theorem issue_dstAddr (v : Word) (s : State) :
    (issue v s).dstAddr = s.dstAddr := rfl

@[simp] theorem issue_dstCap (v : Word) (s : State) :
    (issue v s).dstCap = s.dstCap := rfl

@[simp] theorem issue_excAddr (v : Word) (s : State) :
    (issue v s).excAddr = s.excAddr := rfl

@[simp] theorem issue_excCur (v : Word) (s : State) :
    (issue v s).excCur = s.excCur := rfl

@[simp] theorem issue_excEnd (v : Word) (s : State) :
    (issue v s).excEnd = s.excEnd := rfl

@[simp] theorem issue_first (v : Word) (s : State) :
    (issue v s).first = s.first := rfl

@[simp] theorem issue_sampleSel (v : Word) (s : State) :
    (issue v s).sampleSel = s.sampleSel := rfl

@[simp] theorem issue_result0 (v : Word) (s : State) :
    (issue v s).result0 = s.result0 := rfl

@[simp] theorem issue_result1 (v : Word) (s : State) :
    (issue v s).result1 = s.result1 := rfl

@[simp] theorem issue_result2 (v : Word) (s : State) :
    (issue v s).result2 = s.result2 := rfl

@[simp] theorem issue_scratch (v : Word) (s : State) :
    (issue v s).scratch = s.scratch := rfl

@[simp] theorem issue_params (v : Word) (s : State) :
    (issue v s).params = s.params := rfl

@[simp] theorem issue_mem (v : Word) (s : State) :
    (issue v s).mem = s.mem := rfl

@[simp] theorem issue_script (v : Word) (s : State) :
    (issue v s).script = s.script := rfl

@[simp] theorem issue_reads (v : Word) (s : State) :
    (issue v s).reads = s.reads := rfl

@[simp] theorem issue_raced (v : Word) (s : State) :
    (issue v s).raced = false := rfl

@[simp] theorem issue_draws (v : Word) (s : State) :
    (issue v s).draws = s.draws := rfl

/-! ### A host write of STATUS -/

@[simp] theorem writeStatus_phase (v : Word) (s : State) :
    (writeStatus v s).phase = s.phase := rfl

@[simp] theorem writeStatus_cmd (v : Word) (s : State) :
    (writeStatus v s).cmd = s.cmd := rfl

@[simp] theorem writeStatus_done (v : Word) (s : State) :
    (writeStatus v s).done = (s.done && !v.getLsbD 1) := rfl

@[simp] theorem writeStatus_err (v : Word) (s : State) :
    (writeStatus v s).err = (s.err && !v.getLsbD 2) := rfl

@[simp] theorem writeStatus_ign (v : Word) (s : State) :
    (writeStatus v s).ign = (s.ign && !v.getLsbD 3) := rfl

@[simp] theorem writeStatus_errCode (v : Word) (s : State) :
    (writeStatus v s).errCode = if v.getLsbD 2 then .noError else s.errCode := rfl

@[simp] theorem writeStatus_srcAddr (v : Word) (s : State) :
    (writeStatus v s).srcAddr = s.srcAddr := rfl

@[simp] theorem writeStatus_srcLen (v : Word) (s : State) :
    (writeStatus v s).srcLen = s.srcLen := rfl

@[simp] theorem writeStatus_dstAddr (v : Word) (s : State) :
    (writeStatus v s).dstAddr = s.dstAddr := rfl

@[simp] theorem writeStatus_dstCap (v : Word) (s : State) :
    (writeStatus v s).dstCap = s.dstCap := rfl

@[simp] theorem writeStatus_excAddr (v : Word) (s : State) :
    (writeStatus v s).excAddr = s.excAddr := rfl

@[simp] theorem writeStatus_excCur (v : Word) (s : State) :
    (writeStatus v s).excCur = s.excCur := rfl

@[simp] theorem writeStatus_excEnd (v : Word) (s : State) :
    (writeStatus v s).excEnd = s.excEnd := rfl

@[simp] theorem writeStatus_first (v : Word) (s : State) :
    (writeStatus v s).first = s.first := rfl

@[simp] theorem writeStatus_sampleSel (v : Word) (s : State) :
    (writeStatus v s).sampleSel = s.sampleSel := rfl

@[simp] theorem writeStatus_result0 (v : Word) (s : State) :
    (writeStatus v s).result0 = s.result0 := rfl

@[simp] theorem writeStatus_result1 (v : Word) (s : State) :
    (writeStatus v s).result1 = s.result1 := rfl

@[simp] theorem writeStatus_result2 (v : Word) (s : State) :
    (writeStatus v s).result2 = s.result2 := rfl

@[simp] theorem writeStatus_scratch (v : Word) (s : State) :
    (writeStatus v s).scratch = s.scratch := rfl

@[simp] theorem writeStatus_params (v : Word) (s : State) :
    (writeStatus v s).params = s.params := rfl

@[simp] theorem writeStatus_mem (v : Word) (s : State) :
    (writeStatus v s).mem = s.mem := rfl

@[simp] theorem writeStatus_script (v : Word) (s : State) :
    (writeStatus v s).script = s.script := rfl

@[simp] theorem writeStatus_reads (v : Word) (s : State) :
    (writeStatus v s).reads = s.reads := rfl

@[simp] theorem writeStatus_raced (v : Word) (s : State) :
    (writeStatus v s).raced = s.raced := rfl

@[simp] theorem writeStatus_draws (v : Word) (s : State) :
    (writeStatus v s).draws = s.draws := rfl

/-! ### A host read -/

@[simp] theorem record_phase (v : Word) (s : State) :
    (record v s).phase = s.phase := rfl

@[simp] theorem record_cmd (v : Word) (s : State) :
    (record v s).cmd = s.cmd := rfl

@[simp] theorem record_done (v : Word) (s : State) :
    (record v s).done = s.done := rfl

@[simp] theorem record_err (v : Word) (s : State) :
    (record v s).err = s.err := rfl

@[simp] theorem record_ign (v : Word) (s : State) :
    (record v s).ign = s.ign := rfl

@[simp] theorem record_errCode (v : Word) (s : State) :
    (record v s).errCode = s.errCode := rfl

@[simp] theorem record_srcAddr (v : Word) (s : State) :
    (record v s).srcAddr = s.srcAddr := rfl

@[simp] theorem record_srcLen (v : Word) (s : State) :
    (record v s).srcLen = s.srcLen := rfl

@[simp] theorem record_dstAddr (v : Word) (s : State) :
    (record v s).dstAddr = s.dstAddr := rfl

@[simp] theorem record_dstCap (v : Word) (s : State) :
    (record v s).dstCap = s.dstCap := rfl

@[simp] theorem record_excAddr (v : Word) (s : State) :
    (record v s).excAddr = s.excAddr := rfl

@[simp] theorem record_excCur (v : Word) (s : State) :
    (record v s).excCur = s.excCur := rfl

@[simp] theorem record_excEnd (v : Word) (s : State) :
    (record v s).excEnd = s.excEnd := rfl

@[simp] theorem record_first (v : Word) (s : State) :
    (record v s).first = s.first := rfl

@[simp] theorem record_sampleSel (v : Word) (s : State) :
    (record v s).sampleSel = s.sampleSel := rfl

@[simp] theorem record_result0 (v : Word) (s : State) :
    (record v s).result0 = s.result0 := rfl

@[simp] theorem record_result1 (v : Word) (s : State) :
    (record v s).result1 = s.result1 := rfl

@[simp] theorem record_result2 (v : Word) (s : State) :
    (record v s).result2 = s.result2 := rfl

@[simp] theorem record_scratch (v : Word) (s : State) :
    (record v s).scratch = s.scratch := rfl

@[simp] theorem record_params (v : Word) (s : State) :
    (record v s).params = s.params := rfl

@[simp] theorem record_mem (v : Word) (s : State) :
    (record v s).mem = s.mem := rfl

@[simp] theorem record_script (v : Word) (s : State) :
    (record v s).script = s.script := rfl

@[simp] theorem record_reads (v : Word) (s : State) :
    (record v s).reads = s.reads ++ [v] := rfl

@[simp] theorem record_raced (v : Word) (s : State) :
    (record v s).raced = s.raced := rfl

@[simp] theorem record_draws (v : Word) (s : State) :
    (record v s).draws = s.draws := rfl

/-! ### The platform reset -/

@[simp] theorem platformReset_phase (s : State) :
    (platformReset s).phase = .idle := rfl

@[simp] theorem platformReset_cmd (s : State) :
    (platformReset s).cmd = 0#32 := rfl

@[simp] theorem platformReset_done (s : State) :
    (platformReset s).done = false := rfl

@[simp] theorem platformReset_err (s : State) :
    (platformReset s).err = false := rfl

@[simp] theorem platformReset_ign (s : State) :
    (platformReset s).ign = false := rfl

@[simp] theorem platformReset_errCode (s : State) :
    (platformReset s).errCode = .noError := rfl

@[simp] theorem platformReset_srcAddr (s : State) :
    (platformReset s).srcAddr = 0#32 := rfl

@[simp] theorem platformReset_srcLen (s : State) :
    (platformReset s).srcLen = 0#32 := rfl

@[simp] theorem platformReset_dstAddr (s : State) :
    (platformReset s).dstAddr = 0#32 := rfl

@[simp] theorem platformReset_dstCap (s : State) :
    (platformReset s).dstCap = 0#32 := rfl

@[simp] theorem platformReset_excAddr (s : State) :
    (platformReset s).excAddr = 0#32 := rfl

@[simp] theorem platformReset_excCur (s : State) :
    (platformReset s).excCur = 0#32 := rfl

@[simp] theorem platformReset_excEnd (s : State) :
    (platformReset s).excEnd = 0#32 := rfl

@[simp] theorem platformReset_first (s : State) :
    (platformReset s).first = 0#32 := rfl

@[simp] theorem platformReset_sampleSel (s : State) :
    (platformReset s).sampleSel = 0#32 := rfl

@[simp] theorem platformReset_result0 (s : State) :
    (platformReset s).result0 = 0#32 := rfl

@[simp] theorem platformReset_result1 (s : State) :
    (platformReset s).result1 = 0#32 := rfl

@[simp] theorem platformReset_result2 (s : State) :
    (platformReset s).result2 = 0#32 := rfl

@[simp] theorem platformReset_scratch (s : State) :
    (platformReset s).scratch = freeScratch s.draws := rfl

@[simp] theorem platformReset_params (s : State) :
    (platformReset s).params = s.params := rfl

@[simp] theorem platformReset_mem (s : State) :
    (platformReset s).mem = match s.phase with
    | .idle => s.mem
    | .busy => fillFree s.params s.draws (writtenRegions (latched s) s) s.mem := rfl

@[simp] theorem platformReset_script (s : State) :
    (platformReset s).script = s.script := rfl

@[simp] theorem platformReset_reads (s : State) :
    (platformReset s).reads = s.reads := rfl

@[simp] theorem platformReset_raced (s : State) :
    (platformReset s).raced = false := rfl

@[simp] theorem platformReset_draws (s : State) :
    (platformReset s).draws = s.draws + 1 := rfl

/-! ### Interference with another instance -/

@[simp] theorem freeBoth_phase (ws : List Region) (s : State) :
    (freeBoth ws s).phase = s.phase := rfl

@[simp] theorem freeBoth_cmd (ws : List Region) (s : State) :
    (freeBoth ws s).cmd = s.cmd := rfl

@[simp] theorem freeBoth_done (ws : List Region) (s : State) :
    (freeBoth ws s).done = s.done := rfl

@[simp] theorem freeBoth_err (ws : List Region) (s : State) :
    (freeBoth ws s).err = s.err := rfl

@[simp] theorem freeBoth_ign (ws : List Region) (s : State) :
    (freeBoth ws s).ign = s.ign := rfl

@[simp] theorem freeBoth_errCode (ws : List Region) (s : State) :
    (freeBoth ws s).errCode = s.errCode := rfl

@[simp] theorem freeBoth_srcAddr (ws : List Region) (s : State) :
    (freeBoth ws s).srcAddr = s.srcAddr := rfl

@[simp] theorem freeBoth_srcLen (ws : List Region) (s : State) :
    (freeBoth ws s).srcLen = s.srcLen := rfl

@[simp] theorem freeBoth_dstAddr (ws : List Region) (s : State) :
    (freeBoth ws s).dstAddr = s.dstAddr := rfl

@[simp] theorem freeBoth_dstCap (ws : List Region) (s : State) :
    (freeBoth ws s).dstCap = s.dstCap := rfl

@[simp] theorem freeBoth_excAddr (ws : List Region) (s : State) :
    (freeBoth ws s).excAddr = s.excAddr := rfl

@[simp] theorem freeBoth_excCur (ws : List Region) (s : State) :
    (freeBoth ws s).excCur = s.excCur := rfl

@[simp] theorem freeBoth_excEnd (ws : List Region) (s : State) :
    (freeBoth ws s).excEnd = s.excEnd := rfl

@[simp] theorem freeBoth_first (ws : List Region) (s : State) :
    (freeBoth ws s).first = s.first := rfl

@[simp] theorem freeBoth_sampleSel (ws : List Region) (s : State) :
    (freeBoth ws s).sampleSel = s.sampleSel := rfl

@[simp] theorem freeBoth_result0 (ws : List Region) (s : State) :
    (freeBoth ws s).result0 = s.result0 := rfl

@[simp] theorem freeBoth_result1 (ws : List Region) (s : State) :
    (freeBoth ws s).result1 = s.result1 := rfl

@[simp] theorem freeBoth_result2 (ws : List Region) (s : State) :
    (freeBoth ws s).result2 = s.result2 := rfl

@[simp] theorem freeBoth_scratch (ws : List Region) (s : State) :
    (freeBoth ws s).scratch = s.scratch := rfl

@[simp] theorem freeBoth_params (ws : List Region) (s : State) :
    (freeBoth ws s).params = s.params := rfl

@[simp] theorem freeBoth_mem (ws : List Region) (s : State) :
    (freeBoth ws s).mem = fillFree s.params s.draws ws s.mem := rfl

@[simp] theorem freeBoth_script (ws : List Region) (s : State) :
    (freeBoth ws s).script = s.script := rfl

@[simp] theorem freeBoth_reads (ws : List Region) (s : State) :
    (freeBoth ws s).reads = s.reads := rfl

@[simp] theorem freeBoth_raced (ws : List Region) (s : State) :
    (freeBoth ws s).raced = true := rfl

@[simp] theorem freeBoth_draws (ws : List Region) (s : State) :
    (freeBoth ws s).draws = s.draws + 1 := rfl

/-! ### A command placed to run next -/

@[simp] theorem withFetchWord_phase (s : State) (nbits w : Nat) :
    (s.withFetchWord nbits w).phase = .busy := rfl

@[simp] theorem withFetchWord_cmd (s : State) (nbits w : Nat) :
    (s.withFetchWord nbits w).cmd = BitVec.ofNat 32 (w % 2 ^ nbits) &&& cmdMask := rfl

@[simp] theorem withFetchWord_done (s : State) (nbits w : Nat) :
    (s.withFetchWord nbits w).done = false := rfl

@[simp] theorem withFetchWord_err (s : State) (nbits w : Nat) :
    (s.withFetchWord nbits w).err = false := rfl

@[simp] theorem withFetchWord_ign (s : State) (nbits w : Nat) :
    (s.withFetchWord nbits w).ign = s.ign := rfl

@[simp] theorem withFetchWord_errCode (s : State) (nbits w : Nat) :
    (s.withFetchWord nbits w).errCode = .noError := rfl

@[simp] theorem withFetchWord_srcAddr (s : State) (nbits w : Nat) :
    (s.withFetchWord nbits w).srcAddr = s.srcAddr := rfl

@[simp] theorem withFetchWord_srcLen (s : State) (nbits w : Nat) :
    (s.withFetchWord nbits w).srcLen = s.srcLen := rfl

@[simp] theorem withFetchWord_dstAddr (s : State) (nbits w : Nat) :
    (s.withFetchWord nbits w).dstAddr = s.dstAddr := rfl

@[simp] theorem withFetchWord_dstCap (s : State) (nbits w : Nat) :
    (s.withFetchWord nbits w).dstCap = s.dstCap := rfl

@[simp] theorem withFetchWord_excAddr (s : State) (nbits w : Nat) :
    (s.withFetchWord nbits w).excAddr = s.excAddr := rfl

@[simp] theorem withFetchWord_excCur (s : State) (nbits w : Nat) :
    (s.withFetchWord nbits w).excCur = s.excCur := rfl

@[simp] theorem withFetchWord_excEnd (s : State) (nbits w : Nat) :
    (s.withFetchWord nbits w).excEnd = s.excEnd := rfl

@[simp] theorem withFetchWord_first (s : State) (nbits w : Nat) :
    (s.withFetchWord nbits w).first = s.first := rfl

@[simp] theorem withFetchWord_sampleSel (s : State) (nbits w : Nat) :
    (s.withFetchWord nbits w).sampleSel = s.sampleSel := rfl

@[simp] theorem withFetchWord_result0 (s : State) (nbits w : Nat) :
    (s.withFetchWord nbits w).result0 = s.result0 := rfl

@[simp] theorem withFetchWord_result1 (s : State) (nbits w : Nat) :
    (s.withFetchWord nbits w).result1 = s.result1 := rfl

@[simp] theorem withFetchWord_result2 (s : State) (nbits w : Nat) :
    (s.withFetchWord nbits w).result2 = s.result2 := rfl

@[simp] theorem withFetchWord_scratch (s : State) (nbits w : Nat) :
    (s.withFetchWord nbits w).scratch = s.scratch := rfl

@[simp] theorem withFetchWord_params (s : State) (nbits w : Nat) :
    (s.withFetchWord nbits w).params = s.params := rfl

@[simp] theorem withFetchWord_mem (s : State) (nbits w : Nat) :
    (s.withFetchWord nbits w).mem = s.mem := rfl

@[simp] theorem withFetchWord_script (s : State) (nbits w : Nat) :
    (s.withFetchWord nbits w).script = .engine :: s.script := rfl

@[simp] theorem withFetchWord_reads (s : State) (nbits w : Nat) :
    (s.withFetchWord nbits w).reads = s.reads := rfl

@[simp] theorem withFetchWord_raced (s : State) (nbits w : Nat) :
    (s.withFetchWord nbits w).raced = false := rfl

@[simp] theorem withFetchWord_draws (s : State) (nbits w : Nat) :
    (s.withFetchWord nbits w).draws = s.draws := rfl

end Sys2Proof.Machine
end

