-- ==== Sys2Proof/Laws/Ops.lean ====
section
/-! SUPPORT. Everything each shared operation can do, said once: completion, guarded register writes, host register
writes, the running command of another instance, the engine's turn, the step, the region checks on the registers, and
one block of a chunk frame. -/

namespace Sys2Proof.Machine

/-! ### Completion -/

/-- A raced completion is a success that stores nothing of its own, or an error; either way after free words landed in
the written regions. -/
theorem finishRaced_cases (ws : List Region) (cursor : Bool) (s : State) :
    finishRaced ws cursor s = succeed (racedSuccess cursor s) { s with mem := fillFree s.params s.draws ws s.mem } ∨
      ∃ c, c ≠ .noError ∧ finishRaced ws cursor s =
        finish c 0#32 0#32 0#32 { s with mem := fillFree s.params s.draws ws s.mem } := by
  simp only [finishRaced]
  split
  · exact .inl rfl
  · rename_i hc
    exact .inr ⟨_, hc, rfl⟩

/-- A command ends in its success, in its error, or, if it raced with the host, in a free outcome. -/
theorem complete_cases (ws : List Region) (cursor : Bool) (body : Except ErrCode Success) (s : State) :
    (s.raced = false ∧ ∃ ok, body = .ok ok ∧ complete ws cursor body s = succeed ok s) ∨
      (s.raced = false ∧ ∃ c, body = .error c ∧ complete ws cursor body s = raiseError ws c s) ∨
      (s.raced = true ∧ complete ws cursor body s = finishRaced ws cursor s) := by
  unfold complete
  cases hr : s.raced with
  | true => exact .inr (.inr ⟨rfl, rfl⟩)
  | false =>
    cases body with
    | ok ok => exact .inl ⟨rfl, ok, rfl, rfl⟩
    | error c => exact .inr (.inl ⟨rfl, c, rfl, rfl⟩)

theorem complete_ok {ws : List Region} {cursor : Bool} {body : Except ErrCode Success} {s : State}
    {ok : Success} (hr : s.raced = false) (hb : body = .ok ok) : complete ws cursor body s = succeed ok s := by
  simp [complete, hr, hb]

theorem complete_error {ws : List Region} {cursor : Bool} {body : Except ErrCode Success} {s : State}
    {c : ErrCode} (hr : s.raced = false) (hb : body = .error c) : complete ws cursor body s = raiseError ws c s := by
  simp [complete, hr, hb]

/-! ### The meanings, as completions -/

theorem exec_estimate (s : State) :
    exec .estimate s = .next (complete (writtenRegions .estimate s) (movesCursor .estimate) (estimateBody s) s) := rfl

theorem exec_blkEnc (b : Nat) (s : State) :
    exec (.blkEnc b) s = .next (complete (writtenRegions (.blkEnc b) s) (movesCursor (.blkEnc b)) (blkEncBody b s) s) := rfl

theorem exec_blkDec (b : Nat) (s : State) :
    exec (.blkDec b) s = .next (complete (writtenRegions (.blkDec b) s) (movesCursor (.blkDec b)) (blkDecBody b s) s) := rfl

theorem exec_chunkEnc (s : State) :
    exec .chunkEnc s = .next (complete (writtenRegions .chunkEnc s) (movesCursor .chunkEnc) (chunkEncBody s) s) := rfl

theorem exec_chunkDec (s : State) :
    exec .chunkDec s = .next (complete (writtenRegions .chunkDec s) (movesCursor .chunkDec) (chunkDecBody s) s) := rfl

theorem exec_arrayEnc (s : State) :
    exec .arrayEnc s = .next (complete (writtenRegions .arrayEnc s) (movesCursor .arrayEnc) (arrayEncBody s) s) := rfl

theorem exec_arrayDec (s : State) :
    exec .arrayDec s = .next (complete (writtenRegions .arrayDec s) (movesCursor .arrayDec) (arrayDecBody s) s) := rfl

theorem exec_reservedOp0 (s : State) : exec .reservedOp0 s = .next (raiseError [] .illegalOp s) := rfl

theorem exec_reservedOp8F (op : Nat) (s : State) : exec (.reservedOp8F op) s = .next (raiseError [] .illegalOp s) := rfl

/-! ### Host accesses -/

theorem guarded_idle {update : State → State} {s : State} (h : s.phase = .idle) : guarded update s = update s := by
  simp [guarded, h]

theorem guarded_busy {update : State → State} {s : State} (h : s.phase = .busy) :
    guarded update s = { s with ign := true } := by
  simp [guarded, h]

/-- A host register write is ignored, or an aligned 32-bit write of a register. -/
theorem busWrite_cases (off : Nat) (width : Width) (v : Word) (s : State) :
    busWrite off width v s = s ∨
      ∃ r, width = .word ∧ regAt off = some r ∧ busWrite off width v s = writeReg r v s := by
  cases width with
  | byte => exact .inl rfl
  | half => exact .inl rfl
  | word =>
    cases h : regAt off with
    | none => exact .inl (by simp [busWrite, h])
    | some r => exact .inr ⟨r, rfl, rfl, by simp [busWrite, h]⟩

@[simp] theorem regAt_regOffset (r : Reg) : regAt (regOffset r) = some r := by
  cases r <;> rfl

/-! ### The step -/

/-- The running command of another instance leaves the state as it is, or frees the outcome of both. -/
theorem peerRuns_cases (rd wr : List Region) (s : State) :
    peerRuns rd wr s = s ∨
      s.phase = .busy ∧ interfere rd wr (readRegions (latched s) s) (writtenRegions (latched s) s) = true ∧
        peerRuns rd wr s = freeBoth wr s := by
  unfold peerRuns
  split
  · exact .inl rfl
  · split
    · exact .inr ⟨‹_›, ‹_›, rfl⟩
    · exact .inl rfl

theorem engineTurn_idle {s : State} (h : s.phase = .idle) : engineTurn s = .next s := by
  simp [engineTurn, h]

theorem engineTurn_busy {s : State} (h : s.phase = .busy) : engineTurn s = exec (latched s) s := by
  simp [engineTurn, h]

theorem step_nil {s : State} (h : s.script = []) : step s = engineTurn s := by
  simp [step, h]

theorem step_cons {s : State} {e : Event} {rest : List Event} (h : s.script = e :: rest) :
    step s = runEvent e s { s with script := rest } := by
  simp [step, h]

/-! ### The region checks, on the registers -/

theorem overlaps_iff {r q : Region} : overlaps r q = true ↔ Shares r.base r.len q.base q.len := by simp [overlaps]

theorem allInRange_blkEnc {b : Nat} {s : State} : allInRange (.blkEnc b) s = true ↔ ¬ BlkEncBeyond b s := by
  simp [allInRange, readRegions, writtenRegions, inRange, regionAt, excRegion, blockLen, bw]

theorem allInRange_blkDec {b : Nat} {s : State} : allInRange (.blkDec b) s = true ↔ ¬ BlkDecBeyond b s := by
  simp [allInRange, readRegions, writtenRegions, inRange, regionAt, excRegion, blockLen, bw]

theorem anyOverlap_blkEnc {b : Nat} {s : State} : anyOverlap (.blkEnc b) s = true ↔ BlkEncShared b s := by
  simp [anyOverlap, clash, clashAmong, readRegions, writtenRegions, overlaps_iff, regionAt, excRegion, blockLen, bw, or_assoc]

theorem anyOverlap_blkDec {b : Nat} {s : State} : anyOverlap (.blkDec b) s = true ↔ BlkDecShared b s := by
  simp [anyOverlap, clash, clashAmong, readRegions, writtenRegions, overlaps_iff, regionAt, excRegion, blockLen, bw]

/-- The commands with one source and one destination region: their checks are those of `FrameBeyond` and
`FrameShared`. -/
theorem frame_checks {i : Instr} {s : State} (h : i ∈ [Instr.chunkEnc, .chunkDec, .arrayEnc, .arrayDec]) :
    (allInRange i s = true ↔ ¬ FrameBeyond s) ∧ (anyOverlap i s = true ↔ FrameShared s) := by
  simp only [List.mem_cons, List.not_mem_nil, or_false] at h
  rcases h with rfl | rfl | rfl | rfl <;>
    simp [allInRange, anyOverlap, clash, clashAmong, readRegions, writtenRegions, inRange, overlaps_iff, srcRegion, dstRegion,
      regionAt]

/-! ### One block of a chunk frame -/

/-- `decodeBlock` in the terms of the statements. -/
theorem decodeBlock_eq (pk : PackFns) (w : List Word) (b T k cur : Nat) :
    decodeBlock pk w b T k cur =
      if headerEnd (blockHeader w b k) < cur then .error .malHeader
      else if b = 32 ∧ headerEnd (blockHeader w b k) ≠ cur then .error .malHeader
      else if w.length < T + headerEnd (blockHeader w b k) then .error .malTruncated
      else
        match blockAnswer pk w b T k cur with
        | .error c => .error c
        | .ok (blk, _) => .ok (blk, headerEnd (blockHeader w b k)) := rfl

end Sys2Proof.Machine
end

