-- ==== Sys2Proof/Laws/Packer.lean ====
section
/-! SUPPORT. Digits, and that the reference packer meets the packer contract (40_primitives.md R88, R93). -/

namespace Sys2Proof.Machine

@[simp] theorem splitDigits_length (B n x : Nat) : (splitDigits B n x).length = n := by
  induction n generalizing x with
  | zero => rfl
  | succ n ih => simp [splitDigits, ih]

theorem mem_splitDigits {B n x d : Nat} (hB : 0 < B) (h : d ∈ splitDigits B n x) : d < B := by
  induction n generalizing x with
  | zero => simp [splitDigits] at h
  | succ n ih =>
    rcases List.mem_cons.mp h with rfl | h
    · exact Nat.mod_lt _ hB
    · exact ih h

/-- Splitting what joining made gives the digits back. -/
theorem splitDigits_joinDigits {B : Nat} {ds : List Nat} (hB : 0 < B) (h : ∀ d ∈ ds, d < B) :
    splitDigits B ds.length (joinDigits B ds) = ds := by
  induction ds with
  | nil => rfl
  | cons d ds ih =>
    have hd := h d (by simp)
    simp only [List.length_cons, splitDigits, joinDigits]
    rw [Nat.add_mul_mod_self_left, Nat.mod_eq_of_lt hd, Nat.add_mul_div_left _ _ hB, Nat.div_eq_of_lt hd,
      Nat.zero_add, ih fun e he => h e (by simp [he])]

/-- Joining what splitting made gives the number back, as far as the digits reach. -/
theorem joinDigits_splitDigits (B n x : Nat) : joinDigits B (splitDigits B n x) = x % B ^ n := by
  induction n generalizing x with
  | zero => simp [splitDigits, joinDigits, Nat.mod_one]
  | succ n ih => rw [splitDigits, joinDigits, ih, Nat.pow_succ', Nat.mod_mul]

theorem joinDigits_lt {B : Nat} {ds : List Nat} (h : ∀ d ∈ ds, d < B) : joinDigits B ds < B ^ ds.length := by
  induction ds with
  | nil => simp [joinDigits]
  | cons d ds ih =>
    have hd := h d (by simp)
    have ih := ih fun e he => h e (by simp [he])
    rw [joinDigits, List.length_cons, Nat.pow_succ']
    have : B * (joinDigits B ds + 1) ≤ B * B ^ ds.length := Nat.mul_le_mul_left _ ih
    rw [Nat.mul_add] at this
    omega

theorem map_toNat_ofNat {ds : List Nat} (h : ∀ d ∈ ds, d < 2 ^ 32) :
    (ds.map (BitVec.ofNat 32)).map BitVec.toNat = ds := by
  induction ds with
  | nil => rfl
  | cons d ds ih =>
    simp only [List.map_cons, BitVec.toNat_ofNat, Nat.mod_eq_of_lt (h d (by simp)),
      ih fun e he => h e (by simp [he])]

@[simp] theorem packOne_length (vs : List Word) (b : Nat) : (packOne vs b).length = b := by simp [packOne]

@[simp] theorem unpackOne_length (ws : List Word) (b : Nat) : (unpackOne ws b).length = 32 := by simp [unpackOne]

/-- A pack's words give its values back, if they fit. -/
theorem unpackOne_packOne {vs : List Word} {b : Nat} (hl : vs.length = 32) (h : ∀ v ∈ vs, v.toNat < 2 ^ b) :
    unpackOne (packOne vs b) b = vs := by
  have hmask : (vs.map fun v => v.toNat % 2 ^ b) = vs.map BitVec.toNat :=
    List.map_congr_left fun v hv => Nat.mod_eq_of_lt (h v hv)
  have hds : ∀ d ∈ vs.map BitVec.toNat, d < 2 ^ b := fun d hd => by
    obtain ⟨v, hv, rfl⟩ := List.mem_map.mp hd
    exact h v hv
  have hjoin := joinDigits_lt hds
  rw [List.length_map, hl, ← Nat.pow_mul, Nat.mul_comm, Nat.pow_mul] at hjoin
  have hsplit := splitDigits_joinDigits (Nat.two_pow_pos b) hds
  rw [List.length_map, hl] at hsplit
  rw [unpackOne, packOne, hmask, map_toNat_ofNat fun d hd => mem_splitDigits (by omega) hd, joinDigits_splitDigits,
    Nat.mod_eq_of_lt hjoin, hsplit, List.map_map]
  exact (List.map_congr_left fun v _ => by simp).trans (List.map_id vs)

theorem unpackOne_range {ws : List Word} {b : Nat} (hb : b ≤ 32) {v : Word} (h : v ∈ unpackOne ws b) :
    v.toNat < 2 ^ b := by
  simp only [unpackOne, List.mem_map] at h
  obtain ⟨d, hd, rfl⟩ := h
  have hlt := mem_splitDigits (Nat.two_pow_pos b) hd
  have : 2 ^ b ≤ 2 ^ 32 := Nat.pow_le_pow_right (by omega) hb
  rwa [BitVec.toNat_ofNat, Nat.mod_eq_of_lt (by omega)]

/-- At width 0 every value of a pack is 0. -/
theorem unpackOne_zero (ws : List Word) : unpackOne ws 0 = List.replicate 32 0#32 := by
  apply List.eq_replicate_of_mem
  intro v hv
  have := unpackOne_range (by omega) hv
  exact BitVec.eq_of_toNat_eq (by simp; omega)

theorem slice_length (xs : List Word) (i j : Nat) : (slice xs i j).length = min (j - i) (xs.length - i) := by
  simp [slice]

theorem mem_slice {xs : List Word} {i j : Nat} {v : Word} (h : v ∈ slice xs i j) : v ∈ xs :=
  List.mem_of_mem_drop (List.mem_of_mem_take h)

/-- The four slices of a list of `4·n` words, one after the other, are the list. -/
theorem slices_join {xs : List Word} {n : Nat} (h : xs.length = 4 * n) :
    slice xs (0 * n) (0 * n + n) ++ slice xs (1 * n) (1 * n + n) ++ slice xs (2 * n) (2 * n + n)
      ++ slice xs (3 * n) (3 * n + n) = xs := by
  have last : (xs.drop (3 * n)).take n = xs.drop (3 * n) := List.take_of_length_le (by simp; omega)
  have step : ∀ k, (xs.drop (k * n)).take n ++ xs.drop ((k + 1) * n) = xs.drop (k * n) := fun k => by
    have := List.take_append_drop n (xs.drop (k * n))
    rwa [List.drop_drop, show k * n + n = (k + 1) * n by ring] at this
  simp only [slice, Nat.add_sub_cancel_left, last, List.append_assoc]
  rw [step 2, step 1, step 0]
  simp

theorem range_four : List.range 4 = [0, 1, 2, 3] := rfl

theorem packRef_length (P : List Word) (b : Nat) : (packRef P b).length = bw b := by
  simp [packRef, range_four, bw]
  omega

theorem unpackRef_length (w : List Word) (b : Nat) : (unpackRef w b).length = 128 := by
  simp [unpackRef, range_four]

theorem slice_here (xs ys : List Word) : slice (xs ++ ys) 0 xs.length = xs := by simp [slice]

theorem slice_skip (xs ys : List Word) (i j : Nat) :
    slice (xs ++ ys) (xs.length + i) (xs.length + j) = slice ys i j := by
  rw [slice, List.drop_append, List.drop_eq_nil_of_le (by omega), show xs.length + i - xs.length = i by omega,
    show xs.length + j - (xs.length + i) = j - i by omega, List.nil_append, slice]

/-- The slices of four equal pieces are the pieces. -/
theorem slice_four {p0 p1 p2 p3 : List Word} {n : Nat} (h0 : p0.length = n) (h1 : p1.length = n)
    (h2 : p2.length = n) (h3 : p3.length = n) :
    slice (p0 ++ (p1 ++ (p2 ++ p3))) (0 * n) (0 * n + n) = p0 ∧
    slice (p0 ++ (p1 ++ (p2 ++ p3))) (1 * n) (1 * n + n) = p1 ∧
    slice (p0 ++ (p1 ++ (p2 ++ p3))) (2 * n) (2 * n + n) = p2 ∧
    slice (p0 ++ (p1 ++ (p2 ++ p3))) (3 * n) (3 * n + n) = p3 := by
  have s0 := slice_here p0 (p1 ++ (p2 ++ p3))
  have s1 := slice_here p1 (p2 ++ p3)
  have s2 := slice_here p2 p3
  have s3 := slice_here p3 []
  rw [h0] at s0
  rw [h1] at s1
  rw [h2] at s2
  rw [h3, List.append_nil] at s3
  have k1 := slice_skip p0 (p1 ++ (p2 ++ p3)) 0 n
  have k2 := slice_skip p0 (p1 ++ (p2 ++ p3)) n (n + n)
  have k2' := slice_skip p1 (p2 ++ p3) 0 n
  have k3 := slice_skip p0 (p1 ++ (p2 ++ p3)) (n + n) (n + n + n)
  have k3' := slice_skip p1 (p2 ++ p3) n (n + n)
  have k3'' := slice_skip p2 p3 0 n
  rw [h0] at k1 k2 k3
  rw [h1] at k2' k3'
  rw [h2] at k3''
  simp only [Nat.add_zero] at k1 k2 k2' k3 k3' k3''
  refine ⟨by simpa using s0, by simpa using k1.trans s1, ?_, ?_⟩
  · rw [show 2 * n = n + n by omega, show n + n + n = n + (n + n) by omega, k2, k2', s2]
  · rw [show 3 * n = n + (n + n) by omega, show n + (n + n) + n = n + (n + n + n) by omega, k3,
      show n + n + n = n + (n + n) by omega, k3', k3'', s3]

/-- `PACK_REF` gives an in-range block back (R88 clause 1). -/
theorem unpackRef_packRef {P : List Word} {b : Nat} (hl : P.length = 128)
    (h : ∀ v ∈ P, v.toNat < 2 ^ b) : unpackRef (packRef P b) b = P := by
  have hs : ∀ p, p < 4 → unpackOne (packOne (slice P (32 * p) (32 * p + 32)) b) b = slice P (32 * p) (32 * p + 32) :=
    fun p hp => unpackOne_packOne (by rw [slice_length]; omega) (fun v hv => h v (mem_slice hv))
  simp only [unpackRef, packRef, range_four, List.flatMap_cons, List.flatMap_nil, List.append_nil]
  obtain ⟨e0, e1, e2, e3⟩ := slice_four (n := b) (packOne_length (slice P (32 * 0) (32 * 0 + 32)) b)
    (packOne_length (slice P (32 * 1) (32 * 1 + 32)) b) (packOne_length (slice P (32 * 2) (32 * 2 + 32)) b)
    (packOne_length (slice P (32 * 3) (32 * 3 + 32)) b)
  rw [e0, e1, e2, e3, hs 0 (by omega), hs 1 (by omega), hs 2 (by omega), hs 3 (by omega)]
  have := slices_join (xs := P) (n := 32) (by omega)
  simpa [List.append_assoc, Nat.mul_comm] using this

/-- At width 32 the reference unpacking is the identity (R92, R88 clause 5). -/
theorem unpackRef_raw {w : List Word} (h : w.length = 128) : unpackRef w 32 = w := by
  have one : ∀ ws : List Word, ws.length = 32 → unpackOne ws 32 = ws := fun ws hl => by
    have := splitDigits_joinDigits (B := 2 ^ 32) (ds := ws.map BitVec.toNat) (by omega) fun d hd => by
      obtain ⟨v, _, rfl⟩ := List.mem_map.mp hd
      exact v.isLt
    rw [List.length_map, hl] at this
    rw [unpackOne, this, List.map_map]
    exact (List.map_congr_left fun v _ => by simp).trans (List.map_id ws)
  have hs : ∀ p, p < 4 → unpackOne (slice w (p * 32) (p * 32 + 32)) 32 = slice w (p * 32) (p * 32 + 32) :=
    fun p hp => one _ (by rw [slice_length]; omega)
  simp only [unpackRef, range_four, List.flatMap_cons, List.flatMap_nil, List.append_nil]
  rw [hs 0 (by omega), hs 1 (by omega), hs 2 (by omega), hs 3 (by omega)]
  have := slices_join (xs := w) (n := 32) (by omega)
  simpa [List.append_assoc] using this

theorem unpackRef_range {w : List Word} {b : Nat} (hb : b ≤ 32) : ∀ v ∈ unpackRef w b, v.toNat < 2 ^ b := by
  intro v hv
  simp only [unpackRef, List.mem_flatMap] at hv
  obtain ⟨p, _, hp⟩ := hv
  exact unpackOne_range hb hp

/-- `PACK_REF` meets every clause of R88, as R93 says. -/
theorem refFns_contract : refFns.Contract where
  lossless P b hl _ h := unpackRef_packRef hl h
  range w b hb _ := unpackRef_range (by omega)
  packSize P b _ _ := packRef_length P b
  unpackSize w b _ _ := unpackRef_length w b
  packZero P _ := List.eq_nil_of_length_eq_zero (packRef_length P 0)
  unpackZero := by
    simp only [refFns, unpackRef, range_four, List.flatMap_cons, List.flatMap_nil, unpackOne_zero]
    rfl
  unpackRaw w h := unpackRef_raw h

end Sys2Proof.Machine
end

