-- ==== Sys2Proof/Laws/PerInstr.lean ====
section
/-! SUPPORT. What holds of every command as syntax: the command word the encoder writes has its reserved bits clear
(30_encoding.md R69, R85). -/

namespace Sys2Proof.Laws.EncodeReserved

/-- Bits 7:4 and 31:14 of the command word of a well-formed command are 0 (R69). -/
def Statement (i : Instr) : Prop := i.wf = true → encode i &&& cmdMask = encode i

theorem estimate : Statement .estimate := fun _ => by decide

theorem blkEnc (b : Nat) : Statement (.blkEnc b) := fun h => by
  have hb : b < 64 := by simpa [Instr.wf] using h
  have all : ∀ c : Fin 64, encode (.blkEnc c.1) &&& cmdMask = encode (.blkEnc c.1) := by decide
  exact all ⟨b, hb⟩

theorem blkDec (b : Nat) : Statement (.blkDec b) := fun h => by
  have hb : b < 64 := by simpa [Instr.wf] using h
  have all : ∀ c : Fin 64, encode (.blkDec c.1) &&& cmdMask = encode (.blkDec c.1) := by decide
  exact all ⟨b, hb⟩

theorem chunkEnc : Statement .chunkEnc := fun _ => by decide

theorem chunkDec : Statement .chunkDec := fun _ => by decide

theorem arrayEnc : Statement .arrayEnc := fun _ => by decide

theorem arrayDec : Statement .arrayDec := fun _ => by decide

theorem reservedOp0 : Statement .reservedOp0 := fun _ => by decide

theorem reservedOp8F (op : Nat) : Statement (.reservedOp8F op) := fun h => by
  have hop : op < 16 := by simp [Instr.wf] at h; omega
  have all : ∀ c : Fin 16, encode (.reservedOp8F c.1) &&& cmdMask = encode (.reservedOp8F c.1) := by decide
  exact all ⟨op, hop⟩

end Sys2Proof.Laws.EncodeReserved
end

