-- ==== Sys2Proof/Tests/Slice0.lean ====
section
/-! SUPPORT. The model's own tests: words and vectors written out from the spec, and for every statement that has
hypotheses a concrete case that meets them. Expected values come from spec/95_test_vectors.md (vector named in the
docstring) or from the rule named. -/

namespace Sys2Proof.Tests

open Sys2Proof.Machine

set_option Elab.async false

/-! ### Helpers -/

/-- The outcome is a next state of which `p` holds. -/
def next? (o : Host.Outcome State Fault Refusal) (p : State → Bool) : Bool :=
  match o with
  | .next t => p t
  | .fault _ => false
  | .refused _ => false

/-- The result is a value of which `p` holds. -/
def ok? {α : Type} (e : Except ErrCode α) (p : α → Bool) : Bool :=
  match e with
  | .ok r => p r
  | .error _ => false

/-- The result is the error `c`. -/
def err? {α : Type} (e : Except ErrCode α) (c : ErrCode) : Bool :=
  match e with
  | .ok _ => false
  | .error d => decide (d = c)

theorem ok_of_ok? {α : Type} {e : Except ErrCode α} {p : α → Bool} (h : ok? e p = true) : ∃ r, e = .ok r ∧ p r = true := by
  cases e with
  | ok r => exact ⟨r, rfl, h⟩
  | error c => cases h

theorem error_of_err? {α : Type} {e : Except ErrCode α} {c : ErrCode} (h : err? e c = true) : e = .error c := by
  cases e with
  | ok r => cases h
  | error d => rw [of_decide_eq_true (show decide (d = c) = true from h)]

/-- The words `ws` placed at word address `a`, little-endian. -/
def place (a : Nat) (ws : List Word) (s : State) : State := { s with mem := memWrite .little s.mem a ws }

/-- `STATUS`, `RESULT0`, `RESULT1`, `RESULT2`. -/
def answers (t : State) : List Word := [readReg .status t, t.result0, t.result1, t.result2]

/-- The words at `a .. a + n − 1`. -/
def wordsAt (a n : Nat) (t : State) : List Word := memRead .little t.mem a n

/-- Scenario B's block, `B5`. -/
def blockB : List Word := List.replicate 10 5#32 ++ [4000000000#32] ++ List.replicate 117 5#32

/-- `P_B`, the payload of `B5` at width 3. -/
def payloadB : List Word :=
  [0x2DB6DB6D#32, 0xDB6DB6DA#32, 0xB6DB6DB6#32, 0x6DB6DB6D#32, 0xDB6DB6DB#32, 0xB6DB6DB6#32,
   0x6DB6DB6D#32, 0xDB6DB6DB#32, 0xB6DB6DB6#32, 0x6DB6DB6D#32, 0xDB6DB6DB#32, 0xB6DB6DB6#32]

/-- The registers of the block command vectors, with the block of K4 (zeros except 1 at 3 and 9 at 6) at 0x1000. -/
def encState : State :=
  place 0x1003 [1#32] <| place 0x1006 [9#32]
    { State.reset with srcAddr := 0x1000#32, dstAddr := 0x4000#32, excAddr := 0x5000#32, excEnd := 64#32 }

/-- The registers of BD5 and BD6, with 0..9 at 0x5000. -/
def decState : State :=
  place 0x5000 [0#32, 1#32, 2#32, 3#32, 4#32, 5#32, 6#32, 7#32, 8#32, 9#32]
    { State.reset with
      srcAddr := 0x4000#32, dstAddr := 0x6000#32, excAddr := 0x5000#32, excEnd := 10#32, first := 120#32 }

/-- Source 0x1000 of `n` words and destination 0x2000 of capacity `cap`, the words `ws` at 0x1000. -/
def frameState (ws : List Word) (n cap : Word) : State :=
  place 0x1000 ws { State.reset with srcAddr := 0x1000#32, srcLen := n, dstAddr := 0x2000#32, dstCap := cap }

/-- A command running: CHUNK_ENC over (0x1000, 128) into (0x2000, 64), as CE1. -/
def busyState : State := writeReg .cmd 0x4#32 (frameState [] 128#32 64#32)

/-! ### Well-formed commands -/

/-- R69: `B` has 6 bits. -/
theorem test_wf_blkEnc : (Instr.blkEnc 63).wf = true ∧ (Instr.blkEnc 64).wf = false := by decide

/-- R69: `B` has 6 bits. -/
theorem test_wf_blkDec : (Instr.blkDec 63).wf = true ∧ (Instr.blkDec 64).wf = false := by decide

/-- R70: the second reserved row is 8..15. -/
theorem test_wf_reserved :
    (Instr.reservedOp8F 8).wf = true ∧ (Instr.reservedOp8F 15).wf = true ∧ (Instr.reservedOp8F 7).wf = false ∧
      (Instr.reservedOp8F 16).wf = false := by decide

/-! ### Command words (R70; R85's worked words; I4, I5, E24) -/

theorem test_decode_estimate : decode 0x00000001#32 = .estimate ∧ decode 0x00003F01#32 = .estimate := by decide
theorem test_decode_blkEnc : decode 0x00000302#32 = .blkEnc 3 ∧ decode 0x0000FF02#32 = .blkEnc 63 := by decide
theorem test_decode_blkDec : decode 0x00000203#32 = .blkDec 2 ∧ decode 0x00002003#32 = .blkDec 32 := by decide
theorem test_decode_chunkEnc : decode 0x00000004#32 = .chunkEnc := by decide
theorem test_decode_chunkDec : decode 0x00000005#32 = .chunkDec := by decide
theorem test_decode_arrayEnc : decode 0x00000006#32 = .arrayEnc := by decide
theorem test_decode_arrayDec : decode 0x00000007#32 = .arrayDec := by decide
theorem test_decode_reservedOp0 : decode 0x00000000#32 = .reservedOp0 ∧ decode 0xFFFFFFF0#32 = .reservedOp0 := by decide
theorem test_decode_reservedOp8F :
    decode 0x00000008#32 = .reservedOp8F 8 ∧ decode 0xFFFFFFFF#32 = .reservedOp8F 15 := by decide
/-- I5: reserved bits set. -/
theorem test_decode_reserved_bits : decode 0x000000F1#32 = .estimate := by decide
theorem test_encode_words :
    encode (.blkEnc 3) = 0x00000302#32 ∧ encode (.blkDec 2) = 0x00000203#32 ∧ encode .arrayEnc = 0x00000006#32 := by
  decide
theorem test_decodeTableWord :
    decodeTableWord 32 0x302 = some (.blkEnc 3) ∧ decodeTableWord 8 7 = some .arrayDec ∧
      decodeTableWord 40 7 = none := by decide

/-! ### Registers and reset -/

/-- I1. -/
theorem test_reset_registers :
    readReg .id State.reset = 0x50464F52#32 ∧ readReg .status State.reset = 0#32 ∧
      readReg .sampleSel State.reset = 0#32 := by decide

/-- I4: the command word as read back. -/
theorem test_issue_masks : readReg .cmd (busWrite 0x04 .word 0xFFFFFFFF#32 State.reset) = 0x00003F0F#32 := by decide

/-- I14: `STATUS` right after the issue. -/
theorem test_issue_busy : busRead 0x08 .word busyState = 0x00000001#32 := by decide

/-- I11, I12: writes while BUSY. -/
theorem test_busy_write :
    readReg .status (busWrite 0x10 .word 7#32 busyState) = 0x00000009#32 ∧
      readReg .srcLen (busWrite 0x10 .word 7#32 busyState) = 128#32 ∧
      readReg .cmd (busWrite 0x04 .word 8#32 busyState) = 4#32 := by decide

/-- I9, I10. -/
theorem test_id_and_hole :
    readReg .status (busWrite 0x00 .word 0x12345678#32 busyState) = 0x00000001#32 ∧
      busRead 0x3C .word busyState = 0#32 := by decide

/-- R43: narrow and misaligned accesses. -/
theorem test_narrow_access :
    busRead 0x00 .half State.reset = 0#32 ∧ busRead 0x01 .word State.reset = 0#32 ∧
      readReg .srcAddr (busWrite 0x0C .byte 5#32 State.reset) = 0#32 ∧
      readReg .srcAddr (busWrite 0x0E .word 5#32 State.reset) = 0#32 := by decide

/-- I6, I7, I8: acknowledging an error, here `MAL_HEADER`. -/
theorem test_status_w1c :
    let s := { State.reset with done := true, err := true, errCode := .malHeader }
    readReg .status s = 0x00000A06#32 ∧ readReg .status (writeReg .status 4#32 s) = 0x00000002#32 ∧
      readReg .status (writeReg .status 2#32 s) = 0x00000A04#32 ∧
      readReg .status (writeReg .status 0xE#32 s) = 0#32 := by decide

/-- I13, R162: a reset while BUSY; words outside (0x2000, 64) are unchanged. -/
theorem test_reset_while_busy :
    let t := platformReset (place 0x1000 [5#32] busyState)
    readReg .status t = 0#32 ∧ readReg .srcLen t = 0#32 ∧ t.phase = .idle := by decide

/-- R54: the word 0x50464F52 as the host's bytes, in both byte orders. -/
theorem test_byte_order :
    (readByte (memWrite .big [] 2 [0x50464F52#32]) 8 = 0x50#8 ∧
      readByte (memWrite .little [] 2 [0x50464F52#32]) 8 = 0x52#8) ∧
      readWord .big (memWrite .big [] 2 [0x50464F52#32]) 2 = 0x50464F52#32 := by decide

/-- The canonical form: writing 0, what an unlisted byte reads as, removes the cells. -/
theorem test_memory_canonical : memWrite .little (memWrite .little [] 3 [7#32]) 3 [0#32] = [] := by decide

/-! ### Primitives -/

/-- R86's examples. -/
theorem test_bitlen :
    bitlen 0#32 = 0 ∧ bitlen 5#32 = 3 ∧ bitlen 4000000000#32 = 32 ∧ bitlen 0x80000000#32 = 32 := by decide

/-- R94, first example. -/
theorem test_pack_width1 : packRef (List.replicate 128 1#32) 1 = List.replicate 4 0xFFFFFFFF#32 := by decide +kernel

/-- R94, second example. -/
theorem test_pack_width2 :
    packRef ((List.range 128).map fun i => BitVec.ofNat 32 (i % 4)) 2 = List.replicate 8 0xE4E4E4E4#32 := by
  decide +kernel

/-- R94, third example, packed and unpacked. -/
theorem test_pack_width3 :
    packRef (List.replicate 10 5#32 ++ [0#32] ++ List.replicate 117 5#32) 3 = payloadB ∧
      unpackRef payloadB 3 = List.replicate 10 5#32 ++ [0#32] ++ List.replicate 117 5#32 := by decide +kernel

/-! ### Estimator -/

/-- E3's costs: with the compensation (`cost(2)`, `cost(0)`) and without (`cost(3)`). -/
theorem test_costs : cost 128 1 3 = 13 / 4 ∧ cost 128 128 2 = 1018 ∧ cost 128 128 0 = 4064 := by decide +kernel

/-- E10: the tie of 10 and 11 goes to the smaller. -/
theorem test_estimate_tie :
    estimate ([0xFFFFFFFF#32] ++ List.replicate 126 1#32 ++ [0xFFFFFFFF#32]) 0#32 = 10 := by decide +kernel

/-- E15, E18, E19: window starts. -/
theorem test_window :
    sampleStart 131072 32768#32 = 32768 ∧ sampleStart 131072 131073#32 = 65536 ∧
      sampleStart 131072 0xFFFFFFFF#32 = 0 ∧ sampleStart 128 77#32 = 0 := by decide

/-- E9, as the end of program P3. -/
theorem test_exec_estimate :
    next? (exec .estimate (frameState [256#32, 0#32, 256#32, 128#32, 1#32, 2#32] 6#32 0#32))
      (fun t => answers t == [2#32, 9#32, 6#32, 0#32]) = true := by decide +kernel

/-- E20. -/
theorem test_exec_estimate_fault :
    next? (exec .estimate { State.reset with srcAddr := 0xFFFFFFFF#32, srcLen := 2#32 })
      (fun t => answers t == [0x406#32, 0#32, 0#32, 0#32]) = true := by decide

/-! ### Patcher -/

/-- K2. -/
theorem test_compress_scenarioB :
    (compressBlock refFns blockB 3).words = payloadB ∧ (compressBlock refFns blockB 3).first = 10 ∧
      (compressBlock refFns blockB 3).excs = [0xEE6B2800#32] := by decide +kernel

/-- K3: Scenario C, with 31 compulsory exceptions. -/
theorem test_compress_scenarioC :
    let r := compressBlock refFns ([100#32] ++ List.replicate 126 1#32 ++ [200#32]) 2
    r.first = 0 ∧ r.excs = [0x64#32] ++ List.replicate 31 1#32 ++ [0xC8#32] ∧
      r.words = List.replicate 7 0x57575757#32 ++ [0x16575757#32] := by decide +kernel

/-- K4, through memory: the sink, the cursor and the results. -/
theorem test_exec_blkEnc :
    next? (exec (.blkEnc 0) encState)
      (fun t => answers t == [2#32, 3#32, 4#32, 0#32] && wordsAt 0x5000 5 t == [1#32, 0#32, 0#32, 9#32, 0#32]
        && t.excCur == 4#32) = true := by decide +kernel

/-- K4's four exceptions, with three words free in the sink (R122): OUTPUT_OVERFLOW. -/
theorem test_exec_blkEnc_overflow :
    next? (exec (.blkEnc 0) { encState with excEnd := 3#32 })
      (fun t => answers t == [0x606#32, 0#32, 0#32, 0#32] && t.excCur == 0#32) = true := by decide +kernel

/-- BD6 (K21). -/
theorem test_exec_blkDec :
    next? (exec (.blkDec 0) { decState with excEnd := 8#32 })
      (fun t => answers t == [2#32, 8#32, 0#32, 0#32] && t.excCur == 8#32 &&
        wordsAt 0x6077 9 t == [0#32, 0#32, 1#32, 2#32, 3#32, 4#32, 5#32, 6#32, 7#32]) = true := by decide +kernel

/-- BD5 (K20). -/
theorem test_exec_blkDec_chain :
    next? (exec (.blkDec 0) decState) (fun t => answers t == [0xB06#32, 0#32, 0#32, 0#32] && t.excCur == 0#32) = true := by
  decide +kernel

/-! ### Chunks and arrays -/

/-- C2. -/
theorem test_encodeChunk_scenarioB :
    (encodeChunk refFns blockB 0#32).out = [0x80#32, 0x3#32, 0x8A#32] ++ payloadB ++ [0xEE6B2800#32] := by decide +kernel

/-- D13: a header whose count is 0. -/
theorem test_decodeChunk_empty_slice :
    ok? (decodeChunk refFns ([0x80#32, 0x3#32, 0x0A#32] ++ payloadB ++ [0xEE6B2800#32]) 128)
      (fun r => decide (wordAt r.vals 10 = 0#32 ∧ wordAt r.vals 11 = 5#32 ∧ r.used = 15)) = true := by decide +kernel

/-- C1. -/
theorem test_exec_chunkEnc :
    next? (exec .chunkEnc (frameState [] 128#32 64#32))
      (fun t => answers t == [2#32, 3#32, 0#32, 0#32] && wordsAt 0x2000 4 t == [0x80#32, 0#32, 0#32, 0#32]) = true := by
  decide +kernel

/-- CE4. -/
theorem test_exec_chunkEnc_length :
    next? (exec .chunkEnc (frameState [] 100#32 64#32)) (fun t => answers t == [0x306#32, 0#32, 0#32, 0#32]) = true := by
  decide +kernel

/-- D17. -/
theorem test_exec_chunkDec :
    next? (exec .chunkDec
        (frameState [0x80#32, 0#32, 0x478#32, 0#32, 1#32, 2#32, 3#32, 4#32, 5#32, 6#32, 7#32] 11#32 128#32))
      (fun t => answers t == [2#32, 11#32, 128#32, 0#32] &&
        wordsAt 0x2077 9 t == [0#32, 0#32, 1#32, 2#32, 3#32, 4#32, 5#32, 6#32, 7#32]) = true := by decide +kernel

/-- D15 (CD4). -/
theorem test_exec_chunkDec_header :
    next? (exec .chunkDec (frameState [0x100#32, 0#32, 0x100#32, 0x80#32, 1#32, 2#32] 6#32 256#32))
      (fun t => answers t == [0xA06#32, 0#32, 0#32, 0#32]) = true := by decide +kernel

/-- A3. -/
theorem test_exec_arrayEnc :
    next? (exec .arrayEnc (frameState [] 128#32 64#32))
      (fun t => answers t == [2#32, 4#32, 1#32, 0#32] && wordsAt 0x2000 4 t == [0x80#32, 0x80#32, 0#32, 0#32]) = true := by
  decide +kernel

/-- AE2: even the length word needs room. -/
theorem test_exec_arrayEnc_overflow :
    next? (exec .arrayEnc (frameState [] 0#32 0#32)) (fun t => answers t == [0x606#32, 0#32, 0#32, 0#32]) = true := by
  decide +kernel

/-- AD9: a split into two chunks that is not the greedy one. -/
theorem test_exec_arrayDec :
    next? (exec .arrayDec (frameState [0x100#32, 0x80#32, 0#32, 0#32, 0x80#32, 0#32, 0#32] 7#32 256#32))
      (fun t => answers t == [2#32, 7#32, 256#32, 2#32]) = true := by decide +kernel

/-- AD7: a chunk longer than the values owed. -/
theorem test_exec_arrayDec_length :
    next? (exec .arrayDec (frameState [0x80#32, 0x100#32, 0#32, 0#32, 0#32] 5#32 1024#32))
      (fun t => answers t == [0x806#32, 0#32, 0#32, 0#32]) = true := by decide +kernel

/-! ### Reserved selectors and the step -/

/-- I2. -/
theorem test_exec_reservedOp0 :
    next? (exec .reservedOp0 State.reset) (fun t => answers t == [0x106#32, 0#32, 0#32, 0#32]) = true := by decide

/-- I3. -/
theorem test_exec_reservedOp8F :
    next? (exec (.reservedOp8F 9) State.reset) (fun t => answers t == [0x106#32, 0#32, 0#32, 0#32]) = true := by decide

/-- I4, through the step: the command is issued and runs at the engine's turn. -/
theorem test_step_runs_command :
    next? (step (State.reset.withFetchWord 32 0xFFFFFFFF))
      (fun t => answers t == [0x106#32, 0#32, 0#32, 0#32] && t.cmd == 0x3F0F#32) = true := by decide

/-- R84, R85: the host accesses of `RUN BLK_ENC b=3` and of `SETREGION SRC, 0x1000, 128` (program P2's table). -/
theorem test_script_lines :
    lineEvents 0 (.run (.blkEnc 3)) = [.regWrite 0x04 .word 0x302#32, .wait] ∧
      lineEvents 0 (.setRegionSrc 0x1000#32 128#32) =
        [.regWrite 0x0C .word 0x1000#32, .regWrite 0x10 .word 128#32] := by decide

/-! ### Witnesses: states and operands that meet the hypotheses of the statements, clause by clause -/

/-- The packer contract, wherever a statement assumes it, is met by the reference packer. -/
theorem test_meets_contract : refFns.Contract := refFns_contract

theorem test_meets_DecodeEncode :
    (Instr.blkEnc 63).wf = true ∧ (Instr.blkDec 0).wf = true ∧ (Instr.reservedOp8F 15).wf = true ∧
      Instr.estimate.wf = true := by decide

theorem test_meets_DecodeTotal : decode 0x3F02#32 = .blkEnc 63 ∧ decode 0xFFFF20F3#32 = .blkDec 32 := by decide

/-- Also for `ResetRegisters`, `Issue` and `RegisterReadBack`. -/
theorem test_meets_ReservedBitsIgnored : State.reset.phase = .idle := by decide

theorem test_meets_ResetWhileBusy :
    busyState.phase = .busy ∧
      inRegions (writtenRegions (latched busyState) busyState) 0x2000 = true ∧
      inRegions (writtenRegions (latched busyState) busyState) 0x203F = true ∧ 0x203F < busyState.params.memWords ∧
      inRegions (writtenRegions (latched busyState) busyState) 0x2040 = false := by decide

theorem test_meets_RegisterAccessRules :
    (Width.half ≠ Width.word) ∧ ((0x02 : Nat) % 4 ≠ 0) ∧ (0x3C : Nat) ≤ 0x3C := by decide

theorem test_meets_RegisterReadBack :
    State.reset.phase = .idle ∧ Reg.srcAddr ∉ [Reg.id, Reg.cmd, Reg.status, Reg.result0, Reg.result1, Reg.result2] ∧
      Reg.status ≠ Reg.srcAddr ∧ Reg.result2 ∈ [Reg.id, Reg.result0, Reg.result1, Reg.result2] := by decide

theorem test_meets_BusyWriteIgnored :
    busyState.phase = .busy ∧ Reg.cmd ∉ [Reg.id, Reg.status, Reg.result0, Reg.result1, Reg.result2] ∧
      Reg.sampleSel ∉ [Reg.id, Reg.status, Reg.result0, Reg.result1, Reg.result2] := by decide

theorem test_meets_StatusInvariants :
    StatusInv (State.reset.withFetchWord 32 1) ∧ ∃ t, step (State.reset.withFetchWord 32 1) = .next t :=
  ⟨by unfold StatusInv; decide, _, rfl⟩

theorem test_meets_StepKeepsInv :
    MachineInv (State.reset.withFetchWord 32 1) ∧ ∃ t, step (State.reset.withFetchWord 32 1) = .next t :=
  ⟨⟨by decide, by decide, by decide, by decide, by decide, by decide, by decide, by decide⟩, _, rfl⟩

theorem test_meets_HostMemory_idle :
    State.reset.phase = .idle ∧ 0xFFFFFFFF < State.reset.params.memWords := by decide

theorem test_meets_HostMemory_busy :
    busyState.phase = .busy ∧ inRegions (writtenRegions (latched busyState) busyState) 0x203F = true ∧
      inRegions (writtenRegions (latched busyState) busyState) 0x107F = false ∧
      inRegions (readRegions (latched busyState) busyState ++ writtenRegions (latched busyState) busyState) 0x107F = true ∧
      inRegions (readRegions (latched busyState) busyState ++ writtenRegions (latched busyState) busyState) 0x1080 = false ∧
      0x203F < busyState.params.memWords := by decide

/-- R156: another instance that only reads a word of the written region of the running CHUNK_ENC, one that could write a
word of its source, and one whose regions end where it begins. -/
theorem test_meets_HostMemory_peer :
    Interferes [⟨0x203F, 1⟩] [] busyState ∧ Interferes [] [⟨0x0FF0, 17⟩] busyState ∧
      peerRuns [⟨0x1000, 128⟩, ⟨0x2040, 8⟩] [⟨0x0FF0, 16⟩, ⟨0x1080, 1⟩] busyState = busyState :=
  ⟨⟨0x203F, by decide⟩, ⟨0x1000, by decide⟩, rfl⟩

/-- R156: reading a written region is enough to free the outcome; a shared read region is not. -/
theorem test_peer_frees :
    next? (step { busyState with script := [.peer [⟨0x203F, 1⟩] []] }) (fun t => t.raced && t.phase == .busy) = true ∧
      next? (step { busyState with script := [.peer [⟨0x1000, 128⟩] []] }) (fun t => t.raced) = false := by decide

theorem test_meets_BitLength :
    (5#32).toNat < 2 ^ 3 ∧ (5#32 ≠ 0#32) ∧ bitlen 5#32 ≤ 3 ∧ 2 ^ 31 ≤ (0x80000000#32).toNat ∧ (32 : Nat) ≤ 32 := by decide

theorem test_meets_PackersCovered :
    refFns.Contract ∧ (List.replicate 128 0x7FFFFFFF#32).length = 128 ∧
      ∀ v ∈ List.replicate 128 0x7FFFFFFF#32, v.toNat < 2 ^ 31 :=
  ⟨refFns_contract, List.length_replicate, fun v hv => by rw [List.eq_of_mem_replicate hv]; decide⟩

/-- Also for `UnpackRefBits`, at both ends of the widths. -/
theorem test_meets_PackRefBits :
    blockB.length = 128 ∧ (3 : Nat) < 4 ∧ (31 : Nat) < 32 ∧ payloadB.length = bw 3 ∧ ([] : List Word).length = bw 0 ∧
      blockB.length = bw 32 := by decide +kernel

theorem test_meets_SampleWindow :
    (List.replicate 65536 0#32).length ≤ 65536 ∧ 65536 < (List.replicate 65537 0#32).length ∧ (65535 : Nat) < 65536 := by
  simp only [List.length_replicate]; decide

/-- E3's costs at `b = 2` (the compensation is taken) and at `b = 3` (it is not). -/
theorem test_meets_CostIntegerForms :
    (0 : Nat) < 128 ∧ ((128 : Nat) : Int) ^ 2 * 2 ^ 2 < ((128 : Nat) : Int) * (128 * ((128 : Nat) : Int) - (128 : Nat)) ∧
      ¬ ((1 : Nat) : Int) ^ 2 * 2 ^ 3 < ((128 : Nat) : Int) * (128 * ((1 : Nat) : Int) - (128 : Nat)) := by decide

/-- E10's tie: widths 10 and 11 cost the same. -/
theorem test_meets_EstimateLeastCost :
    let x := [0xFFFFFFFF#32] ++ List.replicate 126 1#32 ++ [0xFFFFFFFF#32]
    x ≠ [] ∧ widthCost x 0#32 11 = widthCost x 0#32 (estimate x 0#32) := by decide +kernel

theorem test_meets_WidthMonotonicity :
    (∀ v ∈ sampleOf [0xFFFFFFFF#32] 7#32, bitlen v = 32) ∧ (∀ v ∈ sampleOf [0#32] 7#32, bitlen v = 0) ∧
      ∀ v ∈ sampleOf [4#32, 7#32] 7#32, bitlen v = 3 := by
  rw [show sampleOf [0xFFFFFFFF#32] 7#32 = [0xFFFFFFFF#32] by decide, show sampleOf [0#32] 7#32 = [0#32] by decide,
    show sampleOf [4#32, 7#32] 7#32 = [4#32, 7#32] by decide]
  simp only [List.forall_mem_cons]
  exact ⟨⟨by decide, by simp⟩, ⟨by decide, by simp⟩, by decide, by decide, by simp⟩

theorem test_meets_CompressNoExceptions :
    (List.replicate 128 0x7FFFFFFF#32).length = 128 ∧ (∀ x ∈ List.replicate 128 0x7FFFFFFF#32, x.toNat < 2 ^ 31) ∧
      ∀ x ∈ List.replicate 128 0#32, x.toNat < 2 ^ 0 :=
  ⟨List.length_replicate, fun v hv => by rw [List.eq_of_mem_replicate hv]; decide,
    fun v hv => by rw [List.eq_of_mem_replicate hv]; decide⟩

theorem test_meets_CompressChain :
    blockB.length = 128 ∧ (2 ^ 3 ≤ (wordAt blockB 10).toNat) ∧ (2 ^ 31 ≤ (wordAt blockB 10).toNat) ∧
      (2 ^ 0 ≤ (wordAt blockB 127).toNat) := by decide +kernel

/-- The chain ends at offset 127 (`.ok`), and one exception more leaves the block (`MAL_CHAIN`, also K20). -/
theorem test_meets_DecompressConsumes :
    ([] : List Word).length = bw 0 ∧ 128 - 127 < [1#32, 2#32].length ∧
      ok? (decompressBlock refFns [] 0 [1#32] 127) (fun r => decide (r.2 = 1)) = true ∧
      err? (decompressBlock refFns [] 0 [1#32, 2#32] 127) .malChain = true := by decide +kernel

/-- K24's walk, over a chain the encoder does not make: it ends with its slice; and K20's, which stands at 128 with two
exceptions left (here from offset 127, two of width 0). -/
theorem test_meets_DecompressConsumes_walk :
    (∃ cur out, ChainAt [0xEE6B2800#32, 77#32] 10 (refFns.unpack payloadB 3) 2 cur out) ∧
      ∃ out, ChainAt [1#32, 2#32] 127 (refFns.unpack [] 0) 1 128 out ∧ 1 < [1#32, 2#32].length := by
  have first : (wordAt (refFns.unpack payloadB 3) 10).toNat = 0 := by decide +kernel
  have last : (wordAt (refFns.unpack [] 0) 127).toNat = 0 := by decide +kernel
  refine ⟨⟨_, _, .next (.next .start (by decide) (by decide)) (by decide) (by rw [first]; decide)⟩, ?_⟩
  have h := ChainAt.next (excs := [1#32, 2#32]) (first := 127) (unpacked := refFns.unpack [] 0) .start (by decide) (by decide)
  rw [last] at h
  exact ⟨_, h, by decide⟩

/-- The hypotheses of `BlockRoundTrip`, at both ends of the widths. -/
theorem test_meets_BlockRoundTrip : refFns.Contract ∧ blockB.length = 128 ∧ (0 : Nat) ≤ 32 ∧ (32 : Nat) ≤ 32 :=
  ⟨refFns_contract, by decide +kernel, by decide +kernel, by decide +kernel⟩

theorem test_meets_HeaderFields : (128 : Nat) ≤ 128 ∧ (2 ^ 24 : Nat) ≤ 2 ^ 24 ∧ (0 : Nat) ≤ 128 := by decide

/-- The hypotheses of `ChunkFrameSize` and `ChunkRoundTrip`: the longest chunk, and the empty one. -/
theorem test_meets_ChunkFrameSize :
    refFns.Contract ∧ (List.replicate (2 ^ 24) 0#32).length % 128 = 0 ∧
      (List.replicate (2 ^ 24) 0#32).length ≤ 2 ^ 24 ∧ ([] : List Word).length % 128 = 0 := by
  simp only [List.length_replicate, refFns_contract]; decide

theorem test_meets_ChunkFrameLayout :
    refFns.Contract ∧ blockB.length % 128 = 0 ∧ blockB.length ≤ 2 ^ 24 ∧ 0 < blockB.length / 128 :=
  ⟨refFns_contract, by decide +kernel, by decide +kernel, by decide +kernel⟩

/-- D14, with zeros for the values: the header's count is 1. -/
theorem test_meets_Width32NoExceptions :
    let w := [0x80#32, 0x20#32, 0x80#32] ++ List.replicate 128 0#32 ++ [7#32]
    (wordAt w 0).toNat = 128 ∧ (wordAt w 1).toNat = 32 ∧ 128 % 128 = 0 ∧ 128 ≤ 2 ^ 24 ∧ 2 + 128 / 128 * 129 ≤ w.length ∧
      0 < 128 / 128 ∧ headerEnd (blockHeader w 32 0) ≠ 0 ∧ headerEnd (wordAt w (2 + 0 * (1 + bw 32))) ≠ 0 := by
  decide +kernel

theorem test_meets_ChunkRoundTrip : refFns.Contract ∧ blockB.length % 128 = 0 ∧ blockB.length ≤ 2 ^ 24 ∧ blockB.length ≤ 128 :=
  ⟨refFns_contract, by decide +kernel, by decide +kernel, by decide +kernel⟩

/-- The hypotheses of `ArrayFrameCounts`: the longest array, and one chunk of the greatest length. -/
theorem test_meets_ArrayFrameCounts :
    refFns.Contract ∧ (List.replicate (2 ^ 32 - 128) 0#32).length % 128 = 0 ∧
      (List.replicate (2 ^ 32 - 128) 0#32).length < 2 ^ 32 ∧ 0 < (List.replicate (2 ^ 24) 0#32).length ∧
      (List.replicate (2 ^ 24) 0#32).length ≤ 2 ^ 24 := by
  simp only [List.length_replicate, refFns_contract]; decide

theorem test_meets_ArrayRoundTrip : refFns.Contract ∧ blockB.length % 128 = 0 ∧ blockB.length < 2 ^ 32 ∧ blockB.length ≤ 128 :=
  ⟨refFns_contract, by decide +kernel, by decide +kernel, by decide +kernel⟩

/-- E21: the last word of the memory. -/
theorem test_meets_EstimateCompletes :
    let s := { State.reset with srcAddr := 0xFFFFFFFF#32, srcLen := 1#32 }
    s.raced = false ∧ s.srcAddr.toNat + s.srcLen.toNat ≤ s.params.memWords := by decide

/-- K4, with exactly the four words it needs in the sink. -/
theorem test_meets_BlkEncCompletes :
    let s := { encState with excEnd := 4#32 }
    s.raced = false ∧ s.excCur.toNat ≤ s.excEnd.toNat ∧ inRange s.params (regionAt s.srcAddr 128) = true ∧
      inRange s.params (regionAt s.dstAddr (bw 0)) = true ∧ inRange s.params (excRegion s) = true ∧
      overlaps (regionAt s.dstAddr (bw 0)) (regionAt s.srcAddr 128) = false ∧
      overlaps (excRegion s) (regionAt s.srcAddr 128) = false ∧
      overlaps (regionAt s.dstAddr (bw 0)) (excRegion s) = false ∧
      (blkEncResult 0 s).excs.length ≤ s.excEnd.toNat - s.excCur.toNat := by decide +kernel

/-- BD6. -/
theorem test_meets_BlkDecCompletes :
    let s := { decState with excEnd := 8#32 }
    s.raced = false ∧ s.first.toNat ≤ 128 ∧ s.excCur.toNat ≤ s.excEnd.toNat ∧
      inRange s.params (regionAt s.srcAddr (bw 0)) = true ∧ inRange s.params (excRegion s) = true ∧
      inRange s.params (regionAt s.dstAddr 128) = true ∧
      overlaps (regionAt s.dstAddr 128) (regionAt s.srcAddr (bw 0)) = false ∧
      overlaps (regionAt s.dstAddr 128) (excRegion s) = false ∧
      ok? (blkDecResult 0 s) (fun _ => true) = true := by decide +kernel

/-- With `FIRST = 128` and `b = 32` the slice is not consumed. -/
theorem test_meets_BlkDecCompletes_first128 :
    let s := { decState with first := 128#32 }
    s.first.toNat ≤ 128 ∧ inRange s.params (regionAt s.srcAddr (bw 32)) = true ∧
      overlaps (regionAt s.dstAddr 128) (regionAt s.srcAddr (bw 32)) = false ∧
      ok? (blkDecResult 32 s) (fun r => decide (r.2 = 0)) = true := by decide +kernel

/-- C1, with exactly the capacity it needs. -/
theorem test_meets_ChunkEncCompletes :
    let s := frameState [] 128#32 3#32
    s.raced = false ∧ s.srcLen.toNat % 128 = 0 ∧ s.srcLen.toNat ≤ 2 ^ 24 ∧ inRange s.params (srcRegion s) = true ∧
      inRange s.params (dstRegion s) = true ∧ overlaps (dstRegion s) (srcRegion s) = false ∧
      (chunkEncResult s).out.length ≤ s.dstCap.toNat := by decide +kernel

/-- C3 (CE6), with exactly the capacity it needs. -/
theorem test_meets_ChunkEncCompletes_empty :
    let s := frameState [] 0#32 2#32
    s.srcLen.toNat % 128 = 0 ∧ overlaps (dstRegion s) (srcRegion s) = false ∧
      (chunkEncResult s).out.length ≤ s.dstCap.toNat := by decide +kernel

/-- D17. -/
theorem test_meets_ChunkDecCompletes :
    let s := frameState [0x80#32, 0#32, 0x478#32, 0#32, 1#32, 2#32, 3#32, 4#32, 5#32, 6#32, 7#32] 11#32 128#32
    s.raced = false ∧ inRange s.params (srcRegion s) = true ∧ inRange s.params (dstRegion s) = true ∧
      overlaps (dstRegion s) (srcRegion s) = false ∧
      ok? (chunkDecResult s) (fun _ => true) = true := by decide +kernel

/-- A3, with exactly the capacity it needs. -/
theorem test_meets_ArrayEncCompletes :
    let s := frameState [] 128#32 4#32
    s.raced = false ∧ s.srcLen.toNat % 128 = 0 ∧ inRange s.params (srcRegion s) = true ∧
      inRange s.params (dstRegion s) = true ∧ overlaps (dstRegion s) (srcRegion s) = false ∧
      (arrayEncResult s).out.length ≤ s.dstCap.toNat := by decide +kernel

/-- A1 (AE3), with exactly the capacity it needs. -/
theorem test_meets_ArrayEncCompletes_empty :
    let s := frameState [] 0#32 1#32
    s.srcLen.toNat % 128 = 0 ∧ overlaps (dstRegion s) (srcRegion s) = false ∧
      (arrayEncResult s).out.length ≤ s.dstCap.toNat := by decide +kernel

/-- AD9. -/
theorem test_meets_ArrayDecCompletes :
    let s := frameState [0x100#32, 0x80#32, 0#32, 0#32, 0x80#32, 0#32, 0#32] 7#32 256#32
    s.raced = false ∧ inRange s.params (srcRegion s) = true ∧ inRange s.params (dstRegion s) = true ∧
      overlaps (dstRegion s) (srcRegion s) = false ∧
      ok? (arrayDecResult s) (fun _ => true) = true := by decide +kernel

/-- BE4; BE6 at `b = 32`; BD2. -/
theorem test_meets_BlkCheckOrder_registers :
    encState.raced = false ∧ (32 : Nat) < 33 ∧
      { encState with excCur := 5#32, excEnd := 4#32 }.excEnd.toNat < (5#32).toNat ∧ 128 < (129#32).toNat := by decide

/-- Each region of the block commands one word beyond the memory; the sink of BE8 ending with it. -/
theorem test_meets_BlkCheckOrder_range :
    BlkEncBeyond 3 { encState with srcAddr := 0xFFFFFF81#32 } ∧ BlkEncBeyond 3 { encState with dstAddr := 0xFFFFFFF5#32 } ∧
      BlkEncBeyond 3 { encState with excAddr := 0xFFFFFFC1#32 } ∧
      ¬ BlkEncBeyond 3 { encState with excAddr := 0xFFFFFFC0#32 } ∧
      BlkDecBeyond 3 { decState with srcAddr := 0xFFFFFFF5#32 } ∧ BlkDecBeyond 3 { decState with excAddr := 0xFFFFFFF7#32 } ∧
      BlkDecBeyond 3 { decState with dstAddr := 0xFFFFFF81#32 } ∧
      ¬ BlkDecBeyond 3 { decState with dstAddr := 0xFFFFFF80#32 } := by decide

/-- Each pair of regions that may not overlap sharing one word (BE7 among them), and adjacent ones sharing none. -/
theorem test_meets_BlkCheckOrder_overlap :
    (∀ s ∈ [{ encState with dstAddr := 0x107F#32 }, { encState with excAddr := 0x107F#32 }, { encState with excAddr := 0x400B#32 }],
        ¬ BlkEncBeyond 3 s ∧ BlkEncShared 3 s) ∧
      ¬ BlkEncShared 3 { encState with dstAddr := 0x1080#32 } ∧ ¬ BlkEncShared 3 { encState with excAddr := 0x400C#32 } ∧
      (∀ s ∈ [{ decState with dstAddr := 0x400B#32 }, { decState with dstAddr := 0x4F81#32 }],
        ¬ BlkDecBeyond 3 s ∧ BlkDecShared 3 s) ∧
      ¬ BlkDecShared 3 { decState with dstAddr := 0x4F80#32 } := by decide

/-- The overflow of `test_exec_blkEnc_overflow`. -/
theorem test_meets_BlkCheckOrder_overflow :
    let s := { encState with excEnd := 3#32 }
    ¬ BlkEncBeyond 0 s ∧ ¬ BlkEncShared 0 s ∧
      s.excEnd.toNat - s.excCur.toNat < (blkEncResult 0 s).excs.length := by decide +kernel

/-- BD5. -/
theorem test_meets_BlkCheckOrder_chain :
    ¬ BlkDecBeyond 0 decState ∧ ¬ BlkDecShared 0 decState ∧
      err? (blkDecResult 0 decState) .malChain = true := by decide +kernel

/-- E20; CE4; CE5; CE8; each region one word beyond the memory; adjacent regions. -/
theorem test_meets_FrameCheckOrder_registers :
    State.reset.params.memWords < (0xFFFFFFFF#32).toNat + (2#32).toNat ∧ (100#32).toNat % 128 ≠ 0 ∧
      2 ^ 24 < (0x01000080#32).toNat ∧
      FrameBeyond { frameState [] 128#32 64#32 with srcAddr := 0xFFFFFF81#32 } ∧
      FrameBeyond { frameState [] 128#32 64#32 with dstAddr := 0xFFFFFFC1#32 } ∧
      ¬ FrameBeyond { frameState [] 128#32 64#32 with dstAddr := 0xFFFFFFC0#32 } ∧
      (¬ FrameBeyond { frameState [] 128#32 64#32 with dstAddr := 0x0FC1#32 } ∧
        FrameShared { frameState [] 128#32 64#32 with dstAddr := 0x0FC1#32 }) ∧
      ¬ FrameShared { frameState [] 128#32 64#32 with dstAddr := 0x0FC0#32 } := by decide

/-- CE7. -/
theorem test_meets_FrameCheckOrder_chunkEnc :
    let s := frameState [] 0#32 1#32
    ¬ FrameBeyond s ∧ ¬ FrameShared s ∧ s.dstCap.toNat < (chunkEncResult s).out.length := by
  decide +kernel

/-- AE2. -/
theorem test_meets_FrameCheckOrder_arrayEnc :
    let s := frameState [] 0#32 0#32
    ¬ FrameBeyond s ∧ ¬ FrameShared s ∧ s.dstCap.toNat < (arrayEncResult s).out.length := by
  decide +kernel

/-- CD4, and AD21 with the same regions. -/
theorem test_meets_FrameCheckOrder_decode :
    let s := frameState [0x100#32, 0#32, 0x100#32, 0x80#32, 1#32, 2#32] 6#32 256#32
    ¬ FrameBeyond s ∧ ¬ FrameShared s ∧
      err? (chunkDecResult s) .malHeader = true ∧
      err? (arrayDecResult { s with srcLen := 0#32 }) .malTruncated = true := by decide +kernel

/-- AD1, AD6, AD3, AD5, AD7 and AD12: the checks of ARRAY_DEC before its loop and in its first round. -/
theorem test_meets_FrameCheckOrder_array :
    (∀ s ∈ [frameState [] 0#32 128#32, frameState [0x80#32, 0x80#32] 4#32 127#32, frameState [0x80#32] 1#32 128#32],
        s.raced = false ∧ ¬ FrameBeyond s ∧ ¬ FrameShared s) ∧
      (127#32).toNat < (wordAt (srcWords (frameState [0x80#32, 0x80#32] 4#32 127#32)) 0).toNat ∧
      (∀ ws : List Word, ChunksAt refFns ws 0x80 1 [] 0) ∧
      (wordAt (srcWords (frameState [0x80#32] 1#32 128#32)) 0).toNat = 0x80 ∧ (1#32).toNat < 1 + 2 ∧
      (wordAt [0x80#32, 0#32, 0#32] 1).toNat = 0 ∧ 0x80 - 0 < (wordAt [0x80#32, 0x100#32, 0#32, 0#32, 0#32] 1).toNat ∧
      err? (decodeChunk refFns ([0x80#32, 0x80#32, 0x28#32, 0#32].drop 1) (0x80 - 0)) .malWidth = true :=
  ⟨by decide, by decide, fun _ => .start, by decide, by decide, by decide, by decide, by decide +kernel⟩

/-- AD8: after its first chunk the array decoder stands at word 4, with 128 values owed and no room for a second. -/
theorem test_meets_FrameCheckOrder_second :
    ∃ vals, ChunksAt refFns [0x100#32, 0x80#32, 0#32, 0#32] 0x100 4 vals 1 ∧ vals.length < 0x100 ∧ (4#32).toNat < 4 + 2 := by
  obtain ⟨r, hr, hp⟩ := ok_of_ok? (p := fun r : ChunkValues => decide (r.vals.length = 128 ∧ r.used = 3))
    (show ok? (decodeChunk refFns ([0x100#32, 0x80#32, 0#32, 0#32].drop 1) (0x100 - ([] : List Word).length)) _ = true by
      decide +kernel)
  simp only [decide_eq_true_eq] at hp
  have h := ChunksAt.next .start (by decide) (by decide) (by decide) (by decide) hr
  rw [hp.2] at h
  exact ⟨_, h, by simp [hp.1], by decide⟩

/-- A3's frame: after its one chunk the array decoder has every value. -/
theorem test_meets_FrameCheckOrder_last :
    ∃ pos vals, ChunksAt refFns [0x80#32, 0x80#32, 0#32, 0#32] 0x80 pos vals 1 ∧ vals.length = 0x80 := by
  obtain ⟨r, hr, hp⟩ := ok_of_ok? (p := fun r : ChunkValues => decide (r.vals.length = 0x80))
    (show ok? (decodeChunk refFns ([0x80#32, 0x80#32, 0#32, 0#32].drop 1) (0x80 - ([] : List Word).length)) _ = true by
      decide +kernel)
  exact ⟨_, _, .next .start (by decide) (by decide) (by decide) (by decide) hr, by simpa using hp⟩

/-- D3 to D12: a frame or a length for each check. -/
theorem test_meets_ChunkDecodeChecks :
    [0x80#32].length < 2 ∧ ((100 : Nat) % 128 ≠ 0 ∨ 2 ^ 24 < (100 : Nat)) ∧
      ((2 ^ 24 + 128 : Nat) % 128 ≠ 0 ∨ 2 ^ 24 < (2 ^ 24 + 128 : Nat)) ∧
      2 ≤ [0#32, 33#32].length ∧ (wordAt [0#32, 33#32] 0).toNat = 0 ∧ (wordAt [0#32, 33#32] 1).toNat = 33 ∧
      2 ≤ [0x80#32, 3#32].length ∧ (wordAt [0x80#32, 3#32] 0).toNat = 128 ∧ (wordAt [0x80#32, 3#32] 1).toNat = 3 ∧
      [0x80#32, 3#32].length < 2 + 128 / 128 * (1 + 4 * 3) ∧ (127 : Nat) < 128 ∧
      err? (decodeChunk refFns [0x80#32, 0x20#32] 128) .malTruncated = true := by decide +kernel

/-- D15's second block, whose count 1 is below the 2 before it; D14's width-32 block; D12's first block, whose slice ends
beyond the frame; D16's chain; D13's empty slice. -/
theorem test_meets_ChunkDecodeChecks_blocks :
    (∃ vals, BlocksAt refFns [0x100#32, 0#32, 0x100#32, 0x80#32, 1#32, 2#32] 0 4 1 2 vals ∧ 1 < 0x100 / 128 ∧
        headerEnd (blockHeader [0x100#32, 0#32, 0x100#32, 0x80#32, 1#32, 2#32] 0 1) < 2) ∧
      (∀ (w : List Word) (b T : Nat), BlocksAt refFns w b T 0 0 []) ∧
      headerEnd (blockHeader [0x80#32, 0x20#32, 0x80#32] 32 0) ≠ 0 ∧
      ([0x80#32, 3#32, 0x8A#32] ++ payloadB).length < 15 + headerEnd (blockHeader ([0x80#32, 3#32, 0x8A#32] ++ payloadB) 3 0) ∧
      (BlockSound ([0x80#32, 0#32, 0x578#32] ++ List.replicate 10 0#32) 0 3 0 0 ∧
        blockAnswer refFns ([0x80#32, 0#32, 0x578#32] ++ List.replicate 10 0#32) 0 3 0 0 = .error .malChain) ∧
      headerEnd (blockHeader [0x80#32, 3#32, 0x0A#32] 3 0) = 0 := by
  obtain ⟨r, hr, _⟩ := ok_of_ok? (p := fun _ => true)
    (show ok? (blockAnswer refFns [0x100#32, 0#32, 0x100#32, 0x80#32, 1#32, 2#32] 0 4 0 0) _ = true by decide +kernel)
  exact ⟨⟨_, .next .start ⟨by decide, by decide, by decide⟩ hr, by decide, by decide⟩, fun _ _ _ => .start, by decide,
    by decide, ⟨⟨by decide, by decide, by decide⟩, error_of_err? (by decide +kernel)⟩, by decide⟩

/-- D17: after its one block the chunk decoder is at the end. -/
theorem test_meets_ChunkDecodeChecks_last :
    ∃ cur vals, BlocksAt refFns [0x80#32, 0#32, 0x478#32, 0#32, 1#32, 2#32, 3#32, 4#32, 5#32, 6#32, 7#32] 0 3 1 cur vals := by
  obtain ⟨r, hr, _⟩ := ok_of_ok? (p := fun _ => true)
    (show ok? (blockAnswer refFns [0x80#32, 0#32, 0x478#32, 0#32, 1#32, 2#32, 3#32, 4#32, 5#32, 6#32, 7#32] 0 3 0 0) _ = true by
      decide +kernel)
  exact ⟨_, _, .next .start ⟨by decide, by decide, by decide⟩ hr⟩

/-- Also for `WritesConfined` and `CommandFrame`. -/
theorem test_meets_ErrorRecord : ∃ t, exec .reservedOp0 State.reset = .next t ∧ t.errCode ≠ .noError :=
  ⟨_, rfl, by decide⟩

/-- One state for each code of R142. -/
theorem test_meets_EarlyErrorsKeepMemory :
    (∃ t, exec (.reservedOp8F 8) State.reset = .next t ∧ t.errCode = .illegalOp) ∧
      (∃ t, exec (.blkEnc 33) encState = .next t ∧ t.errCode = .invalidArg) ∧
      (∃ t, exec .arrayEnc (frameState [] 96#32 64#32) = .next t ∧ t.errCode = .invalidLength) ∧
      (∃ t, exec .estimate { State.reset with srcAddr := 0xFFFFFFFF#32, srcLen := 2#32 } = .next t ∧
        t.errCode = .accessFault) ∧
      ∃ t, exec (.blkEnc 3) { encState with dstAddr := 0x107F#32 } = .next t ∧ t.errCode = .overlap :=
  ⟨⟨_, rfl, by decide⟩, ⟨_, rfl, by decide⟩, ⟨_, rfl, by decide⟩, ⟨_, rfl, by decide⟩, _, rfl, by decide⟩

/-- AE2, and CD4 with a word of the written region. -/
theorem test_meets_ProcessingErrorsFreeRegions :
    (∃ t, exec .arrayEnc (frameState [] 0#32 0#32) = .next t ∧ t.errCode = .outputOverflow) ∧
      (∃ t, exec .chunkDec (frameState [0x64#32] 1#32 256#32) = .next t ∧ t.errCode = .malTruncated) ∧
      inRegions (writtenRegions .chunkDec (frameState [0x64#32] 1#32 256#32)) 0x20FF = true ∧
      0x20FF < State.reset.params.memWords :=
  ⟨⟨_, rfl, by decide +kernel⟩, ⟨_, rfl, by decide +kernel⟩, by decide, by decide⟩

theorem test_meets_CommandFrame :
    (∃ t, exec .estimate State.reset = .next t) ∧ ∀ b, Instr.estimate ≠ .blkEnc b ∧ Instr.estimate ≠ .blkDec b :=
  ⟨⟨_, rfl⟩, fun _ => ⟨by simp, by simp⟩⟩

/-- The host writes a word of the source region of a running CHUNK_ENC; its destination region exists. -/
theorem test_meets_RacedOutcome :
    next? (hostMemWrite 0x107F 5#32 busyState) (fun t => t.raced) = true ∧
      inRegions (writtenRegions .chunkEnc busyState) 0x203F = true ∧ 0x203F < busyState.params.memWords ∧
      movesCursor (.blkDec 0) = true ∧ movesCursor .chunkEnc = false := by decide

/-- Memories that hold the same words in the two byte orders. -/
theorem test_meets_ByteOrderInvisible :
    (∀ a, readWord .big (memWrite .big [] 5 [0x50464F52#32]) a =
        readWord .little (memWrite .little [] 5 [0x50464F52#32]) a) ∧
      ∃ t, exec .estimate (place 5 [0x50464F52#32] State.reset) = .next t :=
  ⟨fun a => by rw [readWord_memWrite, readWord_memWrite]; rfl, _, rfl⟩

theorem test_meets_StepRunsCommand :
    (busyState.phase = .busy ∧ busyState.script = []) ∧
      ({ busyState with script := [.engine] }.script = .engine :: []) ∧
      ({ busyState with script := [.wait] }.script = .wait :: []) ∧
      State.reset.phase = .idle ∧ State.reset.script = [] := by decide

theorem test_meets_StepServesHost :
    0 < { Params.default with regBase := 4 }.regBase ∧ { Params.default with regBase := 4 }.regBase ≤ 4 ∧
      { State.reset with script := [.regWrite 0 .word 0#32] }.script = .regWrite 0 .word 0#32 :: [] ∧
      { State.reset with script := [.regRead 4 .word] }.script = .regRead 4 .word :: [] ∧
      { State.reset with script := [.memWrite 0 1#32] }.script = .memWrite 0 1#32 :: [] ∧
      { State.reset with script := [.memRead 0] }.script = .memRead 0 :: [] ∧
      { State.reset with script := [.reset] }.script = .reset :: [] ∧
      { State.reset with script := [.peer [] []] }.script = .peer [] [] :: [] := by decide

/-- A schedule with every kind of event, at the boundaries of what exists. -/
theorem test_meets_RunsToIdle :
    ∀ e ∈ [Event.regRead 0 .word, .regWrite 0x3C .byte 1#32, .memRead 0xFFFFFFFF, .memWrite 0xFFFFFFFF 1#32, .wait, .engine,
      .reset, .peer [⟨0, 1⟩] []], EventOk State.reset.params e := by
  simp [EventOk, State.reset, Params.default]

end Sys2Proof.Tests
end

section
/-! PROOFS. The block round trip: the encoder's walk keeps what the decoder's walk restores (42_patcher.md). -/

namespace Sys2Proof.Machine

/-! ### Words of a list -/

theorem wordAt_set (xs : List Word) (i k : Nat) (a : Word) :
    wordAt (xs.set i a) k = if i = k ∧ i < xs.length then a else wordAt xs k := by
  simp only [wordAt, List.getD_eq_getElem?_getD, List.getElem?_set]
  by_cases h : i = k
  · by_cases hi : i < xs.length
    · simp [h, h ▸ hi]
    · simp [h, h ▸ hi]
  · simp [h]

theorem ext_wordAt {xs ys : List Word} (hl : xs.length = ys.length)
    (h : ∀ k, k < xs.length → wordAt xs k = wordAt ys k) : xs = ys := by
  apply List.ext_getElem hl
  intro k hx hy
  simpa [wordAt, List.getD_eq_getElem?_getD, hx, hy] using h k hx

theorem exists_wordAt {xs : List Word} {x : Word} (h : x ∈ xs) : ∃ k, k < xs.length ∧ wordAt xs k = x := by
  obtain ⟨k, hk, rfl⟩ := List.mem_iff_getElem.mp h
  exact ⟨k, hk, by simp [wordAt, List.getD_eq_getElem?_getD, hk]⟩

theorem toNat_toReg {n : Nat} (h : n < 2 ^ 32) : (toReg n).toNat = n := by
  rw [toReg, BitVec.toNat_ofNat, Nat.mod_eq_of_lt h]

@[simp] theorem maskBlock_length (xs : List Word) (b : Nat) : (maskBlock xs b).length = xs.length := by
  simp [maskBlock]

theorem wordAt_maskBlock (xs : List Word) (b k : Nat) :
    wordAt (maskBlock xs b) k = toReg ((wordAt xs k).toNat % 2 ^ b) := by
  simp only [wordAt, maskBlock, List.getD_eq_getElem?_getD, List.getElem?_map]
  cases xs[k]? <;> simp [toReg]

theorem wordAt_maskBlock_of_lt {xs : List Word} {b k : Nat} (h : (wordAt xs k).toNat < 2 ^ b) :
    wordAt (maskBlock xs b) k = wordAt xs k := by
  rw [wordAt_maskBlock, Nat.mod_eq_of_lt h, toReg, BitVec.ofNat_toNat, BitVec.setWidth_eq]

theorem maskBlock_lt {xs : List Word} {b : Nat} {x : Word} (h : x ∈ maskBlock xs b) : x.toNat < 2 ^ b := by
  obtain ⟨v, -, rfl⟩ := List.mem_map.mp h
  rw [toReg, BitVec.toNat_ofNat]
  exact Nat.lt_of_le_of_lt (Nat.mod_le _ _) (Nat.mod_lt _ (Nat.two_pow_pos b))

/-! ### A block decoded up to a position -/

/-- The words `v` up to position `n`, and the words `out` from there on. -/
def patched (v out : List Word) (n : Nat) : List Word := v.take n ++ out.drop n

@[simp] theorem patched_zero (v out : List Word) : patched v out 0 = out := by simp [patched]

theorem patched_length {v out : List Word} (h : v.length = out.length) (n : Nat) : (patched v out n).length = v.length := by
  simp [patched]
  omega

theorem wordAt_patched {v out : List Word} (h : v.length = out.length) (n k : Nat) :
    wordAt (patched v out n) k = if k < n then wordAt v k else wordAt out k := by
  simp only [wordAt, patched, List.getD_eq_getElem?_getD]
  by_cases hk : k < v.length
  · by_cases hn : k < n
    · rw [List.getElem?_append_left (by simp; omega), List.getElem?_take_of_lt hn, if_pos hn]
    · rw [List.getElem?_append_right (by simp; omega), List.getElem?_drop, if_neg hn, List.length_take,
        show n + (k - min n v.length) = k by omega]
  · rw [List.getElem?_eq_none (by simp; omega), List.getElem?_eq_none (l := v) (by omega),
      List.getElem?_eq_none (l := out) (by omega), ite_self]

/-- Storing the next word of `v` moves the position behind it, where the words in between agree already. -/
theorem patched_set {v out : List Word} {n i : Nat} (h : v.length = out.length) (hn : n ≤ i) (hi : i < v.length)
    (agree : ∀ k, n ≤ k → k < i → wordAt out k = wordAt v k) :
    (patched v out n).set i (wordAt v i) = patched v out (i + 1) := by
  apply ext_wordAt (by rw [List.length_set, patched_length h, patched_length h])
  intro k _
  rw [wordAt_set, wordAt_patched h, wordAt_patched h, patched_length h]
  by_cases hk : i = k
  · simp [hk, hk ▸ hi]
  · by_cases hkn : k < n
    · simp [hk, hkn, show k < i + 1 by omega]
    · by_cases hki : k < i
      · simp [hk, hkn, show k < i + 1 by omega, agree k (by omega) hki]
      · simp [hk, hkn, show ¬k < i + 1 by omega]

theorem walkChain_cons {e : Word} {es out : List Word} {cur : Nat} (h : cur < 128) :
    walkChain (e :: es) cur out = walkChain es (cur + (wordAt out cur).toNat + 1) (out.set cur e) := by
  rw [walkChain, if_neg (by simpa [blockLen] using h)]

/-! ### The encoder's walk -/

/-- The invariant of the encoder's walk over the block `v` from the first miss `m0` on: the slots from `prev` on are
untouched, and the decoder's walk from `m0`, over a block that holds the masked working copy below `prev`, restores `v` up
to `prev` with the exceptions so far and goes on with those still to come. -/
structure Walk.Decodes (v : List Word) (b m0 : Nat) (w : Walk) : Prop where
  size : w.wc.length = 128
  inside : w.prev < 128
  some : w.excs ≠ []
  count : w.excs.length ≤ w.prev + 1
  ahead : ∀ k, w.prev ≤ k → wordAt w.wc k = wordAt v k
  restores : ∀ es out : List Word, out.length = 128 →
    (∀ k, k < w.prev → wordAt out k = wordAt (maskBlock w.wc b) k) →
    walkChain (w.excs ++ es) m0 out =
      walkChain es (w.prev + (wordAt out w.prev).toNat + 1) (patched v out (w.prev + 1))

@[simp] theorem linkReal_prev (cur : Nat) (w : Walk) : (linkReal cur w).prev = cur := rfl

@[simp] theorem linkReal_wc (cur : Nat) (w : Walk) :
    (linkReal cur w).wc = w.wc.set w.prev (toReg (cur - w.prev - 1)) := rfl

@[simp] theorem linkReal_excs (cur : Nat) (w : Walk) : (linkReal cur w).excs = w.excs ++ [wordAt w.wc cur] := rfl

/-- A compulsory exception is the same link as a real one, to the slot at the largest gap (R112). -/
theorem insertCompulsory_succ (maxgap cur fuel : Nat) (w : Walk) :
    insertCompulsory maxgap cur (fuel + 1) w =
      if w.prev + maxgap < cur then insertCompulsory maxgap cur fuel (linkReal (w.prev + maxgap) w) else w := by
  simp [insertCompulsory, linkReal]

theorem decodes_start {v : List Word} {b m0 : Nat} (hv : v.length = 128) (hm : m0 < 128)
    (below : ∀ k, k < m0 → (wordAt v k).toNat < 2 ^ b) :
    Walk.Decodes v b m0 { wc := v, excs := [wordAt v m0], prev := m0 } where
  size := hv
  inside := hm
  some := by simp
  count := by simp
  ahead _ _ := rfl
  restores es out hout agree := by
    have := patched_set (n := 0) (i := m0) (hv.trans hout.symm) (by omega) (by omega)
      fun k _ hk => (agree k hk).trans (wordAt_maskBlock_of_lt (below k hk))
    rw [patched_zero] at this
    rw [List.singleton_append, walkChain_cons hm, this]

/-- A link from `prev` to a later slot, real or compulsory, keeps the invariant where the gap fits the slot and the slots
in between hold no miss (R112, R113). -/
theorem Walk.Decodes.linkReal {v : List Word} {b m0 cur : Nat} {w : Walk} (h : w.Decodes v b m0) (hv : v.length = 128)
    (later : w.prev < cur) (inside : cur < 128) (gap : cur - w.prev - 1 < 2 ^ b)
    (between : ∀ k, w.prev < k → k < cur → (wordAt v k).toNat < 2 ^ b) : (linkReal cur w).Decodes v b m0 where
  size := by simpa using h.size
  inside := inside
  some := by simp
  count := by
    have := h.count
    rw [linkReal_excs, List.length_append, List.length_singleton, linkReal_prev]
    omega
  ahead k hk := by
    rw [linkReal_prev] at hk
    rw [linkReal_wc, wordAt_set, if_neg (by omega), h.ahead k (by omega)]
  restores es out hout agree := by
    rw [linkReal_prev, linkReal_wc] at agree
    have old : ∀ k, k < cur → k ≠ w.prev → wordAt out k = wordAt (maskBlock w.wc b) k := fun k hk hne => by
      rw [agree k hk, wordAt_maskBlock, wordAt_maskBlock, wordAt_set, if_neg (by omega)]
    have link : (wordAt out w.prev).toNat = cur - w.prev - 1 := by
      have fits : (toReg (cur - w.prev - 1)).toNat = cur - w.prev - 1 := toNat_toReg (by omega)
      have slot : wordAt (w.wc.set w.prev (toReg (cur - w.prev - 1))) w.prev = toReg (cur - w.prev - 1) := by
        rw [wordAt_set, if_pos ⟨rfl, h.size ▸ h.inside⟩]
      rw [agree w.prev later, wordAt_maskBlock_of_lt (by rwa [slot, fits]), slot, fits]
    have fixed : ∀ k, w.prev + 1 ≤ k → k < cur → wordAt out k = wordAt v k := fun k hlo hhi => by
      have hk := h.ahead k (by omega)
      rw [old k hhi (by omega), wordAt_maskBlock_of_lt (by rw [hk]; exact between k hlo hhi), hk]
    have hlen : v.length = out.length := hv.trans hout.symm
    rw [linkReal_excs, linkReal_prev, List.append_assoc, List.singleton_append,
      h.restores _ out hout fun k hk => old k (by omega) (by omega), link,
      show w.prev + (cur - w.prev - 1) + 1 = cur by omega, walkChain_cons inside, wordAt_patched hlen,
      if_neg (by omega), h.ahead cur (by omega), patched_set hlen (by omega) (by omega) fixed]

/-- The compulsory links bring `cur` within reach (R112). -/
theorem insertCompulsory_decodes {v : List Word} {b m0 cur fuel : Nat} {w : Walk} (h : w.Decodes v b m0)
    (hv : v.length = 128) (later : w.prev < cur) (inside : cur < 128)
    (between : ∀ k, w.prev < k → k < cur → (wordAt v k).toNat < 2 ^ b) (enough : cur ≤ w.prev + 2 ^ b + fuel) :
    (insertCompulsory (2 ^ b) cur fuel w).Decodes v b m0 ∧ w.prev ≤ (insertCompulsory (2 ^ b) cur fuel w).prev ∧
      (insertCompulsory (2 ^ b) cur fuel w).prev < cur ∧ cur ≤ (insertCompulsory (2 ^ b) cur fuel w).prev + 2 ^ b := by
  induction fuel generalizing w with
  | zero => exact ⟨h, Nat.le_refl _, later, enough⟩
  | succ fuel ih =>
    rw [insertCompulsory_succ]
    split
    · rename_i far
      have pos : 0 < 2 ^ b := Nat.two_pow_pos b
      have step := h.linkReal (cur := w.prev + 2 ^ b) hv (by omega) (by omega) (by omega)
        fun k hlo hhi => between k hlo (by omega)
      obtain ⟨hd, hle, hlt, hreach⟩ := ih step far
        (fun k hlo hhi => between k (by rw [linkReal_prev] at hlo; omega) hhi) (by rw [linkReal_prev]; omega)
      rw [linkReal_prev] at hle
      exact ⟨hd, by omega, hlt, hreach⟩
    · exact ⟨h, Nat.le_refl _, later, by omega⟩

@[simp] theorem walkStep_prev (b : Nat) (w : Walk) (cur : Nat) : (walkStep b w cur).prev = cur := by
  unfold walkStep
  split <;> rfl

theorem walkStep_decodes {v : List Word} {b m0 cur : Nat} {w : Walk} (h : w.Decodes v b m0) (hv : v.length = 128)
    (later : w.prev < cur) (inside : cur < 128)
    (between : ∀ k, w.prev < k → k < cur → (wordAt v k).toNat < 2 ^ b) : (walkStep b w cur).Decodes v b m0 := by
  unfold walkStep
  split
  · obtain ⟨hd, hle, hlt, hreach⟩ := insertCompulsory_decodes (fuel := blockLen) h hv later inside between
      (inside.le.trans (Nat.le_add_left _ _))
    exact hd.linkReal hv hlt inside (by omega) fun k hlo hhi => between k (by omega) hhi
  · have : 2 ^ 7 ≤ 2 ^ b := Nat.pow_le_pow_right (by decide) (by omega)
    exact h.linkReal hv later inside (by omega) between

/-- The walk over all the misses left, in order: the invariant holds at its end, and no miss is behind it. -/
theorem foldl_walkStep_decodes {v : List Word} {b m0 : Nat} {ms : List Nat} {w : Walk} (h : w.Decodes v b m0)
    (hv : v.length = 128) (sorted : (w.prev :: ms).Pairwise (· < ·)) (inside : ∀ m ∈ ms, m < 128)
    (misses : ∀ k, w.prev < k → k < 128 → 2 ^ b ≤ (wordAt v k).toNat → k ∈ ms) :
    (ms.foldl (walkStep b) w).Decodes v b m0 ∧
      ∀ k, (ms.foldl (walkStep b) w).prev < k → k < 128 → (wordAt v k).toNat < 2 ^ b := by
  induction ms generalizing w with
  | nil => exact ⟨h, fun k hlo hhi => by_contra fun hbig => by simpa using misses k hlo hhi (by omega)⟩
  | cons m ms ih =>
    obtain ⟨hprev, hms⟩ := List.pairwise_cons.mp sorted
    have hm : w.prev < m := hprev m (by simp)
    have hm128 : m < 128 := inside m (by simp)
    have between : ∀ k, w.prev < k → k < m → (wordAt v k).toNat < 2 ^ b := fun k hlo hhi => by
      by_contra hbig
      rcases List.mem_cons.mp (misses k hlo (by omega) (by omega)) with rfl | hk
      · omega
      · have := (List.pairwise_cons.mp hms).1 k hk
        omega
    refine ih (walkStep_decodes h hv hm hm128 between) (by rwa [walkStep_prev]) (fun k hk => inside k (by simp [hk])) ?_
    intro k hlo hhi hbig
    rw [walkStep_prev] at hlo
    rcases List.mem_cons.mp (misses k (by omega) hhi hbig) with rfl | hk
    · omega
    · exact hk

theorem mem_missList {v : List Word} {b k : Nat} : k ∈ missList v b ↔ k < 128 ∧ 2 ^ b ≤ (wordAt v k).toNat := by
  simp [missList, blockLen]

theorem missList_pairwise (v : List Word) (b : Nat) : (missList v b).Pairwise (· < ·) :=
  List.pairwise_lt_range.filter _

/-- The invariant at the end of the whole walk. -/
theorem walkAll_decodes {v : List Word} {b m0 : Nat} {ms : List Nat} (hv : v.length = 128)
    (hmiss : missList v b = m0 :: ms) :
    (walkAll v b m0 ms).Decodes v b m0 ∧
      ∀ k, (walkAll v b m0 ms).prev < k → k < 128 → (wordAt v k).toNat < 2 ^ b := by
  have sorted : (m0 :: ms).Pairwise (· < ·) := hmiss ▸ missList_pairwise v b
  have iff : ∀ k, k ∈ m0 :: ms ↔ k < 128 ∧ 2 ^ b ≤ (wordAt v k).toNat := fun k => hmiss ▸ mem_missList
  have hm0 : m0 < 128 := ((iff m0).mp (by simp)).1
  have first : ∀ k, k ∈ m0 :: ms → m0 ≤ k := fun k hk => by
    rcases List.mem_cons.mp hk with rfl | hk
    · exact Nat.le_refl _
    · exact Nat.le_of_lt ((List.pairwise_cons.mp sorted).1 k hk)
  have below : ∀ k, k < m0 → (wordAt v k).toNat < 2 ^ b := fun k hk => by
    by_contra hbig
    have := first k ((iff k).mpr ⟨by omega, by omega⟩)
    omega
  refine foldl_walkStep_decodes (decodes_start hv hm0 below) hv sorted (fun m hm => ((iff m).mp (by simp [hm])).1) ?_
  intro k (hlo : m0 < k) hhi hbig
  rcases List.mem_cons.mp ((iff k).mpr ⟨hhi, hbig⟩) with rfl | hk
  · omega
  · exact hk

/-! ### The block round trip (R124) -/

theorem compressBlock_raw (pk : PackFns) (v : List Word) :
    compressBlock pk v 32 = { words := v, first := 128, excs := [] } := rfl

theorem compressBlock_nil {pk : PackFns} {v : List Word} {b : Nat} (hb : b ≠ 32) (h : missList v b = []) :
    compressBlock pk v b = { words := pk.pack v b, first := 128, excs := [] } := by
  simp [compressBlock, hb, h]

theorem compressBlock_cons {pk : PackFns} {v : List Word} {b m0 : Nat} {ms : List Nat} (hb : b ≠ 32)
    (h : missList v b = m0 :: ms) :
    compressBlock pk v b =
      { words := pk.pack (maskBlock (walkAll v b m0 ms).wc b) b, first := m0, excs := (walkAll v b m0 ms).excs } := by
  simp [compressBlock, hb, h]

theorem decompressBlock_128 (pk : PackFns) (w excs : List Word) (b : Nat) :
    decompressBlock pk w b excs 128 = .ok (pk.unpack w b, 0) := rfl

theorem decompressBlock_of_walkChain {pk : PackFns} {w excs out : List Word} {b first : Nat} (hf : first ≠ 128)
    (h : walkChain excs first (pk.unpack w b) = .ok out) :
    decompressBlock pk w b excs first = .ok (out, excs.length) := by
  simp [decompressBlock, hf, h]

section
variable {pk : PackFns} (hc : pk.Contract) {v : List Word} {b : Nat} (hv : v.length = 128)
include hv

/-- The slice of a block is empty where its first offset is 128, and else holds 1 to 128 exceptions. -/
theorem compressBlock_excs (pk : PackFns) (hb : b ≤ 32) :
    ((compressBlock pk v b).first = 128 ∧ (compressBlock pk v b).excs = []) ∨
      ((compressBlock pk v b).first < 128 ∧ (compressBlock pk v b).excs ≠ [] ∧
        (compressBlock pk v b).excs.length ≤ 128 ∧ b ≠ 32) := by
  by_cases h32 : b = 32
  · subst h32
    exact .inl ⟨rfl, rfl⟩
  · cases hm : missList v b with
    | nil =>
      rw [compressBlock_nil h32 hm]
      exact .inl ⟨rfl, rfl⟩
    | cons m0 ms =>
      rw [compressBlock_cons h32 hm]
      obtain ⟨hd, -⟩ := walkAll_decodes hv hm
      have hm0 : m0 < 128 := (mem_missList.mp (hm ▸ List.mem_cons_self)).1
      have hcount := hd.count
      have hinside := hd.inside
      exact .inr ⟨hm0, hd.some, hcount.trans (by omega), h32⟩

include hc

theorem compressBlock_words_length (hb : b ≤ 32) : (compressBlock pk v b).words.length = bw b := by
  by_cases h32 : b = 32
  · subst h32
    exact hv
  · cases hm : missList v b with
    | nil =>
      rw [compressBlock_nil h32 hm]
      exact hc.packSize _ _ hv (by omega)
    | cons m0 ms =>
      rw [compressBlock_cons h32 hm]
      exact hc.packSize _ _ ((maskBlock_length _ _).trans (walkAll_decodes hv hm).1.size) (by omega)

theorem decompressBlock_compressBlock (hb : b ≤ 32) :
    decompressBlock pk (compressBlock pk v b).words b (compressBlock pk v b).excs (compressBlock pk v b).first =
      .ok (v, (compressBlock pk v b).excs.length) := by
  by_cases h32 : b = 32
  · subst h32
    rw [compressBlock_raw, decompressBlock_128, hc.unpackRaw v hv, List.length_nil]
  · cases hm : missList v b with
    | nil =>
      have small : ∀ x ∈ v, x.toNat < 2 ^ b := fun x hx => by
        obtain ⟨k, hk, rfl⟩ := exists_wordAt hx
        by_contra hbig
        have : k ∈ missList v b := mem_missList.mpr ⟨hv ▸ hk, by omega⟩
        simp [hm] at this
      rw [compressBlock_nil h32 hm, decompressBlock_128, hc.lossless v b hv (by omega) small, List.length_nil]
    | cons m0 ms =>
      rw [compressBlock_cons h32 hm]
      obtain ⟨hd, behind⟩ := walkAll_decodes hv hm
      have hm0 : m0 < 128 := (mem_missList.mp (hm ▸ List.mem_cons_self)).1
      have hsize := (maskBlock_length (walkAll v b m0 ms).wc b).trans hd.size
      have restored := hd.restores [] _ hsize fun k _ => rfl
      have whole : patched v (maskBlock (walkAll v b m0 ms).wc b) ((walkAll v b m0 ms).prev + 1) = v := by
        apply ext_wordAt (patched_length (hv.trans hsize.symm) _)
        intro k hk
        rw [patched_length (hv.trans hsize.symm)] at hk
        rw [wordAt_patched (hv.trans hsize.symm)]
        split
        · rfl
        · have ahead := hd.ahead k (by omega)
          rw [wordAt_maskBlock_of_lt (by rw [ahead]; exact behind k (by omega) (by omega)), ahead]
      apply decompressBlock_of_walkChain (Nat.ne_of_lt hm0)
      rw [hc.lossless _ b hsize (by omega) fun x => maskBlock_lt]
      rw [List.append_nil, whole] at restored
      exact restored

end

end Sys2Proof.Machine
end

section
/-! PROOFS. The chunk and the array round trip, with any words after the frame (43_chunk.md, 44_array.md). -/

namespace Sys2Proof.Machine

/-! ### Words and slices of a list that is put together -/

theorem wordAt_append_right (xs ys : List Word) (i : Nat) : wordAt (xs ++ ys) (xs.length + i) = wordAt ys i := by
  simp [wordAt, List.getD_eq_getElem?_getD, List.getElem?_append_right]

/-- The piece `ys` of a list stands where the words before it end. -/
theorem slice_middle {w xs ys zs : List Word} {i j : Nat} (hw : w = xs ++ ys ++ zs) (hi : i = xs.length)
    (hj : j = xs.length + ys.length) : slice w i j = ys := by
  subst hw hi hj
  simp [slice]

/-! ### Block headers (R77 to R79) -/

theorem headerWord_toNat {first count : Nat} (hc : count ≤ 2 ^ 24) :
    (headerWord first count).toNat = first % 128 + count * 2 ^ 7 := by
  have hoff : (toReg first &&& 0x7F#32).toNat = first % 128 := by
    rw [BitVec.toNat_and, toReg, BitVec.toNat_ofNat, show (0x7F#32).toNat = 2 ^ 7 - 1 from rfl,
      Nat.and_two_pow_sub_one_eq_mod]
    omega
  have hend : (toReg count <<< 7).toNat = count <<< 7 := by
    rw [BitVec.toNat_shiftLeft, toNat_toReg (by omega), Nat.shiftLeft_eq]
    omega
  rw [headerWord, BitVec.toNat_or, hoff, hend, Nat.or_comm, ← Nat.shiftLeft_add_eq_or_of_lt (by omega), Nat.shiftLeft_eq,
    Nat.add_comm]

theorem headerEnd_headerWord {first count : Nat} (hc : count ≤ 2 ^ 24) : headerEnd (headerWord first count) = count := by
  rw [headerEnd, BitVec.extractLsb'_toNat, headerWord_toNat hc, Nat.shiftRight_eq_div_pow]
  omega

theorem headerOff_headerWord {first count : Nat} (hc : count ≤ 2 ^ 24) :
    headerOff (headerWord first count) = first % 128 := by
  rw [headerOff, BitVec.extractLsb'_toNat, headerWord_toNat hc, Nat.shiftRight_eq_div_pow]
  omega

/-! ### The width the estimator picks -/

theorem sweep_le {sample : List Word} {S : Nat} {bs : List Nat} {e best : Nat} {c : Rat} (hbs : ∀ b ∈ bs, b ≤ 32)
    (hbest : best ≤ 32) : sweep sample S bs e best c ≤ 32 := by
  induction bs generalizing e best c with
  | nil => exact hbest
  | cons b bs ih =>
    have hrest : ∀ b ∈ bs, b ≤ 32 := fun b hb => hbs b (by simp [hb])
    simp only [sweep]
    split
    · exact ih hrest (hbs b (by simp))
    · exact ih hrest hbest

theorem estimate_le (x : List Word) (sel : Word) : estimate x sel ≤ 32 := by
  unfold estimate
  split
  · exact Nat.zero_le _
  · refine sweep_le (fun b hb => ?_) (Nat.le_refl _)
    have : b < 32 := by simpa [candidates] using hb
    omega

/-! ### The blocks of a chunk -/

theorem flatMap_slice (x : List Word) (n : Nat) :
    ((List.range n).flatMap fun k => slice x (128 * k) (128 * k + 128)) = x.take (128 * n) := by
  induction n with
  | zero => simp
  | succ n ih =>
    rw [List.range_succ, List.flatMap_append, ih, List.flatMap_singleton, slice, Nat.add_sub_cancel_left, Nat.mul_succ,
      List.take_add]

theorem blocksOf_flatten {x : List Word} (h : x.length % 128 = 0) : (blocksOf x).flatten = x := by
  rw [blocksOf, ← List.flatMap_def, flatMap_slice, List.take_of_length_le (by omega)]

theorem length_blocksOf (x : List Word) : (blocksOf x).length = x.length / 128 := by simp [blocksOf]

theorem length_of_mem_blocksOf {x v : List Word} (h : v ∈ blocksOf x) : v.length = 128 := by
  obtain ⟨k, hk, rfl⟩ := List.mem_map.mp h
  have := List.mem_range.mp hk
  rw [slice_length]
  omega

/-! ### The chunk round trip (R130) -/

/-- The words of one block in a frame, with `n` exceptions in the slices before its own: header and payload (R80). -/
def blockFrame (pk : PackFns) (b : Nat) (v : List Word) (n : Nat) : List Word :=
  headerWord (compressBlock pk v b).first (n + (compressBlock pk v b).excs.length) :: (compressBlock pk v b).words

theorem blockFrame_length {pk : PackFns} (hc : pk.Contract) {b : Nat} (hb : b ≤ 32) {v : List Word} (hv : v.length = 128)
    (n : Nat) : (blockFrame pk b v n).length = 1 + bw b := by
  rw [blockFrame, List.length_cons, compressBlock_words_length hc hv hb, Nat.add_comm]

@[simp] theorem encodeBlocks_nil (pk : PackFns) (b : Nat) (excs : List Word) : encodeBlocks pk b [] excs = ([], excs) := rfl

/-- The headers and payloads begin with those of the first block. -/
theorem encodeBlocks_cons_fst (pk : PackFns) (b : Nat) (v : List Word) (vs : List (List Word)) (excs : List Word) :
    (encodeBlocks pk b (v :: vs) excs).1 =
      blockFrame pk b v excs.length ++ (encodeBlocks pk b vs (excs ++ (compressBlock pk v b).excs)).1 := by
  simp [encodeBlocks, blockFrame]

theorem encodeBlocks_cons_snd (pk : PackFns) (b : Nat) (v : List Word) (vs : List (List Word)) (excs : List Word) :
    (encodeBlocks pk b (v :: vs) excs).2 = (encodeBlocks pk b vs (excs ++ (compressBlock pk v b).excs)).2 := rfl

/-- The tail begins with the exceptions so far. -/
theorem encodeBlocks_tail (pk : PackFns) (b : Nat) (vs : List (List Word)) (excs : List Word) :
    ∃ more, (encodeBlocks pk b vs excs).2 = excs ++ more := by
  induction vs generalizing excs with
  | nil => exact ⟨[], (List.append_nil _).symm⟩
  | cons v vs ih =>
    obtain ⟨more, h⟩ := ih (excs ++ (compressBlock pk v b).excs)
    exact ⟨(compressBlock pk v b).excs ++ more, by rw [encodeBlocks_cons_snd, h, List.append_assoc]⟩

theorem compressBlock_excs_length {pk : PackFns} {v : List Word} {b : Nat} (hv : v.length = 128) (hb : b ≤ 32) :
    (compressBlock pk v b).excs.length ≤ 128 := by
  rcases compressBlock_excs hv pk hb with ⟨-, h⟩ | ⟨-, -, h, -⟩
  · simp [h]
  · exact h

theorem encodeBlocks_tail_length {pk : PackFns} {b : Nat} (hb : b ≤ 32) {vs : List (List Word)}
    (hvs : ∀ v ∈ vs, v.length = 128) (excs : List Word) :
    (encodeBlocks pk b vs excs).2.length ≤ excs.length + 128 * vs.length := by
  induction vs generalizing excs with
  | nil => simp
  | cons v vs ih =>
    have hrest := ih (fun v hv => hvs v (by simp [hv])) (excs ++ (compressBlock pk v b).excs)
    have hthis := compressBlock_excs_length (pk := pk) (hvs v (by simp)) hb
    rw [List.length_append] at hrest
    rw [encodeBlocks_cons_snd, List.length_cons]
    omega

theorem encodeBlocks_length {pk : PackFns} (hc : pk.Contract) {b : Nat} (hb : b ≤ 32) {vs : List (List Word)}
    (hvs : ∀ v ∈ vs, v.length = 128) (excs : List Word) :
    (encodeBlocks pk b vs excs).1.length = vs.length * (1 + bw b) := by
  induction vs generalizing excs with
  | nil => simp
  | cons v vs ih =>
    rw [encodeBlocks_cons_fst, List.length_append, ih fun v hv => hvs v (by simp [hv]),
      blockFrame_length hc hb (hvs v (by simp)), List.length_cons, Nat.succ_mul, Nat.add_comm]

/-- One block of a frame, whose header and payload stand after the words `pre` and whose slice stands after the words
`before`. -/
theorem decodeBlock_blockFrame {pk : PackFns} (hc : pk.Contract) {v w pre mid before after : List Word} {b T k cur : Nat}
    (hv : v.length = 128) (hb : b ≤ 32) (hpre : pre.length = 2 + k * (1 + bw b)) (hT : T + cur = before.length)
    (hcount : cur + (compressBlock pk v b).excs.length ≤ 2 ^ 24) (hbody : w = pre ++ blockFrame pk b v cur ++ mid)
    (htail : w = before ++ (compressBlock pk v b).excs ++ after) :
    decodeBlock pk w b T k cur = .ok (v, cur + (compressBlock pk v b).excs.length) := by
  have hheader : blockHeader w b k =
      headerWord (compressBlock pk v b).first (cur + (compressBlock pk v b).excs.length) := by
    rw [blockHeader, show 2 + k * (1 + 4 * b) = pre.length + 0 from hpre.symm, hbody, List.append_assoc,
      wordAt_append_right]
    rfl
  have hend : headerEnd (blockHeader w b k) = cur + (compressBlock pk v b).excs.length := by
    rw [hheader, headerEnd_headerWord hcount]
  have hpay : blockPayload w b k = (compressBlock pk v b).words := by
    have hstart : 3 + k * (1 + 4 * b) = (pre ++ [blockHeader w b k]).length := by
      rw [List.length_append, List.length_singleton, hpre, bw]
      omega
    refine slice_middle (zs := mid) ?_ hstart ?_
    · rw [hheader, hbody, blockFrame]
      simp
    · rw [← hstart, compressBlock_words_length hc hv hb, bw]
  have hslice : slice w (T + cur) (T + headerEnd (blockHeader w b k)) = (compressBlock pk v b).excs :=
    slice_middle htail hT (by omega)
  have hfirst : (if headerEnd (blockHeader w b k) = cur then 128 else headerOff (blockHeader w b k)) =
      (compressBlock pk v b).first := by
    rw [hend, hheader, headerOff_headerWord hcount]
    rcases compressBlock_excs hv pk hb with ⟨hf, he⟩ | ⟨hf, he, -, -⟩
    · simp [hf, he]
    · rw [if_neg (by simpa using he), Nat.mod_eq_of_lt hf]
  have hraw : ¬(b = 32 ∧ headerEnd (blockHeader w b k) ≠ cur) := fun ⟨h32, hne⟩ => hne (by
    rw [hend, h32, compressBlock_raw, List.length_nil, Nat.add_zero])
  have hroom : T + headerEnd (blockHeader w b k) ≤ w.length := by
    rw [hend, htail, List.length_append, List.length_append]
    omega
  rw [decodeBlock_eq, if_neg (by omega), if_neg hraw, if_neg (by omega), blockAnswer, hpay, hslice, hfirst,
    decompressBlock_compressBlock hc hv hb, hend]

/-- The blocks of a frame from one on, `pre` being the words before its header and `excs` the exceptions before its
slice. -/
theorem decodeBlocks_encodeBlocks {pk : PackFns} (hc : pk.Contract) {b : Nat} (hb : b ≤ 32) {vs : List (List Word)}
    (hvs : ∀ v ∈ vs, v.length = 128) {w pre excs rest : List Word} {T k : Nat} (hpre : pre.length = 2 + k * (1 + bw b))
    (hT : T = (pre ++ (encodeBlocks pk b vs excs).1).length) (hcount : (encodeBlocks pk b vs excs).2.length ≤ 2 ^ 24)
    (hw : w = pre ++ (encodeBlocks pk b vs excs).1 ++ (encodeBlocks pk b vs excs).2 ++ rest) :
    decodeBlocks pk w b T vs.length k excs.length = .ok (vs.flatten, (encodeBlocks pk b vs excs).2.length) := by
  induction vs generalizing pre excs k with
  | nil => rfl
  | cons v vs ih =>
    have hv : v.length = 128 := hvs v (by simp)
    rw [encodeBlocks_cons_fst, ← List.append_assoc] at hT hw
    rw [encodeBlocks_cons_snd] at hcount hw ⊢
    obtain ⟨more, hmore⟩ := encodeBlocks_tail pk b vs (excs ++ (compressBlock pk v b).excs)
    have hblocks := ih (fun v hv => hvs v (by simp [hv])) (pre := pre ++ blockFrame pk b v excs.length) (k := k + 1)
      (by rw [List.length_append, blockFrame_length hc hb hv, hpre, Nat.succ_mul, Nat.add_assoc]) hT hcount hw
    generalize encodeBlocks pk b vs (excs ++ (compressBlock pk v b).excs) = later at hT hcount hw hmore hblocks ⊢
    have hblock : decodeBlock pk w b T k excs.length = .ok (v, (excs ++ (compressBlock pk v b).excs).length) := by
      rw [List.length_append]
      refine decodeBlock_blockFrame hc (mid := later.1 ++ later.2 ++ rest)
        (before := pre ++ blockFrame pk b v excs.length ++ later.1 ++ excs) (after := more ++ rest) hv hb hpre ?_ ?_ ?_ ?_
      · rw [hT, List.length_append (bs := excs)]
      · rw [hmore] at hcount
        simp only [List.length_append] at hcount
        omega
      · rw [hw]
        simp only [List.append_assoc]
      · rw [hw, hmore]
        simp only [List.append_assoc]
    simp only [List.length_cons, decodeBlocks, hblock, hblocks, List.flatten_cons]

theorem encodeChunkAt_out (pk : PackFns) (x : List Word) (b : Nat) :
    (encodeChunkAt pk x b).out =
      [toReg x.length, toReg b] ++ (encodeBlocks pk b (blocksOf x) []).1 ++ (encodeBlocks pk b (blocksOf x) []).2 := rfl

/-- The chunk round trip at any width, with any words after the frame. -/
theorem decodeChunk_encodeChunkAt {pk : PackFns} (hc : pk.Contract) {x : List Word} (rest : List Word) {b avail : Nat}
    (hb : b ≤ 32) (hmod : x.length % 128 = 0) (hmax : x.length ≤ 2 ^ 24) (havail : x.length ≤ avail) :
    decodeChunk pk ((encodeChunkAt pk x b).out ++ rest) avail =
      .ok { vals := x, used := (encodeChunkAt pk x b).out.length, width := b } := by
  have hvs : ∀ v ∈ blocksOf x, v.length = 128 := fun v => length_of_mem_blocksOf
  have hlen := length_blocksOf x
  have hbody := encodeBlocks_length hc hb hvs []
  have htail := encodeBlocks_tail_length (pk := pk) hb hvs []
  rw [List.length_nil, Nat.zero_add, hlen] at htail
  have hT : tailStart (x.length / 128) b = ([toReg x.length, toReg b] ++ (encodeBlocks pk b (blocksOf x) []).1).length := by
    rw [List.length_append, hbody, hlen]
    rfl
  have hblocks := decodeBlocks_encodeBlocks hc hb hvs (w := (encodeChunkAt pk x b).out ++ rest) (rest := rest)
    (T := tailStart (x.length / 128) b) (k := 0) (pre := [toReg x.length, toReg b]) (by simp) hT (by omega)
    (by rw [encodeChunkAt_out])
  rw [hlen, List.length_nil, blocksOf_flatten hmod] at hblocks
  have hout : (encodeChunkAt pk x b).out.length =
      tailStart (x.length / 128) b + (encodeBlocks pk b (blocksOf x) []).2.length := by
    rw [encodeChunkAt_out, List.length_append, hT]
  have hL : (wordAt ((encodeChunkAt pk x b).out ++ rest) 0).toNat = x.length := toNat_toReg (by omega)
  have hB : (wordAt ((encodeChunkAt pk x b).out ++ rest) 1).toNat = b := toNat_toReg (by omega)
  have hroom : tailStart (x.length / 128) b ≤ ((encodeChunkAt pk x b).out ++ rest).length := by
    rw [List.length_append]
    omega
  have htwo : 2 ≤ tailStart (x.length / 128) b := Nat.le_add_right _ _
  simp only [decodeChunk, hL, hB]
  rw [if_neg (by omega), if_neg (by rw [show chunkMax = 2 ^ 24 from rfl]; omega), if_neg (by omega), if_neg (by omega),
    if_neg (by omega), hblocks, hout]

theorem decodeChunk_encodeChunk {pk : PackFns} (hc : pk.Contract) {x : List Word} (rest : List Word) (sel : Word)
    {avail : Nat} (hmod : x.length % 128 = 0) (hmax : x.length ≤ 2 ^ 24) (havail : x.length ≤ avail) :
    decodeChunk pk ((encodeChunk pk x sel).out ++ rest) avail =
      .ok { vals := x, used := (encodeChunk pk x sel).out.length, width := (encodeChunk pk x sel).width } :=
  decodeChunk_encodeChunkAt hc rest (estimate_le x sel) hmod hmax havail

/-! ### The array round trip (R138) -/

theorem encodeChunk_out_cons (pk : PackFns) (x : List Word) (sel : Word) :
    ∃ more, (encodeChunk pk x sel).out = toReg x.length :: toReg (estimate x sel) :: more := ⟨_, rfl⟩

@[simp] theorem encodeArrayLoop_nil (pk : PackFns) (sel : Word) (fuel : Nat) :
    encodeArrayLoop pk sel fuel [] = { out := [], chunks := 0, excCount := 0 } := by
  cases fuel <;> rfl

theorem encodeArrayLoop_succ {pk : PackFns} {sel : Word} {fuel : Nat} {x : List Word} (hx : 0 < x.length) :
    encodeArrayLoop pk sel (fuel + 1) x =
      { out := (encodeChunk pk (x.take chunkMax) sel).out ++ (encodeArrayLoop pk sel fuel (x.drop chunkMax)).out
        chunks := (encodeArrayLoop pk sel fuel (x.drop chunkMax)).chunks + 1
        excCount := (encodeChunk pk (x.take chunkMax) sel).excCount +
          (encodeArrayLoop pk sel fuel (x.drop chunkMax)).excCount } := by
  rw [encodeArrayLoop, if_neg (by omega)]

theorem encodeArrayLoop_chunks {pk : PackFns} {sel : Word} {fuel : Nat} {x : List Word} (hfuel : x.length ≤ fuel) :
    (encodeArrayLoop pk sel fuel x).chunks = (x.length + (2 ^ 24 - 1)) / 2 ^ 24 := by
  induction fuel generalizing x with
  | zero =>
    rw [List.eq_nil_of_length_eq_zero (Nat.le_zero.mp hfuel)]
    rfl
  | succ fuel ih =>
    rcases Nat.eq_zero_or_pos x.length with hx | hx
    · rw [List.eq_nil_of_length_eq_zero hx]
      rfl
    · have hdrop : (x.drop chunkMax).length = x.length - 2 ^ 24 := List.length_drop
      rw [encodeArrayLoop_succ hx, ih (by omega), hdrop]
      show (x.length - 2 ^ 24 + (2 ^ 24 - 1)) / 2 ^ 24 + 1 = _
      omega

/-- The chunks of an array from one on, `pre` being the words before its frame. -/
theorem decodeArrayLoop_encodeArrayLoop {pk : PackFns} (hc : pk.Contract) {sel : Word} {fuel : Nat}
    {x w pre rest : List Word} (hmod : x.length % 128 = 0) (hfuel : x.length ≤ fuel)
    (hw : w = pre ++ (encodeArrayLoop pk sel fuel x).out ++ rest) :
    decodeArrayLoop pk w fuel x.length pre.length =
      .ok { vals := x
            used := (pre ++ (encodeArrayLoop pk sel fuel x).out).length
            chunks := (encodeArrayLoop pk sel fuel x).chunks } := by
  induction fuel generalizing x pre with
  | zero =>
    rw [List.eq_nil_of_length_eq_zero (Nat.le_zero.mp hfuel)]
    simp [decodeArrayLoop]
  | succ fuel ih =>
    rcases Nat.eq_zero_or_pos x.length with hx | hx
    · rw [List.eq_nil_of_length_eq_zero hx]
      simp [decodeArrayLoop]
    · have htake : (x.take chunkMax).length = min (2 ^ 24) x.length := List.length_take
      have hdrop : (x.drop chunkMax).length = x.length - 2 ^ 24 := List.length_drop
      rw [encodeArrayLoop_succ hx, ← List.append_assoc] at hw
      rw [encodeArrayLoop_succ hx, ← List.append_assoc]
      have hchunk := decodeChunk_encodeChunk hc ((encodeArrayLoop pk sel fuel (x.drop chunkMax)).out ++ rest) sel
        (x := x.take chunkMax) (avail := x.length) (by omega) (by omega) (by omega)
      have hrest := ih (x := x.drop chunkMax) (by omega) (by omega) hw
      rw [List.append_assoc, List.append_assoc] at hw
      have hlen : (wordAt w pre.length).toNat = (x.take chunkMax).length := by
        rw [hw, ← Nat.add_zero pre.length, wordAt_append_right]
        exact toNat_toReg (by omega)
      have hroom : pre.length + 2 ≤ w.length := by
        obtain ⟨more, hout⟩ := encodeChunk_out_cons pk (x.take chunkMax) sel
        rw [hw, hout]
        simp only [List.length_append, List.length_cons]
        omega
      have howed : x.length - (x.take chunkMax).length = (x.drop chunkMax).length := by omega
      have hdropw : w.drop pre.length = (encodeChunk pk (x.take chunkMax) sel).out ++
          ((encodeArrayLoop pk sel fuel (x.drop chunkMax)).out ++ rest) := by
        rw [hw, List.drop_left]
      rw [List.length_append] at hrest
      rw [decodeArrayLoop, if_neg (by omega), if_neg (by omega), hlen, if_neg (by omega), hdropw, hchunk]
      simp only [howed, hrest, List.take_append_drop, List.length_append]

/-- R138: the array round trip, with any words after the frame. -/
theorem decodeArray_encodeArray {pk : PackFns} (hc : pk.Contract) {x : List Word} (rest : List Word) (sel : Word)
    {cap : Nat} (hmod : x.length % 128 = 0) (hmax : x.length < 2 ^ 32) (hcap : x.length ≤ cap) :
    decodeArray pk ((encodeArray pk x sel).out ++ rest) cap =
      .ok { vals := x
            used := (encodeArray pk x sel).out.length
            chunks := (x.length + (2 ^ 24 - 1)) / 2 ^ 24 } := by
  have hN : (wordAt ((encodeArray pk x sel).out ++ rest) 0).toNat = x.length := toNat_toReg hmax
  have hloop := decodeArrayLoop_encodeArrayLoop hc (sel := sel) (w := (encodeArray pk x sel).out ++ rest)
    (pre := [toReg x.length]) (rest := rest) hmod (Nat.le_refl _) rfl
  rw [encodeArrayLoop_chunks (Nat.le_refl _)] at hloop
  rw [decodeArray, if_neg (by simp [encodeArray]), hN, if_neg (by omega)]
  exact hloop

/-! ### The obligation -/

/-- Settles O37, by induction on the rounds of the two chunk loops over the round trip of a chunk. -/
theorem arrayRoundTrip : Obligations.ArrayRoundTrip := by
  intro pk hc x rest sel cap
  exact decodeArray_encodeArray hc rest sel

end Sys2Proof.Machine
end

section
/-! PROOFS. How many words the packers, the patcher and the decoders give. -/

namespace Sys2Proof.Machine

/-! ### The packers of the model meet the contract -/

theorem wordAt_ofFn {n : Nat} (f : Fin n → Word) : (fun i : Fin n => wordAt (List.ofFn f) i) = f := by
  funext i
  simp [wordAt, List.getD_eq_getElem?_getD]

theorem ofFn_wordAt {xs : List Word} {n : Nat} (h : xs.length = n) :
    List.ofFn (fun i : Fin n => wordAt xs i) = xs := by
  subst h
  apply List.ext_getElem (by simp)
  intro i _ _
  simp [wordAt, List.getD_eq_getElem?_getD]

/-- Rearranging the payloads of each width by a bijection keeps the contract (log 2). -/
theorem externalFns_contract (k : Nat) : (externalFns k).Contract where
  lossless P b hl hb hv := by
    have rearranged : (externalFns k).unpack ((externalFns k).pack P b) b = unpackRef (packRef P b) b := by
      simp only [externalFns, if_neg (show b ≠ 32 by omega), wordAt_ofFn, Equiv.symm_apply_apply]
      rw [ofFn_wordAt (show (packRef P b).length = 4 * b from packRef_length P b)]
    rw [rearranged, unpackRef_packRef hl hv]
  range w b hb _ := by
    simp only [externalFns, if_neg (show b ≠ 32 by omega)]
    exact unpackRef_range (by omega)
  packSize P b _ _ := by simp [externalFns, bw]
  unpackSize w b _ hw := by
    by_cases hb : b = 32
    · subst hb
      simpa [externalFns, bw] using hw
    · simp [externalFns, hb, unpackRef_length]
  packZero P _ := by simp [externalFns]
  unpackZero := refFns_contract.unpackZero
  unpackRaw w _ := by simp [externalFns]

theorem packFns_contract (p : Packer) : (packFns p).Contract := by
  cases p with
  | ref => exact refFns_contract
  | external k => exact externalFns_contract k

/-! ### Answers behind a check -/

/-- A check that raises an error lets an answer through only where it passes. -/
theorem ite_error_eq_ok {α : Type} {c : Prop} [Decidable c] {e : ErrCode} {x : Except ErrCode α} {a : α} :
    (if c then .error e else x) = .ok a ↔ ¬c ∧ x = .ok a := by
  split <;> simp [*]

/-! ### How many words the patcher and the decoders give -/

theorem walkChain_length {es : List Word} {cur : Nat} {xs out : List Word} (h : walkChain es cur xs = .ok out) :
    out.length = xs.length := by
  induction es generalizing cur xs with
  | nil =>
    rw [walkChain, Except.ok.injEq] at h
    rw [h]
  | cons e es ih =>
    rw [walkChain, ite_error_eq_ok] at h
    rw [ih h.2, List.length_set]

theorem decompressBlock_length {pk : PackFns} {w excs out : List Word} {b first used : Nat}
    (h : decompressBlock pk w b excs first = .ok (out, used)) : out.length = (pk.unpack w b).length := by
  unfold decompressBlock at h
  split at h
  · cases h
    rfl
  · split at h
    · rename_i hw
      cases h
      exact walkChain_length hw
    · cases h

theorem decodeBlock_ok {pk : PackFns} {w blk : List Word} {b T k cur stop : Nat}
    (h : decodeBlock pk w b T k cur = .ok (blk, stop)) :
    stop = headerEnd (blockHeader w b k) ∧ BlockSound w b T k cur ∧
      ∃ used, blockAnswer pk w b T k cur = .ok (blk, used) := by
  simp only [decodeBlock_eq, ite_error_eq_ok] at h
  obtain ⟨hrise, hraw, hin, h⟩ := h
  split at h
  · cases h
  · rename_i hb
    cases h
    exact ⟨rfl, ⟨by omega, fun h32 => by_contra fun hne => hraw ⟨h32, hne⟩, by omega⟩, _, hb⟩

theorem decodeBlocks_length {pk : PackFns} (hc : pk.Contract) {w vals : List Word} {b T todo k cur last : Nat} (hb : b ≤ 32)
    (hw : tailStart (k + todo) b ≤ w.length) (h : decodeBlocks pk w b T todo k cur = .ok (vals, last)) :
    vals.length = 128 * todo := by
  induction todo generalizing k cur vals with
  | zero =>
    cases h
    rfl
  | succ todo ih =>
    simp only [decodeBlocks] at h
    split at h
    · cases h
    · rename_i blk stop hblk
      split at h
      · cases h
      · rename_i rest last' hrest
        cases h
        obtain ⟨-, -, used, hans⟩ := decodeBlock_ok hblk
        have hpay : (blockPayload w b k).length = bw b := by
          have : tailStart (k + (todo + 1)) b = 2 + k * (1 + 4 * b) + todo * (1 + 4 * b) + (1 + 4 * b) := by
            simp only [tailStart, bw]; ring
          rw [blockPayload, slice_length, bw]
          omega
        rw [List.length_append, decompressBlock_length hans, hc.unpackSize _ _ hb hpay,
          ih (by rwa [Nat.add_assoc, Nat.add_comm 1]) hrest]
        ring

/-- What a chunk that decodes has passed (R127). -/
theorem decodeChunk_ok {pk : PackFns} {w : List Word} {avail : Nat} {r : ChunkValues} (h : decodeChunk pk w avail = .ok r) :
    (wordAt w 0).toNat % 128 = 0 ∧ (wordAt w 1).toNat ≤ 32 ∧ (wordAt w 0).toNat ≤ avail ∧
      tailStart ((wordAt w 0).toNat / 128) (wordAt w 1).toNat ≤ w.length ∧
      ∃ last, decodeBlocks pk w (wordAt w 1).toNat (tailStart ((wordAt w 0).toNat / 128) (wordAt w 1).toNat)
        ((wordAt w 0).toNat / 128) 0 0 = .ok (r.vals, last) := by
  simp only [decodeChunk, ite_error_eq_ok] at h
  obtain ⟨-, hlen, hb, havail, htail, h⟩ := h
  split at h
  · cases h
  · rename_i hblocks
    cases h
    exact ⟨by omega, by omega, by omega, by omega, _, hblocks⟩

theorem decodeChunk_length {pk : PackFns} (hc : pk.Contract) {w : List Word} {avail : Nat} {r : ChunkValues}
    (h : decodeChunk pk w avail = .ok r) : r.vals.length = (wordAt w 0).toNat ∧ r.vals.length ≤ avail := by
  obtain ⟨hmod, hb, havail, htail, last, hblocks⟩ := decodeChunk_ok h
  have := decodeBlocks_length hc hb (by simpa using htail) hblocks
  omega

theorem decodeArrayLoop_length {pk : PackFns} (hc : pk.Contract) {w : List Word} {fuel owed pos : Nat} {r : ArrayValues}
    (h : decodeArrayLoop pk w fuel owed pos = .ok r) : r.vals.length ≤ owed := by
  induction fuel generalizing owed pos r with
  | zero =>
    cases h
    exact Nat.zero_le _
  | succ fuel ih =>
    simp only [decodeArrayLoop] at h
    split at h
    · cases h
      exact Nat.zero_le _
    · simp only [ite_error_eq_ok] at h
      obtain ⟨-, -, h⟩ := h
      split at h
      · cases h
      · rename_i chunk hchunk
        split at h
        · cases h
        · rename_i rest hrest
          cases h
          have hthis := (decodeChunk_length hc hchunk).2
          have hthose := ih hrest
          simp only [List.length_append]
          omega

theorem decodeArray_length {pk : PackFns} (hc : pk.Contract) {w : List Word} {cap : Nat} {r : ArrayValues}
    (h : decodeArray pk w cap = .ok r) : r.vals.length ≤ cap := by
  simp only [decodeArray, ite_error_eq_ok] at h
  obtain ⟨-, hcap, h⟩ := h
  have := decodeArrayLoop_length hc h
  omega

end Sys2Proof.Machine
end

section
/-! PROOFS. Every step keeps the invariant of the machine (10_state.md, 20_memory.md). -/

namespace Sys2Proof.Machine

/-! ### The data memory: canonical, and inside `MEM_WORDS` -/

/-- The clauses of the machine's invariant that speak of the data memory. -/
structure MemOk (p : Params) (m : Memory) : Prop where
  wf : Memory.wf m
  inside : ∀ c ∈ m, c.1 < 4 * p.memWords

theorem MachineInv.memOk {s : State} (h : MachineInv s) : MemOk s.params s.mem := ⟨h.memWf, h.memInside⟩

theorem MemOk.memWrite {p : Params} {m : Memory} (h : MemOk p m) (e : Endian) {a : Nat} {ws : List Word}
    (hin : a + ws.length ≤ p.memWords) : MemOk p (memWrite e m a ws) where
  wf := memWrite_wf h.wf e a ws
  inside c hc := by
    rcases mem_memWrite hc with hc | hc
    · exact h.inside c hc
    · omega

theorem MemOk.fillFree {p : Params} {m : Memory} (h : MemOk p m) (d : Nat) (rs : List Region) :
    MemOk p (fillFree p d rs m) where
  wf := fillFree_wf h.wf p d rs
  inside c hc := (mem_fillFree hc).elim (h.inside c) id

/-- The words a success stores lie in the data memory (R57). -/
def Success.Inside (p : Params) (ok : Success) : Prop := ∀ w ∈ ok.writes, w.1 + w.2.length ≤ p.memWords

theorem MemOk.foldl_memWrite {p : Params} {m : Memory} (h : MemOk p m) (e : Endian) {writes : List (Nat × List Word)}
    (hin : ∀ w ∈ writes, w.1 + w.2.length ≤ p.memWords) :
    MemOk p (writes.foldl (fun m w => Machine.memWrite e m w.1 w.2) m) := by
  induction writes generalizing m with
  | nil => exact h
  | cons w ws ih => exact ih (h.memWrite e (hin w (by simp))) fun w hw => hin w (by simp [hw])

theorem freeScratch_legal (d : Nat) : (freeScratch d).Legal :=
  ⟨List.length_take_le _ _, List.length_take_le _ _⟩

/-! ### The invariant through a completion -/

section
variable {s : State} (h : MachineInv s)
include h

theorem finish_inv (c : ErrCode) (r0 r1 r2 cur : Word) {m : Memory} (hm : MemOk s.params m) :
    MachineInv (finish c r0 r1 r2 { s with mem := m, excCur := cur }) where
  params := h.params
  memWf := hm.wf
  memInside := hm.inside
  cmdReserved := h.cmdReserved
  busyClear hb := by simp at hb
  errIff := by simp
  scratch := freeScratch_legal _
  racedBusy hr := by simp at hr

theorem succeed_inv {ok : Success} {m : Memory} (hm : MemOk s.params m) (hin : ok.Inside s.params) :
    MachineInv (succeed ok { s with mem := m }) :=
  finish_inv h _ _ _ _ _ (hm.foldl_memWrite _ hin)

theorem raiseError_inv (ws : List Region) (c : ErrCode) : MachineInv (raiseError ws c s) := by
  refine finish_inv h c _ _ _ s.excCur ?_
  split
  · exact h.memOk
  · exact h.memOk.fillFree _ _

theorem finishRaced_inv (ws : List Region) (cursor : Bool) : MachineInv (finishRaced ws cursor s) := by
  have filled := h.memOk.fillFree s.draws ws
  rcases finishRaced_cases ws cursor s with heq | ⟨c, -, heq⟩ <;> rw [heq]
  · exact succeed_inv h filled fun w hw => by simp at hw
  · exact finish_inv h c _ _ _ s.excCur filled

theorem complete_inv (ws : List Region) (cursor : Bool) {body : Except ErrCode Success}
    (hin : ∀ ok, body = .ok ok → ok.Inside s.params) : MachineInv (complete ws cursor body s) := by
  rcases complete_cases ws cursor body s with ⟨-, ok, hb, heq⟩ | ⟨-, c, -, heq⟩ | ⟨-, heq⟩ <;> rw [heq]
  · exact succeed_inv h h.memOk (hin ok hb)
  · exact raiseError_inv h ws c
  · exact finishRaced_inv h ws cursor

end

/-! ### The stores of a command that succeeds lie in the data memory -/

theorem estimateBody_inside {s : State} {ok : Success} (h : estimateBody s = .ok ok) : ok.Inside s.params := by
  simp only [estimateBody, ite_error_eq_ok, Except.ok.injEq] at h
  obtain ⟨-, rfl⟩ := h
  intro w hw
  simp at hw

theorem blkEncBody_inside {b : Nat} {s : State} {ok : Success} (h : blkEncBody b s = .ok ok) : ok.Inside s.params := by
  simp only [blkEncBody, ite_error_eq_ok, Except.ok.injEq, Bool.not_eq_true', Bool.not_eq_false, allInRange_blkEnc] at h
  obtain ⟨hb, -, hrange, -, hroom, rfl⟩ := h
  have hwords : (blkEncResult b s).words.length = 4 * b :=
    compressBlock_words_length (packFns_contract _) (memRead_length _ _ _ _) (by omega)
  intro w hw
  simp only [List.mem_cons, List.not_mem_nil, or_false] at hw
  rcases hw with rfl | rfl <;> simp only <;> omega

theorem blkDecBody_inside {b : Nat} {s : State} {ok : Success} (h : blkDecBody b s = .ok ok) : ok.Inside s.params := by
  simp only [blkDecBody, ite_error_eq_ok, Bool.not_eq_true', Bool.not_eq_false, allInRange_blkDec] at h
  obtain ⟨hb, -, -, hrange, -, h⟩ := h
  split at h
  · cases h
  · rename_i out used hresult
    cases h
    have hout : out.length = 128 := (decompressBlock_length hresult).trans
      ((packFns_contract _).unpackSize _ b (by omega) (memRead_length _ _ _ _))
    intro w hw
    rw [List.mem_singleton] at hw
    subst hw
    simp only
    omega

/-- One store of at most `DST_CAP` words at `DST_ADDR` lies in the data memory where the command's regions do. -/
theorem inside_of_frame {s : State} {i : Instr} {ok : Success} {out : List Word}
    (hi : i ∈ [Instr.chunkEnc, .chunkDec, .arrayEnc, .arrayDec]) (hrange : allInRange i s = true)
    (hok : ok.writes = [(s.dstAddr.toNat, out)]) (hout : out.length ≤ s.dstCap.toNat) : ok.Inside s.params := by
  have := (frame_checks hi).1.mp hrange
  intro w hw
  rw [hok, List.mem_singleton] at hw
  subst hw
  simp only
  omega

theorem chunkEncBody_inside {s : State} {ok : Success} (h : chunkEncBody s = .ok ok) : ok.Inside s.params := by
  simp only [chunkEncBody, ite_error_eq_ok, Except.ok.injEq, Bool.not_eq_true', Bool.not_eq_false] at h
  obtain ⟨-, hrange, -, hroom, rfl⟩ := h
  exact inside_of_frame (by simp) hrange rfl (by omega)

theorem arrayEncBody_inside {s : State} {ok : Success} (h : arrayEncBody s = .ok ok) : ok.Inside s.params := by
  simp only [arrayEncBody, ite_error_eq_ok, Except.ok.injEq, Bool.not_eq_true', Bool.not_eq_false] at h
  obtain ⟨-, hrange, -, hroom, rfl⟩ := h
  exact inside_of_frame (by simp) hrange rfl (by omega)

theorem chunkDecBody_inside {s : State} {ok : Success} (h : chunkDecBody s = .ok ok) : ok.Inside s.params := by
  simp only [chunkDecBody, ite_error_eq_ok, Bool.not_eq_true', Bool.not_eq_false] at h
  obtain ⟨hrange, -, h⟩ := h
  split at h
  · cases h
  · rename_i hresult
    cases h
    exact inside_of_frame (by simp) hrange rfl (decodeChunk_length (packFns_contract _) hresult).2

theorem arrayDecBody_inside {s : State} {ok : Success} (h : arrayDecBody s = .ok ok) : ok.Inside s.params := by
  simp only [arrayDecBody, ite_error_eq_ok, Bool.not_eq_true', Bool.not_eq_false] at h
  obtain ⟨hrange, -, h⟩ := h
  split at h
  · cases h
  · rename_i hresult
    cases h
    exact inside_of_frame (by simp) hrange rfl (decodeArray_length (packFns_contract _) hresult)

/-! ### The invariant through every step -/

theorem exec_inv {i : Instr} {s t : State} (h : MachineInv s) (he : exec i s = .next t) : MachineInv t := by
  cases i with
  | estimate => cases he; exact complete_inv h _ _ fun _ => estimateBody_inside
  | blkEnc b => cases he; exact complete_inv h _ _ fun _ => blkEncBody_inside
  | blkDec b => cases he; exact complete_inv h _ _ fun _ => blkDecBody_inside
  | chunkEnc => cases he; exact complete_inv h _ _ fun _ => chunkEncBody_inside
  | chunkDec => cases he; exact complete_inv h _ _ fun _ => chunkDecBody_inside
  | arrayEnc => cases he; exact complete_inv h _ _ fun _ => arrayEncBody_inside
  | arrayDec => cases he; exact complete_inv h _ _ fun _ => arrayDecBody_inside
  | reservedOp0 => cases he; exact raiseError_inv h _ _
  | reservedOp8F op => cases he; exact raiseError_inv h _ _

theorem engineTurn_inv {s t : State} (h : MachineInv s) (he : engineTurn s = .next t) : MachineInv t := by
  cases hp : s.phase with
  | idle =>
    rw [engineTurn_idle hp] at he
    cases he
    exact h
  | busy => exact exec_inv h (engineTurn_busy hp ▸ he)

/-- The fields the invariant speaks of. -/
def invFields (s : State) : Phase × Word × Bool × Bool × ErrCode × Scratch × Params × Memory × Bool :=
  (s.phase, s.cmd, s.done, s.err, s.errCode, s.scratch, s.params, s.mem, s.raced)

/-- An update of the other fields keeps the invariant. -/
theorem MachineInv.congr {s t : State} (h : MachineInv s) (same : invFields t = invFields s) : MachineInv t := by
  simp only [invFields, Prod.mk.injEq] at same
  obtain ⟨phase, cmd, done, err, errCode, scratch, params, mem, raced⟩ := same
  obtain ⟨h1, h2, h3, h4, h5, h6, h7, h8⟩ := h
  constructor <;> simpa only [phase, cmd, done, err, errCode, scratch, params, mem, raced]

theorem issue_inv {s : State} (h : MachineInv s) (v : Word) : MachineInv (issue v s) where
  params := h.params
  memWf := h.memWf
  memInside := h.memInside
  cmdReserved := by rw [issue_cmd, BitVec.and_assoc, BitVec.and_self]
  busyClear _ := ⟨rfl, rfl, rfl⟩
  errIff := by simp
  scratch := h.scratch
  racedBusy hr := by simp at hr

theorem writeStatus_inv {s : State} (h : MachineInv s) (v : Word) : MachineInv (writeStatus v s) where
  params := h.params
  memWf := h.memWf
  memInside := h.memInside
  cmdReserved := h.cmdReserved
  busyClear hb := by
    obtain ⟨hdone, herr, hcode⟩ := h.busyClear hb
    simp [hdone, herr, hcode]
  errIff := by
    cases hv : v.getLsbD 2 with
    | true => simp [hv]
    | false =>
      rw [writeStatus_err, writeStatus_errCode, hv]
      simpa using h.errIff
  scratch := h.scratch
  racedBusy := h.racedBusy

theorem guarded_inv {s : State} (h : MachineInv s) {update : State → State} (hu : MachineInv (update s)) :
    MachineInv (guarded update s) := by
  cases hp : s.phase with
  | idle => rwa [guarded_idle hp]
  | busy =>
    rw [guarded_busy hp]
    exact h.congr rfl

theorem writeReg_inv {s : State} (h : MachineInv s) (r : Reg) (v : Word) : MachineInv (writeReg r v s) := by
  cases r with
  | cmd => exact guarded_inv h (issue_inv h v)
  | status => exact writeStatus_inv h v
  | id | result0 | result1 | result2 => exact h
  | srcAddr | srcLen | dstAddr | dstCap | excAddr | excCur | excEnd | first | sampleSel =>
    rw [writeReg]
    exact guarded_inv h (h.congr rfl)

theorem busWrite_inv {s : State} (h : MachineInv s) (off : Nat) (width : Width) (v : Word) :
    MachineInv (busWrite off width v s) := by
  rcases busWrite_cases off width v s with heq | ⟨r, -, -, heq⟩ <;> rw [heq]
  · exact h
  · exact writeReg_inv h r v

theorem hostMemWrite_inv {s t : State} (h : MachineInv s) {a : Nat} {v : Word} (he : hostMemWrite a v s = .next t) :
    MachineInv t := by
  unfold hostMemWrite at he
  split at he
  · cases he
  · cases he
    have stored := h.memOk.memWrite s.params.endian (a := a) (ws := [v]) (by rw [List.length_singleton]; omega)
    exact
      { params := h.params
        memWf := stored.wf
        memInside := stored.inside
        cmdReserved := h.cmdReserved
        busyClear := h.busyClear
        errIff := h.errIff
        scratch := h.scratch
        racedBusy := fun hr => by
          simp only [Bool.or_eq_true, Bool.and_eq_true, decide_eq_true_eq] at hr
          exact hr.elim h.racedBusy fun hr => hr.1 }

theorem hostMemRead_inv {s t : State} (h : MachineInv s) {a : Nat} (he : hostMemRead a s = .next t) : MachineInv t := by
  unfold hostMemRead at he
  split_ifs at he <;> cases he <;> exact h.congr rfl

theorem platformReset_inv {s : State} (h : MachineInv s) : MachineInv (platformReset s) := by
  have kept : MemOk s.params (platformReset s).mem := by
    rw [platformReset_mem]
    split
    · exact h.memOk
    · exact h.memOk.fillFree _ _
  exact
    { params := h.params
      memWf := kept.wf
      memInside := kept.inside
      cmdReserved := by rw [platformReset_cmd, BitVec.zero_and]
      busyClear := fun hb => by simp at hb
      errIff := by simp
      scratch := freeScratch_legal _
      racedBusy := fun hr => by simp at hr }

theorem peerRuns_inv {s : State} (h : MachineInv s) (rd wr : List Region) : MachineInv (peerRuns rd wr s) := by
  rcases peerRuns_cases rd wr s with heq | ⟨hbusy, -, heq⟩ <;> rw [heq]
  · exact h
  · have freed := h.memOk.fillFree s.draws wr
    exact
      { params := h.params
        memWf := freed.wf
        memInside := freed.inside
        cmdReserved := h.cmdReserved
        busyClear := h.busyClear
        errIff := h.errIff
        scratch := h.scratch
        racedBusy := fun _ => hbusy }

/-- An event keeps the invariant, from the state `before` it was taken off the schedule of. -/
theorem runEvent_inv {e : Event} {before s t : State} (hbefore : MachineInv before) (h : MachineInv s)
    (he : runEvent e before s = .next t) : MachineInv t := by
  cases e with
  | regRead addr width =>
    simp only [runEvent, hostRegRead] at he
    split_ifs at he
    cases he
    exact h.congr rfl
  | regWrite addr width v =>
    simp only [runEvent, hostRegWrite] at he
    split_ifs at he
    cases he
    exact busWrite_inv h _ _ _
  | memRead a => exact hostMemRead_inv h he
  | memWrite a v => exact hostMemWrite_inv h he
  | wait =>
    simp only [runEvent] at he
    split at he
    · cases he
      exact h
    · exact engineTurn_inv hbefore he
  | engine => exact engineTurn_inv h he
  | reset =>
    cases he
    exact platformReset_inv h
  | peer rd wr =>
    cases he
    exact peerRuns_inv h rd wr

theorem step_inv {s t : State} (h : MachineInv s) (he : step s = .next t) : MachineInv t := by
  cases hs : s.script with
  | nil => exact engineTurn_inv h (step_nil hs ▸ he)
  | cons e rest =>
    rw [step_cons hs] at he
    refine runEvent_inv h ?_ he
    exact h.congr rfl

/-! ### The obligation -/

/-- Settles O14: each kind of event keeps the invariant (`step_inv`); a completed command's stores lie in its regions, which
the range check keeps inside the memory. -/
theorem stepKeepsInv : Obligations.StepKeepsInv := by
  intro s t
  exact step_inv

end Sys2Proof.Machine
end

section
/-! PROOFS. What the completion of a command changes and what it reads (10_state.md R36, R42, R44, R49). -/

namespace Sys2Proof.Machine

/-! ### Every command is a completion -/

/-- `t` is `s` after the completion of a command: `finish`, on a state in which only the memory and `EXC_CUR` have changed,
the cursor only where the command writes it (R36). -/
inductive Ends (cursor : Bool) (s : State) : State → Prop where
  | intro (c : ErrCode) (r0 r1 r2 cur : Word) (m : Memory) (kept : cursor = false → cur = s.excCur) :
      Ends cursor s (finish c r0 r1 r2 { s with mem := m, excCur := cur })

theorem raiseError_ends (cursor : Bool) (ws : List Region) (c : ErrCode) (s : State) :
    Ends cursor s (raiseError ws c s) := .intro _ _ _ _ _ _ fun _ => rfl

theorem finishRaced_ends (ws : List Region) (cursor : Bool) (s : State) : Ends cursor s (finishRaced ws cursor s) := by
  rcases finishRaced_cases ws cursor s with heq | ⟨c, -, heq⟩ <;> rw [heq]
  · exact .intro _ _ _ _ _ _ fun h => by simp [h]
  · exact .intro _ _ _ _ _ _ fun _ => rfl

theorem complete_ends (ws : List Region) {cursor : Bool} {body : Except ErrCode Success} {s : State}
    (hcur : cursor = false → ∀ ok, body = .ok ok → ok.excCur = s.excCur) : Ends cursor s (complete ws cursor body s) := by
  rcases complete_cases ws cursor body s with ⟨-, ok, hb, heq⟩ | ⟨-, c, -, heq⟩ | ⟨-, heq⟩ <;> rw [heq]
  · exact .intro _ _ _ _ _ _ fun h => hcur h ok hb
  · exact raiseError_ends cursor ws c s
  · exact finishRaced_ends ws cursor s

/-! ### The cursor of the commands that are no block commands (R36) -/

theorem estimateBody_ok {s : State} {ok : Success} (h : estimateBody s = .ok ok) :
    ok.excCur = s.excCur ∧ ok.writes = [] := by
  simp only [estimateBody, ite_error_eq_ok, Except.ok.injEq] at h
  obtain ⟨-, rfl⟩ := h
  exact ⟨rfl, rfl⟩

theorem chunkEncBody_excCur {s : State} {ok : Success} (h : chunkEncBody s = .ok ok) : ok.excCur = s.excCur := by
  simp only [chunkEncBody, ite_error_eq_ok, Except.ok.injEq] at h
  obtain ⟨-, -, -, -, rfl⟩ := h
  rfl

theorem arrayEncBody_excCur {s : State} {ok : Success} (h : arrayEncBody s = .ok ok) : ok.excCur = s.excCur := by
  simp only [arrayEncBody, ite_error_eq_ok, Except.ok.injEq] at h
  obtain ⟨-, -, -, -, rfl⟩ := h
  rfl

theorem chunkDecBody_excCur {s : State} {ok : Success} (h : chunkDecBody s = .ok ok) : ok.excCur = s.excCur := by
  simp only [chunkDecBody, ite_error_eq_ok] at h
  obtain ⟨-, -, h⟩ := h
  split at h <;> cases h
  rfl

theorem arrayDecBody_excCur {s : State} {ok : Success} (h : arrayDecBody s = .ok ok) : ok.excCur = s.excCur := by
  simp only [arrayDecBody, ite_error_eq_ok] at h
  obtain ⟨-, -, h⟩ := h
  split at h <;> cases h
  rfl

/-! ### What every command does, and what ESTIMATE does to the memory -/

theorem exec_ends (i : Instr) (s : State) : ∃ t, exec i s = .next t ∧ Ends (movesCursor i) s t := by
  cases i with
  | estimate => exact ⟨_, exec_estimate s, complete_ends _ fun _ _ h => (estimateBody_ok h).1⟩
  | blkEnc b => exact ⟨_, exec_blkEnc b s, complete_ends _ fun h => by cases h⟩
  | blkDec b => exact ⟨_, exec_blkDec b s, complete_ends _ fun h => by cases h⟩
  | chunkEnc => exact ⟨_, exec_chunkEnc s, complete_ends _ fun _ _ => chunkEncBody_excCur⟩
  | chunkDec => exact ⟨_, exec_chunkDec s, complete_ends _ fun _ _ => chunkDecBody_excCur⟩
  | arrayEnc => exact ⟨_, exec_arrayEnc s, complete_ends _ fun _ _ => arrayEncBody_excCur⟩
  | arrayDec => exact ⟨_, exec_arrayDec s, complete_ends _ fun _ _ => arrayDecBody_excCur⟩
  | reservedOp0 => exact ⟨_, exec_reservedOp0 s, raiseError_ends _ _ _ s⟩
  | reservedOp8F op => exact ⟨_, exec_reservedOp8F op s, raiseError_ends _ _ _ s⟩

theorem ends_of_exec {i : Instr} {s t : State} (h : exec i s = .next t) : Ends (movesCursor i) s t := by
  obtain ⟨u, hu, hends⟩ := exec_ends i s
  cases hu.symm.trans h
  exact hends

/-- A command that has no written region and whose success stores nothing leaves the memory as it was. -/
theorem complete_mem_of_no_region {cursor : Bool} {body : Except ErrCode Success} {s : State}
    (hbody : ∀ ok, body = .ok ok → ok.writes = []) : (complete [] cursor body s).mem = s.mem := by
  rcases complete_cases [] cursor body s with ⟨-, ok, hb, heq⟩ | ⟨-, c, -, heq⟩ | ⟨-, heq⟩ <;> rw [heq]
  · simp [hbody ok hb]
  · simp [fillFree]
  · rcases finishRaced_cases [] cursor s with heq | ⟨c, -, heq⟩ <;> simp [heq, fillFree]

/-! ### The obligations -/

theorem Ends.argsKept {cursor : Bool} {s t : State} (h : Ends cursor s t) : ArgsKept s t := by
  cases h
  simp [ArgsKept]

theorem Ends.excCur_eq {s t : State} (h : Ends false s t) : t.excCur = s.excCur := by
  cases h with
  | intro c r0 r1 r2 cur m kept => exact kept rfl

theorem movesCursor_eq_false {i : Instr} (h : ∀ b, i ≠ .blkEnc b ∧ i ≠ .blkDec b) : movesCursor i = false := by
  cases i with
  | blkEnc b => exact absurd rfl (h b).1
  | blkDec b => exact absurd rfl (h b).2
  | _ => rfl

/-- Settles O53: every command is a completion (`exec_ends`), which touches nothing else. -/
theorem commandFrame : Obligations.CommandFrame := by
  intro i s t h
  refine ⟨(ends_of_exec h).argsKept, fun hi => ?_, ?_⟩
  · exact (movesCursor_eq_false hi ▸ ends_of_exec h : Ends false s t).excCur_eq
  · rintro rfl
    cases h
    exact complete_mem_of_no_region fun _ hb => (estimateBody_ok hb).2

/-- Settles O54: every command is a completion (`exec_ends`). -/
theorem everyCommandCompletes : Obligations.EveryCommandCompletes := by
  intro i s
  obtain ⟨t, he, hends⟩ := exec_ends i s
  refine ⟨t, he, ?_⟩
  cases hends
  simp

/-- Settles O56: no arm of `exec` mentions the field, and the completion overwrites it. -/
theorem scratchNotRead : Obligations.ScratchNotRead := by
  intro i s x
  cases i <;> rfl

end Sys2Proof.Machine
end

section
/-! PROOFS. The register block as the host sees it (10_state.md R26 to R50). -/

namespace Sys2Proof.Machine

/-! ### Offsets -/

theorem busRead_regOffset (r : Reg) (s : State) : busRead (regOffset r) .word s = readReg r s := by
  simp [busRead]

theorem busWrite_regOffset (r : Reg) (v : Word) (s : State) : busWrite (regOffset r) .word v s = writeReg r v s := by
  simp [busWrite]

theorem regOffset_of_regAt {off : Nat} {r : Reg} (h : regAt off = some r) : off = regOffset r := by
  unfold regAt at h
  split at h <;> cases h <;> rfl

theorem regOffset_aligned (r : Reg) : regOffset r % 4 = 0 ∧ regOffset r < 0x3C := by
  cases r <;> decide

/-- There is no register between the offsets, nor from 0x3C on. -/
theorem regAt_eq_none {off : Nat} (h : off % 4 ≠ 0 ∨ 0x3C ≤ off) : regAt off = none := by
  cases hr : regAt off with
  | none => rfl
  | some r =>
    have := regOffset_aligned r
    have := regOffset_of_regAt hr
    omega

/-- An access that reaches no register reads 0 and writes nothing (R43). -/
theorem bus_off_registers {off : Nat} {width : Width} (h : width ≠ .word ∨ regAt off = none) (v : Word) (s : State) :
    busRead off width s = 0#32 ∧ busWrite off width v s = s := by
  cases width with
  | byte => exact ⟨rfl, rfl⟩
  | half => exact ⟨rfl, rfl⟩
  | word =>
    have hnone : regAt off = none := by simpa using h
    simp [busRead, busWrite, hnone]

/-! ### The fields of `STATUS` (R29) -/

theorem statusWord_bits (s : State) :
    (statusWord s).getLsbD 0 = decide (s.phase = .busy) ∧ (statusWord s).getLsbD 1 = s.done ∧
      (statusWord s).getLsbD 2 = s.err ∧ (statusWord s).getLsbD 3 = s.ign := by
  simp only [statusWord, BitVec.getLsbD_append]
  simp

theorem statusWord_code (s : State) :
    (statusWord s).extractLsb' 8 4 = BitVec.ofNat 4 (errNumber s.errCode) := by
  rw [statusWord]
  simp (disch := decide) only [BitVec.extractLsb'_append_eq_of_le, BitVec.extractLsb'_append_eq_of_add_le,
    BitVec.extractLsb'_eq_self, Nat.reduceSub]

theorem statusWord_reserved (s : State) :
    (statusWord s).extractLsb' 4 4 = 0#4 ∧ (statusWord s).extractLsb' 12 20 = 0#20 := by
  rw [statusWord]
  simp (disch := decide) only [BitVec.extractLsb'_append_eq_of_le, BitVec.extractLsb'_append_eq_of_add_le,
    BitVec.extractLsb'_eq_self, Nat.reduceSub, and_self]

/-- The mask of the reserved bits, cut as `statusWord` is, meets a 0 on one side everywhere. -/
theorem statusWord_and_reserved (s : State) : statusWord s &&& 0xFFFFF0F0#32 = 0#32 := by
  have mask : 0xFFFFF0F0#32 = 0xFFFFF#20 ++ 0#4 ++ 0xF#4 ++ 0#1 ++ 0#1 ++ 0#1 ++ 0#1 := rfl
  rw [mask, statusWord]
  iterate 6 rw [BitVec.and_append]
  simp

theorem errNumber_lt (c : ErrCode) : errNumber c < 2 ^ 4 := by
  cases c <;> decide

/-! ### Writes -/

theorem guarded_cases (update : State → State) (s : State) :
    guarded update s = update s ∨ guarded update s = { s with ign := true } := by
  unfold guarded
  split
  · exact .inl rfl
  · exact .inr rfl

theorem and_cmdMask_idem (v : Word) : v &&& cmdMask &&& cmdMask = v &&& cmdMask := by
  rw [BitVec.and_assoc, BitVec.and_self]

theorem issue_and_cmdMask (v : Word) (s : State) : issue (v &&& cmdMask) s = issue v s := by
  rw [issue, issue, and_cmdMask_idem]

/-- While IDLE a written argument register holds the word written, and every other register what it held. -/
theorem readReg_writeReg {r : Reg} {s : State} (hp : s.phase = .idle)
    (hr : r ∉ [Reg.id, Reg.cmd, Reg.status, Reg.result0, Reg.result1, Reg.result2]) (v : Word) (q : Reg) :
    readReg q (writeReg r v s) = if q = r then v else readReg q s := by
  cases r with
  | id | cmd | status | result0 | result1 | result2 => simp at hr
  | srcAddr | srcLen | dstAddr | dstCap | excAddr | excCur | excEnd | first | sampleSel =>
    rw [writeReg, guarded_idle hp]
    cases q <;> rfl

theorem writeReg_busy {r : Reg} {s : State} (hp : s.phase = .busy)
    (hr : r ∉ [Reg.id, Reg.status, Reg.result0, Reg.result1, Reg.result2]) (v : Word) :
    writeReg r v s = { s with ign := true } := by
  cases r with
  | id | status | result0 | result1 | result2 => simp at hr
  | cmd | srcAddr | srcLen | dstAddr | dstCap | excAddr | excCur | excEnd | first | sampleSel =>
    rw [writeReg, guarded_busy hp]

/-! ### The obligations -/

/-- Settles O7: `ID` is no field of the state. -/
theorem idHardwired : Obligations.IdHardwired := fun _ _ => ⟨rfl, rfl⟩

/-- Settles O8: an access that reaches a register is a 32-bit one at an offset of `regOffset`; the reserved bits of
`STATUS` are 0 in `statusWord`, and neither `writeStatus` nor `issue` reads those of the word written. -/
theorem registerAccessRules : Obligations.RegisterAccessRules := by
  intro s v
  refine ⟨fun off width h => bus_off_registers (h.imp_right regAt_eq_none) v s, statusWord_and_reserved s, ?_, ?_⟩
  · simp [writeReg, writeStatus]
  · show guarded (issue v) s = guarded (issue (v &&& cmdMask)) s
    cases hp : s.phase with
    | idle => rw [guarded_idle hp, guarded_idle hp, issue_and_cmdMask]
    | busy => rw [guarded_busy hp, guarded_busy hp]

/-- Settles O9: at its offset each register is read by `readReg` and written by `writeReg`. -/
theorem registerReadBack : Obligations.RegisterReadBack := by
  intro r v s
  refine ⟨⟨rfl, rfl, rfl, rfl, rfl, rfl, rfl, rfl, rfl, rfl, rfl, rfl, rfl⟩, fun hp => ?_, fun hp hr => ?_, fun hr => ?_⟩
  · simp only [busWrite, regAt, writeReg, guarded_idle hp, and_self]
  · simp only [busWrite_regOffset, busRead_regOffset, readReg_writeReg hp hr]
    exact ⟨if_pos trivial, fun q hq => if_neg hq⟩
  · rw [busWrite_regOffset]
    simp only [List.mem_cons, List.not_mem_nil, or_false] at hr
    rcases hr with rfl | rfl | rfl | rfl <;> rfl

/-- Settles O10: the fields are the pieces of `statusWord`, and a write of 1 clears its field in `writeStatus`. -/
theorem statusFields : Obligations.StatusFields := by
  refine ⟨⟨rfl, rfl, rfl, rfl, rfl, rfl, rfl, rfl, rfl, rfl, rfl, rfl⟩, fun s v => ?_⟩
  obtain ⟨hbusy, hdone, herr, hign⟩ := statusWord_bits s
  obtain ⟨hlow, hhigh⟩ := statusWord_reserved s
  have hcode : ((statusWord s).extractLsb' 8 4).toNat = errNumber s.errCode := by
    rw [statusWord_code, BitVec.toNat_ofNat, Nat.mod_eq_of_lt (errNumber_lt _)]
  have clears : ∀ field bit : Bool, (field && !bit) = if bit then false else field := by decide
  refine ⟨hbusy, hdone, herr, hign, hlow, hcode, hhigh, rfl, ?_, rfl⟩
  show writeStatus v s = _
  simp only [writeStatus, clears]

/-- Settles O11: the write is `issue`. -/
theorem issueOfCommand : Obligations.Issue := by
  intro v s hp
  have hissue : busWrite 0x04 .word v s = issue v s := guarded_idle hp
  rw [hissue]
  exact ⟨rfl, (statusWord_bits _).1.trans (by simp)⟩

/-- Settles O12: a guarded write while BUSY sets `IGN` only. -/
theorem busyWriteIgnored : Obligations.BusyWriteIgnored := by
  intro r v s hp hr
  rw [busWrite_regOffset]
  exact writeReg_busy hp hr v

theorem statusWord_platformReset (s : State) : statusWord (platformReset s) = 0#32 := by
  simp [statusWord, errNumber]

theorem regsReset_platformReset (s : State) : RegsReset (platformReset s) := by
  refine ⟨rfl, fun r => ?_⟩
  cases r with
  | status => exact statusWord_platformReset s
  | _ => rfl

/-- Settles O5: the registers are those of `State.reset` in both states, and `platformReset` fills the written regions of a
running command only. -/
theorem resetRegisters : Obligations.ResetRegisters := by
  refine ⟨⟨rfl, fun r => ?_⟩, rfl, rfl, rfl, rfl, fun s => ⟨regsReset_platformReset s, fun hp => ?_⟩⟩
  · cases r <;> rfl
  · rw [platformReset_mem, hp]

end Sys2Proof.Machine
end

section
/-! PROOFS. Every step keeps the invariants of `STATUS` (10_state.md R30). -/

namespace Sys2Proof.Machine

/-! ### The invariants, on the fields -/

/-- `StatusInv` on the fields behind the `STATUS` word (`statusInv_iff`). -/
structure StatusOk (s : State) : Prop where
  busyClear : s.phase = .busy → s.done = false ∧ s.err = false ∧ s.errCode = .noError
  errIff : s.err = true ↔ s.errCode ≠ .noError

theorem errNumber_eq_zero (c : ErrCode) : BitVec.ofNat 4 (errNumber c) = 0#4 ↔ c = .noError := by
  cases c <;> decide

theorem statusInv_iff (s : State) : StatusInv s ↔ StatusOk s := by
  obtain ⟨hbusy, hdone, herr, -⟩ := statusWord_bits s
  simp only [StatusInv, hbusy, hdone, herr, statusWord_code, ne_eq, errNumber_eq_zero, decide_eq_true_eq, true_and]
  exact ⟨fun h => ⟨h.1, h.2⟩, fun h => ⟨h.busyClear, h.errIff⟩⟩

/-- The fields `StatusOk` speaks of. -/
def statusFieldsOf (s : State) : Phase × Bool × Bool × ErrCode := (s.phase, s.done, s.err, s.errCode)

theorem StatusOk.congr {s t : State} (h : StatusOk s) (same : statusFieldsOf t = statusFieldsOf s) : StatusOk t := by
  simp only [statusFieldsOf, Prod.mk.injEq] at same
  obtain ⟨phase, done, err, errCode⟩ := same
  obtain ⟨h1, h2⟩ := h
  constructor <;> simpa only [phase, done, err, errCode]

theorem statusOk_of_idle {t : State} (hp : t.phase = .idle) (herr : t.err = decide (t.errCode ≠ .noError)) :
    StatusOk t where
  busyClear hb := by simp [hp] at hb
  errIff := by simp [herr]

/-! ### The updates -/

theorem Ends.statusOk {cursor : Bool} {s t : State} (h : Ends cursor s t) : StatusOk t := by
  cases h
  exact statusOk_of_idle rfl rfl

theorem issue_statusOk (v : Word) (s : State) : StatusOk (issue v s) where
  busyClear _ := ⟨rfl, rfl, rfl⟩
  errIff := by simp

theorem writeStatus_statusOk {s : State} (h : StatusOk s) (v : Word) : StatusOk (writeStatus v s) where
  busyClear hb := by
    obtain ⟨hdone, herr, hcode⟩ := h.busyClear hb
    simp [hdone, herr, hcode]
  errIff := by
    have := h.errIff
    cases hv : v.getLsbD 2 with
    | true => simp [hv]
    | false => rwa [writeStatus_err, writeStatus_errCode, hv, Bool.not_false, Bool.and_true]

theorem guarded_statusOk {s : State} (h : StatusOk s) {update : State → State} (hu : StatusOk (update s)) :
    StatusOk (guarded update s) := by
  rcases guarded_cases update s with heq | heq <;> rw [heq]
  · exact hu
  · exact h.congr rfl

theorem writeReg_statusOk {s : State} (h : StatusOk s) (r : Reg) (v : Word) : StatusOk (writeReg r v s) := by
  cases r with
  | cmd => exact guarded_statusOk h (issue_statusOk v s)
  | status => exact writeStatus_statusOk h v
  | id | result0 | result1 | result2 => exact h
  | srcAddr | srcLen | dstAddr | dstCap | excAddr | excCur | excEnd | first | sampleSel =>
    rw [writeReg]
    exact guarded_statusOk h (h.congr rfl)

theorem busWrite_statusOk {s : State} (h : StatusOk s) (off : Nat) (width : Width) (v : Word) :
    StatusOk (busWrite off width v s) := by
  rcases busWrite_cases off width v s with heq | ⟨r, -, -, heq⟩ <;> rw [heq]
  · exact h
  · exact writeReg_statusOk h r v

theorem peerRuns_statusOk {s : State} (h : StatusOk s) (rd wr : List Region) : StatusOk (peerRuns rd wr s) := by
  rcases peerRuns_cases rd wr s with heq | ⟨-, -, heq⟩ <;> rw [heq]
  · exact h
  · exact h.congr rfl

theorem engineTurn_statusOk {s t : State} (h : StatusOk s) (he : engineTurn s = .next t) : StatusOk t := by
  cases hp : s.phase with
  | idle =>
    rw [engineTurn_idle hp] at he
    cases he
    exact h
  | busy => exact (ends_of_exec (engineTurn_busy hp ▸ he)).statusOk

/-! ### The step -/

theorem runEvent_statusOk {e : Event} {before s t : State} (hbefore : StatusOk before) (h : StatusOk s)
    (he : runEvent e before s = .next t) : StatusOk t := by
  cases e with
  | regRead addr width =>
    simp only [runEvent, hostRegRead] at he
    split_ifs at he
    cases he
    exact h.congr rfl
  | regWrite addr width v =>
    simp only [runEvent, hostRegWrite] at he
    split_ifs at he
    cases he
    exact busWrite_statusOk h _ _ _
  | memRead a =>
    simp only [runEvent, hostMemRead] at he
    split_ifs at he <;> cases he <;> exact h.congr rfl
  | memWrite a v =>
    simp only [runEvent, hostMemWrite] at he
    split_ifs at he
    cases he
    exact h.congr rfl
  | wait =>
    simp only [runEvent] at he
    split at he
    · cases he
      exact h
    · exact engineTurn_statusOk hbefore he
  | engine => exact engineTurn_statusOk h he
  | reset =>
    cases he
    exact statusOk_of_idle rfl rfl
  | peer rd wr =>
    cases he
    exact peerRuns_statusOk h rd wr

theorem step_statusOk {s t : State} (h : StatusOk s) (he : step s = .next t) : StatusOk t := by
  cases hs : s.script with
  | nil => exact engineTurn_statusOk h (step_nil hs ▸ he)
  | cons e rest =>
    rw [step_cons hs] at he
    refine runEvent_statusOk h ?_ he
    exact h.congr rfl

/-! ### The obligation -/

/-- Settles O13: on the fields behind the word (`statusInv_iff`), each kind of event keeps the invariants. -/
theorem statusInvariants : Obligations.StatusInvariants := by
  intro s t h he
  rw [statusInv_iff] at h ⊢
  exact step_statusOk h he

end Sys2Proof.Machine
end

section
/-! PROOFS. The block commands, where they complete (42_patcher.md R122, R123). -/

namespace Sys2Proof.Machine

/-! ### The store of one list of words beside another -/

/-- `MemRead` of words that share no address with those a `MemWrite` stores, one of them possibly none. -/
theorem memRead_memWrite_of_not_shares (e : Endian) (m : Memory) {a c n : Nat} {ws : List Word}
    (h : ¬ Shares c n a ws.length) : memRead e (memWrite e m a ws) c n = memRead e m c n := by
  unfold memRead
  apply List.map_congr_left
  intro i hi
  rw [List.mem_range] at hi
  rw [readWord_memWrite, if_neg (by omega)]

theorem toNat_toReg_add {a : Word} {n c : Nat} (h : n ≤ c - a.toNat) (hc : a.toNat ≤ c) (hlt : c < 2 ^ 32) :
    (toReg (a.toNat + n)).toNat = a.toNat + n := toNat_toReg (by omega)

/-! ### BLK_ENC -/

theorem blkEncResult_words_length {b : Nat} (hb : b ≤ 32) (s : State) : (blkEncResult b s).words.length = 4 * b :=
  compressBlock_words_length (packFns_contract _) (memRead_length _ _ _ _) hb

/-- BLK_ENC succeeds where no check of R122 fails. -/
theorem blkEncBody_ok {b : Nat} {s : State} (hb : b ≤ 32) (hcur : s.excCur.toNat ≤ s.excEnd.toNat)
    (hrange : ¬ BlkEncBeyond b s) (hshare : ¬ BlkEncShared b s)
    (hroom : (blkEncResult b s).excs.length ≤ s.excEnd.toNat - s.excCur.toNat) :
    blkEncBody b s = .ok
      { writes := [(s.dstAddr.toNat, (blkEncResult b s).words),
          (s.excAddr.toNat + s.excCur.toNat, (blkEncResult b s).excs)]
        excCur := toReg (s.excCur.toNat + (blkEncResult b s).excs.length)
        result0 := toReg (blkEncResult b s).first
        result1 := toReg (blkEncResult b s).excs.length
        result2 := toReg (bw b) } := by
  rw [blkEncBody, if_neg (by omega), if_neg (by omega), if_neg (by simpa using allInRange_blkEnc.mpr hrange),
    if_neg (fun h => hshare (anyOverlap_blkEnc.mp h)), if_neg (by omega)]

/-- Settles O39: no check fails (`blkEncBody_ok`), and the two stores share no word. -/
theorem blkEncCompletes : Obligations.BlkEncCompletes := by
  intro b s hr hb hcur hsrc hdst hexc hds hes hde hroom
  simp only [inRange, decide_eq_true_eq] at hsrc hdst hexc
  simp only [← Bool.not_eq_true, overlaps_iff, regionAt, excRegion, bw] at hsrc hdst hexc hds hes hde
  have hshare : ¬ BlkEncShared b s := by simp only [BlkEncShared, hds, hes, hde, or_self, not_false_eq_true]
  have hbody := blkEncBody_ok hb hcur (by omega) hshare hroom
  have hlen := blkEncResult_words_length hb s
  refine ⟨_, (exec_blkEnc b s).trans (congrArg _ (complete_ok hr hbody)), ?_⟩
  refine ⟨⟨rfl, rfl, rfl, rfl⟩, ⟨rfl, rfl, rfl⟩, toNat_toReg_add hroom hcur s.excEnd.isLt, by simp [ArgsKept], hlen, ?_⟩
  simp only [Holds, succeed_mem, succeed_params, List.foldl_cons, List.foldl_nil]
  refine ⟨?_, memRead_memWrite_same _ _ _ _, fun x hx hx' => ?_⟩
  · rw [memRead_memWrite_of_not_shares _ _ (by omega), memRead_memWrite_same]
  · rw [readByte_memWrite_outside _ _ _ _ _ hx', readByte_memWrite_outside _ _ _ _ _ (by omega)]

/-! ### BLK_DEC -/

/-- A block without a first offset consumes no exception, and every other one its whole slice (R118, R121). -/
theorem decompressBlock_used {pk : PackFns} {w excs out : List Word} {b first used : Nat}
    (h : decompressBlock pk w b excs first = .ok (out, used)) : used = if first = 128 then 0 else excs.length := by
  unfold decompressBlock at h
  split at h
  · cases h
    simp [*]
  · split at h <;> cases h
    simp [*]

theorem blkDecResult_ok {b : Nat} {s : State} {out : List Word} {used : Nat} (hb : b ≤ 32)
    (h : blkDecResult b s = .ok (out, used)) :
    out.length = 128 ∧ used = if s.first.toNat = 128 then 0 else s.excEnd.toNat - s.excCur.toNat :=
  ⟨(decompressBlock_length h).trans ((packFns_contract _).unpackSize _ b hb (memRead_length _ _ _ _)),
    by simpa using decompressBlock_used h⟩

/-- BLK_DEC succeeds where no check of R123 fails. -/
theorem blkDecBody_ok {b : Nat} {s : State} {out : List Word} {used : Nat} (hb : b ≤ 32) (hfirst : s.first.toNat ≤ 128)
    (hcur : s.excCur.toNat ≤ s.excEnd.toNat) (hrange : ¬ BlkDecBeyond b s) (hshare : ¬ BlkDecShared b s)
    (hresult : blkDecResult b s = .ok (out, used)) :
    blkDecBody b s = .ok
      { writes := [(s.dstAddr.toNat, out)]
        excCur := toReg (s.excCur.toNat + used)
        result0 := toReg used
        result1 := 0#32
        result2 := 0#32 } := by
  rw [blkDecBody, if_neg (by omega), if_neg (by omega), if_neg (by omega),
    if_neg (by simpa using allInRange_blkDec.mpr hrange), if_neg (fun h => hshare (anyOverlap_blkDec.mp h)), hresult]

/-- Settles O40: no check fails (`blkDecBody_ok`), and the block is the one store. -/
theorem blkDecCompletes : Obligations.BlkDecCompletes := by
  intro b s out used hr hb hfirst hcur hsrc hexc hdst hds hde hresult
  simp only [inRange, decide_eq_true_eq] at hsrc hdst hexc
  simp only [← Bool.not_eq_true, overlaps_iff, regionAt, excRegion, bw] at hsrc hdst hexc hds hde
  have hshare : ¬ BlkDecShared b s := by simp only [BlkDecShared, hds, hde, or_self, not_false_eq_true]
  have hbody := blkDecBody_ok hb hfirst hcur (by omega) hshare hresult
  obtain ⟨hlen, hused⟩ := blkDecResult_ok hb hresult
  have hroom : used ≤ s.excEnd.toNat - s.excCur.toNat := by
    rw [hused]
    split <;> omega
  refine ⟨_, (exec_blkDec b s).trans (congrArg _ (complete_ok hr hbody)), ?_⟩
  refine ⟨⟨rfl, rfl, rfl, rfl⟩, ⟨rfl, rfl, rfl⟩, hused, toNat_toReg_add hroom hcur s.excEnd.isLt, by simp [ArgsKept], hlen,
    ?_, fun x hx => ?_⟩
  · exact memRead_memWrite_same _ _ _ _
  · exact readByte_memWrite_outside _ _ _ _ _ (by rwa [hlen])

end Sys2Proof.Machine
end

section
/-! PROOFS. What a step does, and that every run with a finite schedule comes to rest (70_reset_and_hazards.md R171,
10_state.md R49). -/

namespace Sys2Proof.Machine

/-! ### The engine's turns -/

theorem step_engine {s : State} {rest : List Event} (h : s.script = .engine :: rest) :
    step s = engineTurn { s with script := rest } := step_cons h

theorem step_wait_busy {s : State} {rest : List Event} (hp : s.phase = .busy) (h : s.script = .wait :: rest) :
    step s = exec (latched s) s := by
  simp [step_cons h, runEvent, hp, engineTurn]

theorem step_wait_idle {s : State} {rest : List Event} (hp : s.phase = .idle) (h : s.script = .wait :: rest) :
    step s = .next { s with script := rest } := by
  simp [step_cons h, runEvent, hp]

/-- The decoder reads none of the reserved bits (R73). -/
theorem decode_and_cmdMask (w : Word) : decode (w &&& cmdMask) = decode w := by
  have hop : opField (w &&& cmdMask) = opField w := by
    have hmask : cmdMask.extractLsb' 0 4 = BitVec.allOnes 4 := rfl
    rw [opField, BitVec.extractLsb'_and, hmask, BitVec.and_allOnes, opField]
  have hb : bField (w &&& cmdMask) = bField w := by
    have hmask : cmdMask.extractLsb' 8 6 = BitVec.allOnes 6 := rfl
    rw [bField, BitVec.extractLsb'_and, hmask, BitVec.and_allOnes, bField]
  simp only [decode, hop, hb]

/-- Settles O58: the engine's turn is `exec` of the latched command while BUSY (`engineTurn_busy`), and nothing while IDLE. -/
theorem stepRunsCommand : Obligations.StepRunsCommand := by
  intro s rest
  refine ⟨fun hp h => ?_, fun hp h => ?_, fun hp h => step_wait_busy hp h, fun hp h => ?_, fun hp h => ?_, fun w => ?_⟩
  · exact (step_nil h).trans (engineTurn_busy hp)
  · exact (step_engine h).trans (engineTurn_busy hp)
  · exact (step_nil h).trans (engineTurn_idle hp)
  · rcases h with h | h
    · exact (step_engine h).trans (engineTurn_idle hp)
    · exact step_wait_idle hp h
  · have hlatched : latched { s.withFetchWord 32 w with script := s.script } = decode (BitVec.ofNat 32 w) := by
      have hword : BitVec.ofNat 32 (w % 2 ^ 32) = BitVec.ofNat 32 w := BitVec.eq_of_toNat_eq (by simp)
      rw [latched, withFetchWord_cmd, decode_and_cmdMask, hword]
    rw [step_engine (withFetchWord_script s 32 w), engineTurn_busy rfl, hlatched]

/-! ### The host's accesses -/

theorem hostRegWrite_eq (addr : Nat) (width : Width) (v : Word) (s : State) :
    (s.params.regBase ≤ addr → hostRegWrite addr width v s = .next (busWrite (addr - s.params.regBase) width v s)) ∧
      (addr < s.params.regBase → hostRegWrite addr width v s = .fault .belowRegisterBlock) :=
  ⟨fun h => if_neg (by omega), fun h => if_pos h⟩

theorem hostRegRead_eq (addr : Nat) (width : Width) (s : State) :
    (s.params.regBase ≤ addr →
      hostRegRead addr width s = .next (record (busRead (addr - s.params.regBase) width s) s)) ∧
      (addr < s.params.regBase → hostRegRead addr width s = .fault .belowRegisterBlock) :=
  ⟨fun h => if_neg (by omega), fun h => if_pos h⟩

/-- A word at or beyond `MEM_WORDS` is not stored to. -/
theorem hostMemWrite_guard (a : Nat) (v : Word) (s : State) :
    hostMemWrite a v s = if a < s.params.memWords then hostMemWrite a v s else .fault .noSuchWord := by
  split
  · rfl
  · exact if_pos (by omega)

/-- A word at or beyond `MEM_WORDS` is not read. -/
theorem hostMemRead_guard (a : Nat) (s : State) :
    hostMemRead a s = if a < s.params.memWords then hostMemRead a s else .fault .noSuchWord := by
  split
  · rfl
  · exact if_pos (by omega)

/-- What a register reads as does not depend on the schedule. -/
theorem busRead_script (off : Nat) (width : Width) (s : State) (rest : List Event) :
    busRead off width { s with script := rest } = busRead off width s := by
  cases width with
  | byte | half => rfl
  | word =>
    cases h : regAt off with
    | none => simp [busRead, h]
    | some r =>
      simp only [busRead, h]
      cases r <;> rfl

/-- Settles O59: the step is the event's own function of the state with the event taken off its schedule (`step_cons`). -/
theorem stepServesHost : Obligations.StepServesHost := by
  intro s rest addr a width v
  refine ⟨fun h => ?_, fun h => ?_, fun h => ?_, fun h => ?_, fun h => step_cons h, fun rd wr h => step_cons h⟩ <;>
    rw [step_cons h]
  · exact hostRegWrite_eq addr width v { s with script := rest }
  · rw [← busRead_script _ _ _ rest]
    exact hostRegRead_eq addr width { s with script := rest }
  · exact hostMemWrite_guard a v { s with script := rest }
  · exact hostMemRead_guard a { s with script := rest }

/-! ### An event leaves the rest of the schedule and the parameters -/

/-- The fields that decide what is still to come of a run. -/
def scheduleOf (s : State) : List Event × Params := (s.script, s.params)

theorem guarded_schedule {update : State → State} {s : State} (h : scheduleOf (update s) = scheduleOf s) :
    scheduleOf (guarded update s) = scheduleOf s := by
  rcases guarded_cases update s with heq | heq <;> rw [heq]
  · exact h
  · rfl

theorem writeReg_schedule (r : Reg) (v : Word) (s : State) : scheduleOf (writeReg r v s) = scheduleOf s := by
  cases r with
  | id | status | result0 | result1 | result2 => rfl
  | cmd | srcAddr | srcLen | dstAddr | dstCap | excAddr | excCur | excEnd | first | sampleSel =>
    rw [writeReg]
    exact guarded_schedule rfl

theorem busWrite_schedule (off : Nat) (width : Width) (v : Word) (s : State) :
    scheduleOf (busWrite off width v s) = scheduleOf s := by
  rcases busWrite_cases off width v s with heq | ⟨r, -, -, heq⟩ <;> rw [heq]
  exact writeReg_schedule r v s

theorem peerRuns_schedule (rd wr : List Region) (s : State) : scheduleOf (peerRuns rd wr s) = scheduleOf s := by
  rcases peerRuns_cases rd wr s with heq | ⟨-, -, heq⟩ <;> rw [heq]
  rfl

theorem Ends.schedule {cursor : Bool} {s t : State} (h : Ends cursor s t) : scheduleOf t = scheduleOf s := by
  cases h
  rfl

theorem exec_schedule (i : Instr) (s : State) : ∃ t, exec i s = .next t ∧ t.phase = .idle ∧ scheduleOf t = scheduleOf s := by
  obtain ⟨t, he, hends⟩ := exec_ends i s
  refine ⟨t, he, ?_, hends.schedule⟩
  cases hends
  rfl

theorem engineTurn_schedule (s : State) :
    ∃ t, engineTurn s = .next t ∧ t.phase = .idle ∧ scheduleOf t = scheduleOf s := by
  cases hp : s.phase with
  | idle => exact ⟨s, engineTurn_idle hp, hp, rfl⟩
  | busy => exact engineTurn_busy hp ▸ exec_schedule (latched s) s

/-- An event that stops nothing leads on, to the rest of the schedule, but for a `WAIT` while BUSY. -/
theorem runEvent_schedule {e : Event} (before : State) {s : State} (ok : EventOk s.params e)
    (hwait : e = .wait → s.phase = .idle) :
    ∃ t, runEvent e before s = .next t ∧ scheduleOf t = scheduleOf s := by
  cases e with
  | regRead addr width => exact ⟨_, (hostRegRead_eq addr width s).1 ok, rfl⟩
  | regWrite addr width v => exact ⟨_, (hostRegWrite_eq addr width v s).1 ok, busWrite_schedule _ _ _ s⟩
  | memRead a =>
    have inside : ¬ s.params.memWords ≤ a := Nat.not_le.mpr ok
    simp only [runEvent, hostMemRead, if_neg inside]
    split <;> exact ⟨_, rfl, rfl⟩
  | memWrite a v => exact ⟨_, if_neg (Nat.not_le.mpr ok), rfl⟩
  | wait => exact ⟨s, by simp [runEvent, hwait rfl], rfl⟩
  | engine =>
    obtain ⟨t, he, -, hs⟩ := engineTurn_schedule s
    exact ⟨t, he, hs⟩
  | reset => exact ⟨_, rfl, rfl⟩
  | peer rd wr => exact ⟨_, rfl, peerRuns_schedule rd wr s⟩

/-! ### The run comes to rest -/

/-- What is left to do: at most two steps for each event, and one for a running command. -/
def pending (s : State) : Nat :=
  2 * s.script.length +
    match s.phase with
    | .idle => 0
    | .busy => 1

theorem pending_le (s : State) : pending s ≤ 2 * s.script.length + 1 := by
  unfold pending
  cases s.phase <;> simp

theorem pending_eq_zero {s : State} : pending s = 0 ↔ s.phase = .idle ∧ s.script = [] := by
  unfold pending
  cases s.phase <;> simp

/-- No event of the schedule stops the run. -/
def ScheduleOk (sched : List Event × Params) : Prop := ∀ e ∈ sched.1, EventOk sched.2 e

theorem step_at_rest {s : State} (h : pending s = 0) : step s = .next s := by
  obtain ⟨hp, hs⟩ := pending_eq_zero.mp h
  exact (step_nil hs).trans (engineTurn_idle hp)

/-- The engine's own step of a running command leaves less to do. -/
theorem exec_progress {s : State} (ok : ScheduleOk (scheduleOf s)) (hp : s.phase = .busy) (i : Instr) :
    ∃ t, exec i s = .next t ∧ pending t < pending s ∧ ScheduleOk (scheduleOf t) := by
  obtain ⟨t, he, hidle, hsched⟩ := exec_schedule i s
  refine ⟨t, he, ?_, hsched ▸ ok⟩
  have hscript : t.script = s.script := congrArg Prod.fst hsched
  simp [pending, hidle, hp, hscript]

/-- Every step leaves less to do. -/
theorem step_progress {s : State} (ok : ScheduleOk (scheduleOf s)) (h : 0 < pending s) :
    ∃ t, step s = .next t ∧ pending t < pending s ∧ ScheduleOk (scheduleOf t) := by
  cases hs : s.script with
  | nil =>
    have hp : s.phase = .busy := by
      cases hp : s.phase with
      | idle => exact absurd (pending_eq_zero.mpr ⟨hp, hs⟩) (by omega)
      | busy => rfl
    rw [step_nil hs, engineTurn_busy hp]
    exact exec_progress ok hp _
  | cons e rest =>
    by_cases hwait : e = .wait → s.phase = .idle
    · have hsplit : ScheduleOk (e :: rest, s.params) := hs ▸ ok
      obtain ⟨he, hrest⟩ := List.forall_mem_cons.mp hsplit
      obtain ⟨t, ht, hsched⟩ := runEvent_schedule (e := e) s (s := { s with script := rest }) he hwait
      refine ⟨t, (step_cons hs).trans ht, ?_, hsched ▸ hrest⟩
      have hle := pending_le t
      have hscript : t.script = rest := congrArg Prod.fst hsched
      have hlen : s.script.length = rest.length + 1 := hs ▸ rfl
      rw [hscript] at hle
      have : 2 * s.script.length ≤ pending s := Nat.le_add_right _ _
      omega
    · obtain ⟨rfl, hne⟩ := Classical.not_imp.mp hwait
      have hp : s.phase = .busy := by
        cases hp : s.phase with
        | idle => exact absurd hp hne
        | busy => rfl
      rw [step_wait_busy hp hs]
      exact exec_progress ok hp _

theorem run_succ {s t : State} (h : step s = .next t) (k : Nat) :
    Host.Core.run Sys2Proof.core (k + 1) s = Host.Core.run Sys2Proof.core k t := by
  have hstep : Sys2Proof.core.step s = .next t := h
  simp only [Host.Core.run, hstep]

/-- A run of as many steps as there is left to do ends with nothing left to do. -/
theorem run_to_rest {s : State} (ok : ScheduleOk (scheduleOf s)) {k : Nat} (h : pending s ≤ k) :
    ∃ t, Host.Core.run Sys2Proof.core k s = .next t ∧ pending t = 0 := by
  induction k generalizing s with
  | zero => exact ⟨s, rfl, Nat.le_zero.mp h⟩
  | succ k ih =>
    rcases Nat.eq_zero_or_pos (pending s) with h0 | hpos
    · rw [run_succ (step_at_rest h0)]
      exact ih ok (by omega)
    · obtain ⟨t, ht, hless, hok⟩ := step_progress ok hpos
      rw [run_succ ht]
      exact ih hok (by omega)

/-- Settles O60: every step leaves less to do (`step_progress`). -/
theorem runsToIdle : Obligations.RunsToIdle := by
  intro s ok
  obtain ⟨t, hrun, hrest⟩ := run_to_rest ok (pending_le s)
  exact ⟨t, hrun, pending_eq_zero.mp hrest⟩

end Sys2Proof.Machine
end

section
/-! PROOFS. The host's accesses to the data memory, the reset of a running command and the commands of other blocks on the
same memory (20_memory.md R51 to R63, 60_exceptions.md R156, 70_reset_and_hazards.md R162). -/

namespace Sys2Proof.Machine

/-! ### Regions and their addresses -/

theorem inRegion_iff {r : Region} {a : Nat} : inRegion r a = true ↔ r.base ≤ a ∧ a < r.base + r.len := by
  simp [inRegion]

theorem inRegions_iff {rs : List Region} {a : Nat} : inRegions rs a = true ↔ ∃ r ∈ rs, inRegion r a = true := by
  simp [inRegions]

theorem overlaps_iff_inRegion (r q : Region) : overlaps r q = true ↔ ∃ a, inRegion r a = true ∧ inRegion q a = true := by
  simp only [overlaps_iff, inRegion_iff]
  constructor
  · intro h
    exact ⟨max r.base q.base, by omega, by omega⟩
  · rintro ⟨a, hr, hq⟩
    omega

/-- Some region of each of two lists overlap exactly when the lists share an address. -/
theorem any_overlaps_iff (ws rs : List Region) :
    (ws.any fun w => rs.any (overlaps w)) = true ↔ ∃ a, inRegions ws a = true ∧ inRegions rs a = true := by
  simp only [List.any_eq_true, overlaps_iff_inRegion, inRegions_iff]
  constructor
  · rintro ⟨w, hw, r, hr, a, hwa, hra⟩
    exact ⟨a, ⟨w, hw, hwa⟩, r, hr, hra⟩
  · rintro ⟨a, ⟨w, hw, hwa⟩, r, hr, hra⟩
    exact ⟨w, hw, r, hr, a, hwa, hra⟩

/-- The test of R156 in the terms of the statements. -/
theorem interfere_iff {rd wr : List Region} {s : State} :
    interfere rd wr (readRegions (latched s) s) (writtenRegions (latched s) s) = true ↔ Interferes rd wr s := by
  simp only [interfere, Bool.or_eq_true, any_overlaps_iff, Interferes, exists_or]

/-- Settles O17: the greater of the two bases is a shared address if there is any. -/
theorem overlapIsSharing : Obligations.OverlapIsSharing := overlaps_iff_inRegion

/-! ### Free words -/

theorem getD_freeWords {p : Params} {d i : Nat} {r : Region} (h : i < min r.len (p.memWords - r.base)) :
    (freeWords p d r).getD i 0#32 = Config.freeMem d (r.base + i) := by
  simp [freeWords, List.getD_eq_getElem?_getD, h]

/-- A word after a draw: the word drawn where a region holds an address that exists, or else the old one. -/
theorem readWord_fillFree (p : Params) (d : Nat) (rs : List Region) (m : Memory) (a : Nat) :
    readWord p.endian (fillFree p d rs m) a =
      if inRegions rs a = true ∧ a < p.memWords then Config.freeMem d a else readWord p.endian m a := by
  unfold fillFree
  induction rs generalizing m with
  | nil => simp [inRegions]
  | cons r rs ih =>
    have hcons : inRegions (r :: rs) a = true ↔ (r.base ≤ a ∧ a < r.base + r.len) ∨ inRegions rs a = true := by
      simp [inRegions, inRegion]
    rw [List.foldl_cons, ih, readWord_memWrite, freeWords_length]
    simp only [hcons]
    by_cases hrs : inRegions rs a = true ∧ a < p.memWords
    · rw [if_pos hrs, if_pos ⟨.inr hrs.1, hrs.2⟩]
    · rw [if_neg hrs]
      by_cases hr : (r.base ≤ a ∧ a < r.base + r.len) ∧ a < p.memWords
      · rw [if_pos (by omega), if_pos ⟨.inl hr.1, hr.2⟩, getD_freeWords (by omega), Nat.add_sub_cancel' hr.1.1]
      · rw [if_neg (by omega), if_neg fun h => h.1.elim (fun hin => hr ⟨hin, h.2⟩) fun hin => hrs ⟨hin, h.2⟩]

theorem readWord_fillFree_inside {p : Params} {rs : List Region} {a : Nat} (h : inRegions rs a = true)
    (ha : a < p.memWords) (d : Nat) (m : Memory) : readWord p.endian (fillFree p d rs m) a = Config.freeMem d a := by
  rw [readWord_fillFree, if_pos ⟨h, ha⟩]

theorem keptOutside_of_fillFree {p : Params} {d : Nat} {rs : List Region} {s t : State}
    (h : t.mem = fillFree p d rs s.mem) : KeptOutside rs s t := fun x hx => by
  rw [h, readByte_fillFree_outside _ _ _ _ _ hx]

/-- Settles O6: the reset of a running command draws the words of its written regions (`platformReset_mem`). -/
theorem resetWhileBusy : Obligations.ResetWhileBusy := by
  intro s hp
  have hmem : (platformReset s).mem = fillFree s.params s.draws (writtenRegions (latched s) s) s.mem := by
    rw [platformReset_mem, hp]
  refine ⟨regsReset_platformReset s, keptOutside_of_fillFree hmem, fun a hin ha => ?_⟩
  rw [hmem, readWord_fillFree_inside hin ha]

/-! ### The host's accesses to the memory, and the commands of other blocks -/

/-- The state after a host write of a word that exists: the word stored, and the mark of a race (log 10). -/
theorem hostMemWrite_eq {a : Nat} {v : Word} {s : State} (ha : a < s.params.memWords) :
    hostMemWrite a v s = .next
      { s with
        mem := memWrite s.params.endian s.mem a [v]
        raced := s.raced || (decide (s.phase = .busy)
          && inRegions (readRegions (latched s) s ++ writtenRegions (latched s) s) a) } := by
  rw [hostMemWrite, if_neg (Nat.not_le.mpr ha)]

/-- A host read of a word that exists and that no running command may be writing. -/
theorem hostMemRead_memory {a : Nat} {s : State} (ha : a < s.params.memWords)
    (h : ¬(s.phase = .busy ∧ inRegions (writtenRegions (latched s) s) a = true)) :
    hostMemRead a s = .next { s with reads := s.reads ++ [readWord s.params.endian s.mem a] } := by
  rw [hostMemRead, if_neg (Nat.not_le.mpr ha), if_neg h, record]

/-- A host read of a word of a written region of the running command (log 9). -/
theorem hostMemRead_free {a : Nat} {s : State} (ha : a < s.params.memWords) (hp : s.phase = .busy)
    (hin : inRegions (writtenRegions (latched s) s) a = true) :
    hostMemRead a s = .next { s with reads := s.reads ++ [Config.freeMem s.draws a], draws := s.draws + 1 } := by
  rw [hostMemRead, if_neg (Nat.not_le.mpr ha), if_pos ⟨hp, hin⟩, record]

theorem readWord_memWrite_singleton (e : Endian) (m : Memory) (a : Nat) (v : Word) (c : Nat) :
    readWord e (memWrite e m a [v]) c = if c = a then v else readWord e m c := by
  rw [readWord_memWrite, List.length_singleton]
  by_cases h : c = a
  · rw [if_pos (by omega), if_pos h, h, Nat.sub_self, List.getD_cons_zero]
  · rw [if_neg (by omega), if_neg h]

theorem peerRuns_keeps {rd wr : List Region} {s : State} (h : s.phase = .idle ∨ ¬ Interferes rd wr s) :
    peerRuns rd wr s = s := by
  rcases peerRuns_cases rd wr s with heq | ⟨hbusy, hinter, -⟩
  · exact heq
  · rcases h with hidle | hnot
    · rw [hbusy] at hidle
      cases hidle
    · exact absurd (interfere_iff.mp hinter) hnot

theorem peerRuns_frees {rd wr : List Region} {s : State} (hp : s.phase = .busy) (h : Interferes rd wr s) :
    peerRuns rd wr s = freeBoth wr s := by
  simp only [peerRuns, hp, if_pos (interfere_iff.mpr h)]

/-- Settles O16: a write stores its one word (`hostMemWrite_eq`), a read answers the memory's word or a drawn one
(`hostMemRead_memory`, `hostMemRead_free`), and another block's command does nothing or draws its own written regions
(`peerRuns_keeps`, `peerRuns_frees`). -/
theorem hostMemory : Obligations.HostMemory := by
  refine ⟨fun s a v ha => ⟨readWord_memWrite_singleton _ _ _ _, fun hp => ⟨?_, ?_⟩, fun hp =>
    ⟨fun hin => hostMemRead_free ha hp hin, fun hin => hostMemRead_memory ha ?_, fun hin => ?_, fun hin => ?_⟩⟩,
    fun s rd wr => ⟨peerRuns_keeps, fun hp h => ⟨_, peerRuns_frees hp h, rfl, ?_, fun a hin ha => ?_⟩⟩⟩
  · simp [hostMemWrite_eq ha, hp]
  · exact hostMemRead_memory ha (by simp [hp])
  · simp [hin]
  · simp [hostMemWrite_eq ha, hp, hin]
  · simp [hostMemWrite_eq ha, hp, hin]
  · exact keptOutside_of_fillFree (freeBoth_mem wr s)
  · rw [freeBoth_mem, readWord_fillFree_inside hin ha]

end Sys2Proof.Machine
end

section
/-! PROOFS. Every command by its outcome, and what each outcome does to the memory (20_memory.md R59, R60;
60_exceptions.md R142, R143, R156; 70_reset_and_hazards.md R167). -/

namespace Sys2Proof.Machine

/-! ### Every command by its outcome -/

/-- The outcome of a command that does not race with the host. -/
def outcome (i : Instr) (s : State) : Except ErrCode Success :=
  match i with
  | .estimate => estimateBody s
  | .blkEnc b => blkEncBody b s
  | .blkDec b => blkDecBody b s
  | .chunkEnc => chunkEncBody s
  | .chunkDec => chunkDecBody s
  | .arrayEnc => arrayEncBody s
  | .arrayDec => arrayDecBody s
  | .reservedOp0 => .error .illegalOp
  | .reservedOp8F _ => .error .illegalOp

/-- A command is the completion of its outcome; a reserved selector, which has no region, its error in any case. -/
theorem exec_eq_complete (i : Instr) :
    (∀ s, exec i s = .next (complete (writtenRegions i s) (movesCursor i) (outcome i s) s)) ∨
      ∀ s, outcome i s = .error .illegalOp ∧ writtenRegions i s = [] ∧ exec i s = .next (raiseError [] .illegalOp s) := by
  cases i with
  | reservedOp0 | reservedOp8F op => exact .inr fun s => ⟨rfl, rfl, rfl⟩
  | _ => exact .inl fun s => rfl

theorem exec_of_ok {i : Instr} {s : State} {ok : Success} (hr : s.raced = false) (h : outcome i s = .ok ok) :
    exec i s = .next (succeed ok s) := by
  rcases exec_eq_complete i with he | hres
  · rw [he, complete_ok hr h]
  · rw [(hres s).1] at h
    cases h

theorem exec_of_error {i : Instr} {s : State} {c : ErrCode} (hr : s.raced = false) (h : outcome i s = .error c) :
    exec i s = .next (raiseError (writtenRegions i s) c s) := by
  rcases exec_eq_complete i with he | hres
  · rw [he, complete_error hr h]
  · obtain ⟨hill, hws, he⟩ := hres s
    rw [h] at hill
    cases hill
    rw [he, hws]

theorem complete_raced {ws : List Region} {cursor : Bool} {body : Except ErrCode Success} {s : State}
    (hr : s.raced = true) : complete ws cursor body s = finishRaced ws cursor s := if_pos hr

/-- A raced command ends in a success or an error on the state with its written regions drawn. -/
theorem exec_of_raced (i : Instr) {s : State} (hr : s.raced = true) :
    ∃ t, exec i s = .next t ∧
      (t = succeed (racedSuccess (movesCursor i) s)
          { s with mem := fillFree s.params s.draws (writtenRegions i s) s.mem } ∨
        ∃ c, c ≠ .noError ∧
          t = finish c 0#32 0#32 0#32 { s with mem := fillFree s.params s.draws (writtenRegions i s) s.mem }) := by
  rcases exec_eq_complete i with he | hres
  · rw [he, complete_raced hr]
    exact ⟨_, rfl, finishRaced_cases _ _ _⟩
  · obtain ⟨-, hws, he⟩ := hres s
    rw [hws]
    exact ⟨_, he, .inr ⟨.illegalOp, by decide, rfl⟩⟩

/-- An error of the outcome is reported with the registers of R144. -/
theorem fails_of_error {i : Instr} {s : State} {c : ErrCode} (hr : s.raced = false) (h : outcome i s = .error c) :
    Fails i s c :=
  ⟨_, exec_of_error hr h, ⟨rfl, rfl, rfl, rfl⟩, ⟨rfl, rfl, rfl⟩, rfl, by simp [ArgsKept]⟩

/-! ### The stores of a success lie in the written regions -/

/-- Each list of words a success stores begins where one of the regions does and is not longer than it. -/
def Success.Within (rs : List Region) (ok : Success) : Prop :=
  ∀ w ∈ ok.writes, ∃ r ∈ rs, w.1 = r.base ∧ w.2.length ≤ r.len

theorem blkEncBody_within {b : Nat} {s : State} {ok : Success} (h : blkEncBody b s = .ok ok) :
    ok.Within (writtenRegions (.blkEnc b) s) := by
  simp only [blkEncBody, ite_error_eq_ok, Except.ok.injEq] at h
  obtain ⟨hb, -, -, -, hroom, rfl⟩ := h
  have hwords : (blkEncResult b s).words.length = bw b := blkEncResult_words_length (by omega) s
  intro w hw
  simp only [List.mem_cons, List.not_mem_nil, or_false] at hw
  rcases hw with rfl | rfl
  · exact ⟨regionAt s.dstAddr (bw b), by simp [writtenRegions], rfl, Nat.le_of_eq hwords⟩
  · exact ⟨excRegion s, by simp [writtenRegions], rfl, Nat.not_lt.mp hroom⟩

theorem blkDecBody_within {b : Nat} {s : State} {ok : Success} (h : blkDecBody b s = .ok ok) :
    ok.Within (writtenRegions (.blkDec b) s) := by
  simp only [blkDecBody, ite_error_eq_ok] at h
  obtain ⟨hb, -, -, -, -, h⟩ := h
  split at h
  · cases h
  · rename_i hresult
    cases h
    have hlen := (blkDecResult_ok (by omega) hresult).1
    intro w hw
    rw [List.mem_singleton] at hw
    exact ⟨regionAt s.dstAddr blockLen, by simp [writtenRegions], by rw [hw]; rfl, by rw [hw]; exact Nat.le_of_eq hlen⟩

/-- A success of a frame command is one store at `DST_ADDR`, within `DST_CAP`. -/
def Success.Frame (s : State) (ok : Success) : Prop :=
  ∃ out, ok.writes = [(s.dstAddr.toNat, out)] ∧ out.length ≤ s.dstCap.toNat

theorem Success.Frame.within {s : State} {ok : Success} (h : ok.Frame s) : ok.Within [dstRegion s] := by
  obtain ⟨out, hok, hout⟩ := h
  intro w hw
  rw [hok, List.mem_singleton] at hw
  exact ⟨dstRegion s, by simp, by rw [hw]; rfl, by rw [hw]; exact hout⟩

theorem chunkEncBody_frame {s : State} {ok : Success} (h : chunkEncBody s = .ok ok) : ok.Frame s := by
  simp only [chunkEncBody, ite_error_eq_ok, Except.ok.injEq] at h
  obtain ⟨-, -, -, hroom, rfl⟩ := h
  exact ⟨_, rfl, Nat.not_lt.mp hroom⟩

theorem arrayEncBody_frame {s : State} {ok : Success} (h : arrayEncBody s = .ok ok) : ok.Frame s := by
  simp only [arrayEncBody, ite_error_eq_ok, Except.ok.injEq] at h
  obtain ⟨-, -, -, hroom, rfl⟩ := h
  exact ⟨_, rfl, Nat.not_lt.mp hroom⟩

theorem chunkDecBody_frame {s : State} {ok : Success} (h : chunkDecBody s = .ok ok) : ok.Frame s := by
  simp only [chunkDecBody, ite_error_eq_ok] at h
  obtain ⟨-, -, h⟩ := h
  split at h
  · cases h
  · rename_i hresult
    cases h
    exact ⟨_, rfl, (decodeChunk_length (packFns_contract _) hresult).2⟩

theorem arrayDecBody_frame {s : State} {ok : Success} (h : arrayDecBody s = .ok ok) : ok.Frame s := by
  simp only [arrayDecBody, ite_error_eq_ok] at h
  obtain ⟨-, -, h⟩ := h
  split at h
  · cases h
  · rename_i hresult
    cases h
    exact ⟨_, rfl, decodeArray_length (packFns_contract _) hresult⟩

theorem outcome_within {i : Instr} {s : State} {ok : Success} (h : outcome i s = .ok ok) :
    ok.Within (writtenRegions i s) := by
  cases i with
  | estimate =>
    intro w hw
    rw [(estimateBody_ok h).2] at hw
    cases hw
  | blkEnc b => exact blkEncBody_within h
  | blkDec b => exact blkDecBody_within h
  | chunkEnc => exact (chunkEncBody_frame h).within
  | chunkDec => exact (chunkDecBody_frame h).within
  | arrayEnc => exact (arrayEncBody_frame h).within
  | arrayDec => exact (arrayDecBody_frame h).within
  | reservedOp0 | reservedOp8F op => cases h

/-! ### No outcome writes outside the written regions -/

theorem readByte_foldl_memWrite_outside (e : Endian) {rs : List Region} {writes : List (Nat × List Word)} {x : Nat}
    (hin : ∀ w ∈ writes, ∃ r ∈ rs, w.1 = r.base ∧ w.2.length ≤ r.len) (hx : inRegions rs (x / 4) = false) (m : Memory) :
    readByte (writes.foldl (fun m w => memWrite e m w.1 w.2) m) x = readByte m x := by
  induction writes generalizing m with
  | nil => rfl
  | cons w ws ih =>
    obtain ⟨r, hr, hbase, hlen⟩ := hin w (by simp)
    have hout : ¬ inRegion r (x / 4) = true := fun h => by
      rw [inRegions_iff.mpr ⟨r, hr, h⟩] at hx
      cases hx
    rw [inRegion_iff] at hout
    rw [List.foldl_cons, ih fun w hw => hin w (by simp [hw]), readByte_memWrite_outside]
    omega

theorem succeed_keptOutside {rs : List Region} {ok : Success} (h : ok.Within rs) (s : State) :
    KeptOutside rs s (succeed ok s) := fun x hx => by
  rw [succeed_mem, readByte_foldl_memWrite_outside _ h hx]

theorem raiseError_keptOutside (rs : List Region) (c : ErrCode) (s : State) : KeptOutside rs s (raiseError rs c s) := by
  cases hc : beforeMemory c with
  | true => exact fun x _ => by rw [raiseError_mem, hc, if_pos rfl]
  | false => exact keptOutside_of_fillFree (by rw [raiseError_mem, hc]; rfl)

theorem exec_raced_mem {i : Instr} {s t : State} (hr : s.raced = true) (he : exec i s = .next t) :
    t.mem = fillFree s.params s.draws (writtenRegions i s) s.mem := by
  obtain ⟨u, hu, hcases⟩ := exec_of_raced i hr
  cases hu.symm.trans he
  rcases hcases with rfl | ⟨c, -, rfl⟩ <;> rfl

/-- Settles O52: a success stores within its written regions (`outcome_within`), and every other outcome draws no more
than their words. -/
theorem writesConfined : Obligations.WritesConfined := by
  intro i s t he
  cases hr : s.raced with
  | true => exact keptOutside_of_fillFree (exec_raced_mem hr he)
  | false =>
    cases ho : outcome i s with
    | ok ok =>
      cases (exec_of_ok hr ho).symm.trans he
      exact succeed_keptOutside (outcome_within ho) s
    | error c =>
      cases (exec_of_error hr ho).symm.trans he
      exact raiseError_keptOutside _ c s

/-! ### What the written regions hold after an error or a race -/

/-- Settles O51: none of these codes is decided before memory is touched, so the written regions are drawn. -/
theorem processingErrorsFreeRegions : Obligations.ProcessingErrorsFreeRegions := by
  intro i s t hr he hcode
  cases ho : outcome i s with
  | ok ok =>
    cases (exec_of_ok hr ho).symm.trans he
    simp at hcode
  | error c =>
    cases (exec_of_error hr ho).symm.trans he
    rw [raiseError_errCode] at hcode
    have late : ∀ c ∈ [ErrCode.outputOverflow, .malTruncated, .malLength, .malWidth, .malHeader, .malChain],
        beforeMemory c = false := by decide
    have hmem : (raiseError (writtenRegions i s) c s).mem = fillFree s.params s.draws (writtenRegions i s) s.mem := by
      rw [raiseError_mem, late c hcode]
      rfl
    refine ⟨keptOutside_of_fillFree hmem, fun a hin ha => ?_⟩
    rw [hmem, readWord_fillFree_inside hin ha]

/-- Settles O55: `exec_of_raced` names both outcomes, and either way the memory is that with the written regions drawn. -/
theorem racedOutcome : Obligations.RacedOutcome := by
  intro i s hr
  obtain ⟨t, he, hcases⟩ := exec_of_raced i hr
  have hmem := exec_raced_mem hr he
  refine ⟨t, he, keptOutside_of_fillFree hmem, (ends_of_exec he).argsKept, fun a hin ha => ?_, ?_⟩
  · rw [hmem, readWord_fillFree_inside hin ha]
  · rcases hcases with rfl | ⟨c, hc, rfl⟩
    · exact .inl ⟨⟨rfl, rfl, rfl, rfl⟩, rfl, rfl, rfl, rfl⟩
    · exact .inr ⟨c, hc, ⟨rfl, rfl, rfl, rfl⟩, ⟨rfl, rfl, rfl⟩, rfl⟩

end Sys2Proof.Machine
end

section
/-! PROOFS. No command depends on the byte order in which the host sees the memory (20_memory.md R54). -/

namespace Sys2Proof.Machine

/-! ### One state in two byte orders -/

/-- `s` with its memory in byte order `e`, as the bytes `m`. -/
def inOrder (e : Endian) (m : Memory) (s : State) : State :=
  { s with params := { s.params with endian := e }, mem := m }

/-- The bytes `m` hold in byte order `e` the words of the memory of `s`. -/
def SameWords (e : Endian) (m : Memory) (s : State) : Prop := ∀ a, readWord e m a = readWord s.params.endian s.mem a

/-- `u` is `t` in byte order `e`, with the same words in memory. -/
def Mirrors (e : Endian) (t u : State) : Prop := ∃ m, u = inOrder e m t ∧ SameWords e m t

theorem Mirrors.readReg_eq {e : Endian} {t u : State} (h : Mirrors e t u) (r : Reg) : readReg r u = readReg r t := by
  obtain ⟨m, rfl, -⟩ := h
  cases r <;> rfl

theorem Mirrors.readWord_eq {e : Endian} {t u : State} (h : Mirrors e t u) (a : Nat) :
    readWord e u.mem a = readWord t.params.endian t.mem a := by
  obtain ⟨m, rfl, hwords⟩ := h
  exact hwords a

theorem writtenRegions_inOrder (e : Endian) (m : Memory) (i : Instr) (s : State) :
    writtenRegions i (inOrder e m s) = writtenRegions i s := by
  cases i <;> rfl

theorem readWord_foldl_memWrite_congr {e e' : Endian} {m m' : Memory} (h : ∀ a, readWord e m a = readWord e' m' a)
    (writes : List (Nat × List Word)) (a : Nat) :
    readWord e (writes.foldl (fun m w => memWrite e m w.1 w.2) m) a =
      readWord e' (writes.foldl (fun m w => memWrite e' m w.1 w.2) m') a := by
  induction writes generalizing m m' with
  | nil => exact h a
  | cons w ws ih => exact ih fun c => by rw [readWord_memWrite, readWord_memWrite, h c]

section
variable {e : Endian} {m : Memory} {s : State} (h : SameWords e m s)
include h

/-! ### The outcome is read from the words -/

theorem memRead_inOrder (a n : Nat) : memRead e m a n = memRead s.params.endian s.mem a n :=
  List.map_congr_left fun i _ => h (a + i)

theorem srcWords_inOrder : srcWords (inOrder e m s) = srcWords s := memRead_inOrder h _ _

theorem blkEncResult_inOrder (b : Nat) : blkEncResult b (inOrder e m s) = blkEncResult b s :=
  congrArg (compressBlock (packer s) · b) (memRead_inOrder h _ _)

theorem blkDecResult_inOrder (b : Nat) : blkDecResult b (inOrder e m s) = blkDecResult b s :=
  congrArg₂ (decompressBlock (packer s) · b · s.first.toNat) (memRead_inOrder h _ _) (memRead_inOrder h _ _)

theorem chunkEncResult_inOrder : chunkEncResult (inOrder e m s) = chunkEncResult s :=
  congrArg (encodeChunk (packer s) · s.sampleSel) (srcWords_inOrder h)

theorem chunkDecResult_inOrder : chunkDecResult (inOrder e m s) = chunkDecResult s :=
  congrArg (decodeChunk (packer s) · s.dstCap.toNat) (srcWords_inOrder h)

theorem arrayEncResult_inOrder : arrayEncResult (inOrder e m s) = arrayEncResult s :=
  congrArg (encodeArray (packer s) · s.sampleSel) (srcWords_inOrder h)

theorem arrayDecResult_inOrder : arrayDecResult (inOrder e m s) = arrayDecResult s :=
  congrArg (decodeArray (packer s) · s.dstCap.toNat) (srcWords_inOrder h)

theorem outcome_inOrder (i : Instr) : outcome i (inOrder e m s) = outcome i s := by
  cases i with
  | estimate =>
    simp only [outcome, estimateBody, srcWords_inOrder h]
    rfl
  | blkEnc b =>
    simp only [outcome, blkEncBody, blkEncResult_inOrder h]
    rfl
  | blkDec b =>
    simp only [outcome, blkDecBody, blkDecResult_inOrder h]
    rfl
  | chunkEnc =>
    simp only [outcome, chunkEncBody, chunkEncResult_inOrder h]
    rfl
  | chunkDec =>
    simp only [outcome, chunkDecBody, chunkDecResult_inOrder h]
    rfl
  | arrayEnc =>
    simp only [outcome, arrayEncBody, arrayEncResult_inOrder h]
    rfl
  | arrayDec =>
    simp only [outcome, arrayDecBody, arrayDecResult_inOrder h]
    rfl
  | reservedOp0 | reservedOp8F op => rfl

/-! ### A completion changes the words alike -/

theorem finish_mirrors (c : ErrCode) (r0 r1 r2 : Word) :
    Mirrors e (finish c r0 r1 r2 s) (finish c r0 r1 r2 (inOrder e m s)) := ⟨m, rfl, h⟩

theorem succeed_mirrors (ok : Success) : Mirrors e (succeed ok s) (succeed ok (inOrder e m s)) :=
  ⟨_, rfl, readWord_foldl_memWrite_congr h ok.writes⟩

theorem fillFree_sameWords (d : Nat) (rs : List Region) :
    SameWords e (fillFree (inOrder e m s).params d rs m) { s with mem := fillFree s.params d rs s.mem } := fun a => by
  have here := readWord_fillFree s.params d rs s.mem a
  have there := readWord_fillFree (inOrder e m s).params d rs m a
  rw [← h a] at here
  exact there.trans here.symm

theorem raiseError_mirrors (rs : List Region) (c : ErrCode) :
    Mirrors e (raiseError rs c s) (raiseError rs c (inOrder e m s)) := by
  cases hc : beforeMemory c with
  | true =>
    simp only [raiseError, hc, if_true]
    exact finish_mirrors h c _ _ _
  | false =>
    simp only [raiseError, hc, Bool.false_eq_true, if_false]
    exact finish_mirrors (fillFree_sameWords h s.draws rs) c _ _ _

theorem finishRaced_mirrors (rs : List Region) (cursor : Bool) :
    Mirrors e (finishRaced rs cursor s) (finishRaced rs cursor (inOrder e m s)) := by
  have filled := fillFree_sameWords h s.draws rs
  have hdraws : (inOrder e m s).draws = s.draws := rfl
  simp only [finishRaced, hdraws]
  split
  · exact succeed_mirrors filled (racedSuccess cursor s)
  · exact finish_mirrors filled _ _ _ _

theorem complete_mirrors (rs : List Region) (cursor : Bool) (body : Except ErrCode Success) :
    Mirrors e (complete rs cursor body s) (complete rs cursor body (inOrder e m s)) := by
  cases hr : s.raced with
  | true =>
    rw [complete_raced hr, complete_raced (s := inOrder e m s) hr]
    exact finishRaced_mirrors h rs cursor
  | false =>
    cases body with
    | ok ok =>
      rw [complete_ok hr rfl, complete_ok (s := inOrder e m s) hr rfl]
      exact succeed_mirrors h ok
    | error c =>
      rw [complete_error hr rfl, complete_error (s := inOrder e m s) hr rfl]
      exact raiseError_mirrors h rs c

theorem exec_mirrors {i : Instr} {t : State} (he : exec i s = .next t) :
    ∃ u, exec i (inOrder e m s) = .next u ∧ Mirrors e t u := by
  rcases exec_eq_complete i with hex | hres
  · have hthere := hex (inOrder e m s)
    rw [hex s] at he
    cases he
    rw [writtenRegions_inOrder, outcome_inOrder h] at hthere
    exact ⟨_, hthere, complete_mirrors h _ _ _⟩
  · rw [(hres s).2.2] at he
    cases he
    exact ⟨_, (hres _).2.2, raiseError_mirrors h [] .illegalOp⟩

end

/-- Settles O57: a command reads words only (`outcome_inOrder`), and its completion changes them alike in both byte orders
(`complete_mirrors`). -/
theorem byteOrderInvisible : Obligations.ByteOrderInvisible := by
  intro i s t e m hwords he
  obtain ⟨u, hu, hmirrors⟩ := exec_mirrors hwords he
  exact ⟨u, hu, hmirrors.readReg_eq, hmirrors.readWord_eq⟩

end Sys2Proof.Machine
end

section
/-! PROOFS. The frame commands, where they complete (43_chunk.md R131, R132; 44_array.md R136, R137). -/

namespace Sys2Proof.Machine

/-! ### One store at `DST_ADDR` -/

theorem frame_regions {s : State} (hsrc : inRange s.params (srcRegion s) = true)
    (hdst : inRange s.params (dstRegion s) = true) (hover : overlaps (dstRegion s) (srcRegion s) = false) :
    ¬ FrameBeyond s ∧ ¬ FrameShared s := by
  rw [inRange, decide_eq_true_eq] at hsrc hdst
  rw [← Bool.not_eq_true, overlaps_iff] at hover
  exact ⟨not_or.mpr ⟨Nat.not_lt.mpr hsrc, Nat.not_lt.mpr hdst⟩, hover⟩

/-- A command whose outcome is one list of words for `DST_ADDR` completes with those words there. -/
theorem completes_of_frame {i : Instr} {s : State} {out : List Word} {n0 n1 n2 : Nat} (hr : s.raced = false)
    (h : outcome i s = .ok
      { writes := [(s.dstAddr.toNat, out)]
        excCur := s.excCur
        result0 := toReg n0
        result1 := toReg n1
        result2 := toReg n2 }) :
    ∃ t, exec i s = .next t ∧ Completed .noError t ∧ Results n0 n1 n2 t ∧ t.excCur = s.excCur ∧ ArgsKept s t ∧
      Holds t s.dstAddr.toNat out ∧ OnlyStored s.dstAddr.toNat out.length s t := by
  refine ⟨_, exec_of_ok hr h, ⟨rfl, rfl, rfl, rfl⟩, ⟨rfl, rfl, rfl⟩, rfl, by simp [ArgsKept], ?_, fun x hx => ?_⟩
  · exact memRead_memWrite_same _ _ _ _
  · exact readByte_memWrite_outside _ _ _ _ _ hx

/-! ### The outcomes where no check fails -/

section
variable {i : Instr} {s : State} {α : Type} {x : Except ErrCode α}
  (hi : i ∈ [Instr.chunkEnc, .chunkDec, .arrayEnc, .arrayDec])
include hi

/-- The first region check of a frame command, on the registers (R57). -/
theorem frame_rangeFault (hrange : FrameBeyond s) :
    (if !allInRange i s then .error .accessFault else x) = .error .accessFault :=
  if_pos (by simpa using fun h => (frame_checks hi).1.mp h hrange)

theorem frame_range_pass (hrange : ¬ FrameBeyond s) : (if !allInRange i s then .error .accessFault else x) = x :=
  if_neg (by simpa using (frame_checks hi).1.mpr hrange)

/-- The second region check of a frame command, on the registers, where the first passes (R58). -/
theorem frame_overlapFault (hrange : ¬ FrameBeyond s) (hshare : FrameShared s) :
    (if !allInRange i s then .error .accessFault else if anyOverlap i s then .error .overlap else x) =
      .error .overlap :=
  (frame_range_pass hi hrange).trans (if_pos ((frame_checks hi).2.mpr hshare))

theorem frame_pass (hrange : ¬ FrameBeyond s) (hshare : ¬ FrameShared s) :
    (if !allInRange i s then .error .accessFault else if anyOverlap i s then .error .overlap else x) = x :=
  (frame_range_pass hi hrange).trans (if_neg fun h => hshare ((frame_checks hi).2.mp h))

end

/-- A length CHUNK_ENC takes (R131). -/
theorem chunkEnc_legal {s : State} (hmod : s.srcLen.toNat % 128 = 0) (hmax : s.srcLen.toNat ≤ 2 ^ 24) :
    ¬(s.srcLen.toNat % 128 ≠ 0 ∨ chunkMax < s.srcLen.toNat) :=
  not_or.mpr ⟨not_not.mpr hmod, Nat.not_lt.mpr hmax⟩

section
variable {s : State} (hrange : ¬ FrameBeyond s) (hshare : ¬ FrameShared s)
include hrange hshare

theorem chunkEncBody_ok (hmod : s.srcLen.toNat % 128 = 0) (hmax : s.srcLen.toNat ≤ 2 ^ 24)
    (hroom : (chunkEncResult s).out.length ≤ s.dstCap.toNat) :
    chunkEncBody s = .ok
      { writes := [(s.dstAddr.toNat, (chunkEncResult s).out)]
        excCur := s.excCur
        result0 := toReg (chunkEncResult s).out.length
        result1 := toReg (chunkEncResult s).width
        result2 := toReg (chunkEncResult s).excCount } := by
  rw [chunkEncBody, if_neg (chunkEnc_legal hmod hmax), frame_pass (by simp) hrange hshare, if_neg (Nat.not_lt.mpr hroom)]

theorem arrayEncBody_ok (hmod : s.srcLen.toNat % 128 = 0) (hroom : (arrayEncResult s).out.length ≤ s.dstCap.toNat) :
    arrayEncBody s = .ok
      { writes := [(s.dstAddr.toNat, (arrayEncResult s).out)]
        excCur := s.excCur
        result0 := toReg (arrayEncResult s).out.length
        result1 := toReg (arrayEncResult s).chunks
        result2 := toReg (arrayEncResult s).excCount } := by
  rw [arrayEncBody, if_neg (not_not.mpr hmod), frame_pass (by simp) hrange hshare, if_neg (Nat.not_lt.mpr hroom)]

theorem chunkDecBody_ok {r : ChunkValues} (h : chunkDecResult s = .ok r) :
    chunkDecBody s = .ok
      { writes := [(s.dstAddr.toNat, r.vals)]
        excCur := s.excCur
        result0 := toReg r.used
        result1 := toReg r.vals.length
        result2 := toReg r.width } := by
  rw [chunkDecBody, frame_pass (by simp) hrange hshare, h]

theorem arrayDecBody_ok {r : ArrayValues} (h : arrayDecResult s = .ok r) :
    arrayDecBody s = .ok
      { writes := [(s.dstAddr.toNat, r.vals)]
        excCur := s.excCur
        result0 := toReg r.used
        result1 := toReg r.vals.length
        result2 := toReg r.chunks } := by
  rw [arrayDecBody, frame_pass (by simp) hrange hshare, h]

end

/-! ### As many values as the frame's length word says -/

theorem wordAt_drop (xs : List Word) (n k : Nat) : wordAt (xs.drop n) k = wordAt xs (n + k) := by
  simp only [wordAt, List.getD_eq_getElem?_getD, List.getElem?_drop]

/-- The array decoder's loop stops only when no value is owed: each round pays at least one, so the fuel lasts. -/
theorem decodeArrayLoop_owed {pk : PackFns} (hc : pk.Contract) {w : List Word} {fuel owed pos : Nat} {r : ArrayValues}
    (hfuel : owed ≤ fuel) (h : decodeArrayLoop pk w fuel owed pos = .ok r) : r.vals.length = owed := by
  induction fuel generalizing owed pos r with
  | zero =>
    cases h
    exact (Nat.le_zero.mp hfuel).symm
  | succ fuel ih =>
    simp only [decodeArrayLoop] at h
    split at h
    · cases h
      exact Eq.symm ‹owed = 0›
    · simp only [ite_error_eq_ok] at h
      obtain ⟨-, hlen, h⟩ := h
      split at h
      · cases h
      · rename_i chunk hchunk
        split at h
        · cases h
        · rename_i rest hrest
          cases h
          have hthis := (decodeChunk_length hc hchunk).1
          rw [wordAt_drop, Nat.add_zero] at hthis
          have hthose := ih (by omega) hrest
          simp only [List.length_append]
          omega

theorem decodeArray_owed {pk : PackFns} (hc : pk.Contract) {w : List Word} {cap : Nat} {r : ArrayValues}
    (h : decodeArray pk w cap = .ok r) : 1 ≤ w.length ∧ r.vals.length = (wordAt w 0).toNat := by
  simp only [decodeArray, ite_error_eq_ok] at h
  obtain ⟨hlen, -, h⟩ := h
  exact ⟨by omega, decodeArrayLoop_owed hc (Nat.le_refl _) h⟩

theorem arrayDecResult_owed {s : State} {r : ArrayValues} (h : arrayDecResult s = .ok r) :
    r.vals.length = (readWord s.params.endian s.mem s.srcAddr.toNat).toNat := by
  obtain ⟨hlen, howed⟩ := decodeArray_owed (packFns_contract _) h
  rw [srcWords, memRead_length] at hlen
  rw [howed, wordAt, srcWords, getD_memRead _ _ _ _ _ hlen, Nat.add_zero]

/-! ### The obligations -/

/-- Settles O41: no check fails (`chunkEncBody_ok`). -/
theorem chunkEncCompletes : Obligations.ChunkEncCompletes := by
  intro s hr hmod hmax hsrc hdst hover hroom
  obtain ⟨hrange, hshare⟩ := frame_regions hsrc hdst hover
  exact completes_of_frame (i := .chunkEnc) hr (chunkEncBody_ok hrange hshare hmod hmax hroom)

/-- Settles O42: no check fails (`chunkDecBody_ok`), and the chunk's length was checked against the capacity. -/
theorem chunkDecCompletes : Obligations.ChunkDecCompletes := by
  intro s r hr hsrc hdst hover hresult
  obtain ⟨hrange, hshare⟩ := frame_regions hsrc hdst hover
  obtain ⟨t, he, hcompleted, hresults, hcur, hargs, hmem⟩ :=
    completes_of_frame (i := .chunkDec) hr (chunkDecBody_ok hrange hshare hresult)
  exact ⟨t, he, hcompleted, hresults, hcur, hargs, (decodeChunk_length (packFns_contract _) hresult).2, hmem⟩

theorem arrayEncResult_chunks (s : State) :
    (arrayEncResult s).chunks = (s.srcLen.toNat + (2 ^ 24 - 1)) / 2 ^ 24 := by
  have hchunks := encodeArrayLoop_chunks (pk := packer s) (sel := s.sampleSel) (Nat.le_refl (srcWords s).length)
  exact hchunks.trans (by rw [srcWords, memRead_length])

/-- Settles O43: no check fails (`arrayEncBody_ok`), and the chunks are as long as they may be
(`encodeArrayLoop_chunks`). -/
theorem arrayEncCompletes : Obligations.ArrayEncCompletes := by
  intro s hr hmod hsrc hdst hover hroom
  obtain ⟨hrange, hshare⟩ := frame_regions hsrc hdst hover
  rw [← arrayEncResult_chunks]
  exact completes_of_frame (i := .arrayEnc) hr (arrayEncBody_ok hrange hshare hmod hroom)

/-- Settles O44: no check fails (`arrayDecBody_ok`), and the loop ends with no value owed (`decodeArrayLoop_owed`). -/
theorem arrayDecCompletes : Obligations.ArrayDecCompletes := by
  intro s r hr hsrc hdst hover hresult
  obtain ⟨hrange, hshare⟩ := frame_regions hsrc hdst hover
  obtain ⟨t, he, hcompleted, hresults, hcur, hargs, hmem⟩ :=
    completes_of_frame (i := .arrayDec) hr (arrayDecBody_ok hrange hshare hresult)
  exact ⟨t, he, hcompleted, hresults, hcur, hargs, arrayDecResult_owed hresult, hmem⟩

end Sys2Proof.Machine
end

section
/-! PROOFS. The order of the checks (20_memory.md R57, R58, R60; 44_array.md R135; 60_exceptions.md R146). -/

namespace Sys2Proof.Machine

/-! ### The block commands -/

section
variable {b : Nat} {s : State}

theorem not_allInRange_blkEnc : (!allInRange (.blkEnc b) s) = true ↔ BlkEncBeyond b s := by
  rw [Bool.not_eq_true', ← Bool.not_eq_true, allInRange_blkEnc, not_not]

theorem not_allInRange_blkDec : (!allInRange (.blkDec b) s) = true ↔ BlkDecBeyond b s := by
  rw [Bool.not_eq_true', ← Bool.not_eq_true, allInRange_blkDec, not_not]

theorem walkChain_error {es out : List Word} {cur : Nat} {c : ErrCode} (h : walkChain es cur out = .error c) :
    c = .malChain := by
  induction es generalizing cur out with
  | nil => cases h
  | cons e es ih =>
    rw [walkChain] at h
    split at h
    · cases h
      rfl
    · exact ih h

/-- The block decoder raises one code only (R120). -/
theorem decompressBlock_error {pk : PackFns} {w excs : List Word} {first : Nat} {c : ErrCode}
    (h : decompressBlock pk w b excs first = .error c) : c = .malChain := by
  unfold decompressBlock at h
  split at h
  · cases h
  · split at h
    · cases h
    · rename_i hwalk
      cases h
      exact walkChain_error hwalk

/-! The checks of BLK_ENC in their order (R122). -/

theorem blkEncBody_width (hb : 32 < b) : blkEncBody b s = .error .invalidArg := if_pos hb

section
variable (hb : b ≤ 32)
include hb

theorem blkEncBody_cursor (hcur : s.excEnd.toNat < s.excCur.toNat) : blkEncBody b s = .error .invalidArg :=
  (if_neg (Nat.not_lt.mpr hb)).trans (if_pos hcur)

variable (hcur : s.excCur.toNat ≤ s.excEnd.toNat)
include hcur

theorem blkEncBody_range (hrange : BlkEncBeyond b s) : blkEncBody b s = .error .accessFault := by
  rw [blkEncBody, if_neg (Nat.not_lt.mpr hb), if_neg (Nat.not_lt.mpr hcur), if_pos (not_allInRange_blkEnc.mpr hrange)]

theorem blkEncBody_overlap (hrange : ¬ BlkEncBeyond b s) (hshare : BlkEncShared b s) :
    blkEncBody b s = .error .overlap := by
  rw [blkEncBody, if_neg (Nat.not_lt.mpr hb), if_neg (Nat.not_lt.mpr hcur), if_neg (mt not_allInRange_blkEnc.mp hrange),
    if_pos (anyOverlap_blkEnc.mpr hshare)]

theorem blkEncBody_room (hrange : ¬ BlkEncBeyond b s) (hshare : ¬ BlkEncShared b s)
    (hroom : s.excEnd.toNat - s.excCur.toNat < (blkEncResult b s).excs.length) :
    blkEncBody b s = .error .outputOverflow := by
  rw [blkEncBody, if_neg (Nat.not_lt.mpr hb), if_neg (Nat.not_lt.mpr hcur), if_neg (mt not_allInRange_blkEnc.mp hrange),
    if_neg (mt anyOverlap_blkEnc.mp hshare), if_pos hroom]

end

/-! The checks of BLK_DEC in their order (R123). -/

theorem blkDecBody_arg (h : 32 < b ∨ 128 < s.first.toNat ∨ s.excEnd.toNat < s.excCur.toNat) :
    blkDecBody b s = .error .invalidArg := by
  by_cases hb : 32 < b
  · exact if_pos hb
  · refine (if_neg hb).trans ?_
    by_cases hfirst : 128 < s.first.toNat
    · exact if_pos hfirst
    · exact (if_neg hfirst).trans (if_pos (by omega))

section
variable (hb : b ≤ 32) (hcur : s.excCur.toNat ≤ s.excEnd.toNat) (hfirst : s.first.toNat ≤ 128)
include hb hcur hfirst

theorem blkDecBody_range (hrange : BlkDecBeyond b s) : blkDecBody b s = .error .accessFault := by
  rw [blkDecBody, if_neg (Nat.not_lt.mpr hb), if_neg (Nat.not_lt.mpr hfirst), if_neg (Nat.not_lt.mpr hcur),
    if_pos (not_allInRange_blkDec.mpr hrange)]

theorem blkDecBody_overlap (hrange : ¬ BlkDecBeyond b s) (hshare : BlkDecShared b s) :
    blkDecBody b s = .error .overlap := by
  rw [blkDecBody, if_neg (Nat.not_lt.mpr hb), if_neg (Nat.not_lt.mpr hfirst), if_neg (Nat.not_lt.mpr hcur),
    if_neg (mt not_allInRange_blkDec.mp hrange), if_pos (anyOverlap_blkDec.mpr hshare)]

theorem blkDecBody_error (hrange : ¬ BlkDecBeyond b s) (hshare : ¬ BlkDecShared b s) {c : ErrCode}
    (hresult : blkDecResult b s = .error c) : blkDecBody b s = .error c := by
  rw [blkDecBody, if_neg (Nat.not_lt.mpr hb), if_neg (Nat.not_lt.mpr hfirst), if_neg (Nat.not_lt.mpr hcur),
    if_neg (mt not_allInRange_blkDec.mp hrange), if_neg (mt anyOverlap_blkDec.mp hshare), hresult]

end

end

/-- Settles O46: each clause is the first branch of the outcome that its premises leave. -/
theorem blkCheckOrder : Obligations.BlkCheckOrder := by
  intro b s hr
  have enc {c : ErrCode} : blkEncBody b s = .error c → Fails (.blkEnc b) s c := fails_of_error (i := .blkEnc b) hr
  have dec {c : ErrCode} : blkDecBody b s = .error c → Fails (.blkDec b) s c := fails_of_error (i := .blkDec b) hr
  refine ⟨fun hb => ⟨enc (blkEncBody_width hb), dec (blkDecBody_arg (.inl hb))⟩,
    fun hb hcur => ⟨enc (blkEncBody_cursor hb hcur), dec (blkDecBody_arg (.inr (.inr hcur)))⟩,
    fun _ hfirst => dec (blkDecBody_arg (.inr (.inl hfirst))),
    fun hb hcur => ⟨fun hrange => enc (blkEncBody_range hb hcur hrange),
      fun hrange hshare => enc (blkEncBody_overlap hb hcur hrange hshare),
      fun hrange hshare hroom => enc (blkEncBody_room hb hcur hrange hshare hroom)⟩,
    fun hb hcur hfirst => ⟨fun hrange => dec (blkDecBody_range hb hcur hfirst hrange),
      fun hrange hshare => dec (blkDecBody_overlap hb hcur hfirst hrange hshare),
      fun c hrange hshare hresult => ?_⟩⟩
  obtain rfl := decompressBlock_error hresult
  exact ⟨rfl, dec (blkDecBody_error hb hcur hfirst hrange hshare hresult)⟩

/-! ### The array decoder, wherever its loop stands -/

/-- The answer `r` with the values `vals` of the `n` chunks before it. -/
def ArrayValues.after (vals : List Word) (n : Nat) (r : ArrayValues) : ArrayValues :=
  { vals := vals ++ r.vals, used := r.used, chunks := r.chunks + n }

theorem map_after_after (vals more : List Word) (n : Nat) (x : Except ErrCode ArrayValues) :
    (x.map (ArrayValues.after more 1)).map (ArrayValues.after vals n) =
      x.map (ArrayValues.after (vals ++ more) (n + 1)) := by
  cases x with
  | error c => rfl
  | ok r => simp [Except.map, ArrayValues.after, Nat.add_assoc, Nat.add_comm 1]

theorem map_after_nil (x : Except ErrCode ArrayValues) : x.map (ArrayValues.after [] 0) = x := by
  cases x <;> rfl

theorem decodeArrayLoop_done (pk : PackFns) (w : List Word) (fuel pos : Nat) :
    decodeArrayLoop pk w fuel 0 pos = .ok { vals := [], used := pos, chunks := 0 } := by
  cases fuel <;> rfl

section
variable {pk : PackFns} {w : List Word} {fuel owed pos : Nat} (howed : 0 < owed)
include howed

/-! One round of the loop with values owed, check by check (R135). -/

theorem decodeArrayLoop_truncated (h : w.length < pos + 2) :
    decodeArrayLoop pk w (fuel + 1) owed pos = .error .malTruncated :=
  (if_neg (Nat.ne_of_gt howed)).trans (if_pos h)

variable (room : pos + 2 ≤ w.length)
include room

theorem decodeArrayLoop_length_error (h : (wordAt w pos).toNat = 0 ∨ owed < (wordAt w pos).toNat) :
    decodeArrayLoop pk w (fuel + 1) owed pos = .error .malLength :=
  (if_neg (Nat.ne_of_gt howed)).trans ((if_neg (Nat.not_lt.mpr room)).trans (if_pos h))

variable (hpos : 0 < (wordAt w pos).toNat) (fits : (wordAt w pos).toNat ≤ owed)
include hpos fits

theorem decodeArrayLoop_chunk_error {c : ErrCode} (h : decodeChunk pk (w.drop pos) owed = .error c) :
    decodeArrayLoop pk w (fuel + 1) owed pos = .error c := by
  rw [decodeArrayLoop, if_neg (Nat.ne_of_gt howed), if_neg (Nat.not_lt.mpr room), if_neg (by omega), h]

theorem decodeArrayLoop_chunk {r : ChunkValues} (h : decodeChunk pk (w.drop pos) owed = .ok r) :
    decodeArrayLoop pk w (fuel + 1) owed pos =
      (decodeArrayLoop pk w fuel (owed - r.vals.length) (pos + r.used)).map (ArrayValues.after r.vals 1) := by
  rw [decodeArrayLoop, if_neg (Nat.ne_of_gt howed), if_neg (Nat.not_lt.mpr room), if_neg (by omega), h]
  dsimp only
  cases decodeArrayLoop pk w fuel (owed - r.vals.length) (pos + r.used) <;> rfl

end

section
variable {pk : PackFns} {w vals : List Word} {N pos n : Nat} (hc : pk.Contract)
include hc

/-- After `n` chunks with the values `vals`, what is left of the loop is the loop from there: each chunk gave at least one
value and no more than were owed, so that there is fuel left for those still owed. -/
theorem ChunksAt.loop (h : ChunksAt pk w N pos vals n) :
    n ≤ vals.length ∧ vals.length ≤ N ∧
      decodeArrayLoop pk w N N 1 =
        (decodeArrayLoop pk w (N - n) (N - vals.length) pos).map (ArrayValues.after vals n) := by
  induction h with
  | start => exact ⟨Nat.le_refl _, Nat.zero_le _, (map_after_nil _).symm⟩
  | @next pos n vals r before howed room hpos fits decoded ih =>
    obtain ⟨hn, hvals, hloop⟩ := ih
    have hlen := (decodeChunk_length hc decoded).1
    rw [wordAt_drop, Nat.add_zero] at hlen
    have hfuel : N - n = N - (n + 1) + 1 := by omega
    have hrest : N - (vals ++ r.vals).length = N - vals.length - r.vals.length := by
      rw [List.length_append]
      omega
    rw [List.length_append]
    refine ⟨by omega, by omega, ?_⟩
    rw [hloop, hfuel, decodeArrayLoop_chunk (by omega) room hpos fits decoded, map_after_after,
      ← List.length_append, hrest]

variable (h : ChunksAt pk w N pos vals n) {cap : Nat} (hlen : 1 ≤ w.length) (hN : (wordAt w 0).toNat = N) (hcap : N ≤ cap)
include h hlen hN hcap

theorem decodeArray_at :
    decodeArray pk w cap = (decodeArrayLoop pk w (N - n) (N - vals.length) pos).map (ArrayValues.after vals n) := by
  obtain ⟨-, -, hloop⟩ := h.loop hc
  rw [decodeArray, if_neg (Nat.not_lt.mpr hlen), hN, if_neg (Nat.not_lt.mpr hcap), hloop]

/-- With no value owed the loop has ended. -/
theorem decodeArray_done (howed : vals.length = N) :
    decodeArray pk w cap = .ok { vals := vals, used := pos, chunks := n } := by
  rw [decodeArray_at hc h hlen hN hcap, howed, Nat.sub_self, decodeArrayLoop_done]
  simp [Except.map, ArrayValues.after]

/-- With values owed an error of the next round is the decoder's. -/
theorem decodeArray_error_at (howed : vals.length < N) {c : ErrCode}
    (hround : ∀ fuel, decodeArrayLoop pk w (fuel + 1) (N - vals.length) pos = .error c) :
    decodeArray pk w cap = .error c := by
  obtain ⟨hn, -, -⟩ := h.loop hc
  obtain ⟨fuel, hfuel⟩ : ∃ fuel, N - n = fuel + 1 := ⟨N - n - 1, by omega⟩
  rw [decodeArray_at hc h hlen hN hcap, hfuel, hround]
  rfl

end

/-! ### ESTIMATE and the frame commands -/

theorem estimateBody_range {s : State} (h : s.params.memWords < s.srcAddr.toNat + s.srcLen.toNat) :
    estimateBody s = .error .accessFault :=
  if_pos (by simpa [allInRange, readRegions, writtenRegions, inRange, srcRegion, regionAt] using h)

section
variable {s : State} (hrange : ¬ FrameBeyond s) (hshare : ¬ FrameShared s)
include hrange hshare

theorem chunkDecBody_error {c : ErrCode} (h : chunkDecResult s = .error c) : chunkDecBody s = .error c := by
  rw [chunkDecBody, frame_pass (by simp) hrange hshare, h]

theorem arrayDecBody_error {c : ErrCode} (h : arrayDecResult s = .error c) : arrayDecBody s = .error c := by
  rw [arrayDecBody, frame_pass (by simp) hrange hshare, h]

end

theorem chunkEncBody_length {s : State} (h : s.srcLen.toNat % 128 ≠ 0 ∨ 2 ^ 24 < s.srcLen.toNat) :
    chunkEncBody s = .error .invalidLength := if_pos h

theorem arrayEncBody_length {s : State} (h : s.srcLen.toNat % 128 ≠ 0) :
    arrayEncBody s = .error .invalidLength := if_pos h

section
variable {s : State} (hmod : s.srcLen.toNat % 128 = 0)
include hmod

theorem arrayEncBody_range (hrange : FrameBeyond s) : arrayEncBody s = .error .accessFault :=
  (if_neg (not_not.mpr hmod)).trans (frame_rangeFault (by simp) hrange)

theorem arrayEncBody_overlap (hrange : ¬ FrameBeyond s) (hshare : FrameShared s) : arrayEncBody s = .error .overlap :=
  (if_neg (not_not.mpr hmod)).trans (frame_overlapFault (by simp) hrange hshare)

theorem arrayEncBody_room (hrange : ¬ FrameBeyond s) (hshare : ¬ FrameShared s)
    (hroom : s.dstCap.toNat < (arrayEncResult s).out.length) : arrayEncBody s = .error .outputOverflow :=
  (if_neg (not_not.mpr hmod)).trans ((frame_pass (by simp) hrange hshare).trans (if_pos hroom))

variable (hmax : s.srcLen.toNat ≤ 2 ^ 24)
include hmax

theorem chunkEncBody_range (hrange : FrameBeyond s) : chunkEncBody s = .error .accessFault :=
  (if_neg (chunkEnc_legal hmod hmax)).trans (frame_rangeFault (by simp) hrange)

theorem chunkEncBody_overlap (hrange : ¬ FrameBeyond s) (hshare : FrameShared s) : chunkEncBody s = .error .overlap :=
  (if_neg (chunkEnc_legal hmod hmax)).trans (frame_overlapFault (by simp) hrange hshare)

theorem chunkEncBody_room (hrange : ¬ FrameBeyond s) (hshare : ¬ FrameShared s)
    (hroom : s.dstCap.toNat < (chunkEncResult s).out.length) : chunkEncBody s = .error .outputOverflow :=
  (if_neg (chunkEnc_legal hmod hmax)).trans ((frame_pass (by simp) hrange hshare).trans (if_pos hroom))

end

/-- Settles O47: each clause is the first branch of the outcome that its premises leave; for ARRAY_DEC the next round of
the loop, wherever it stands (`decodeArray_done`, `decodeArray_error_at`). -/
theorem frameCheckOrder : Obligations.FrameCheckOrder := by
  intro s hr
  have chunkEnc {c : ErrCode} : chunkEncBody s = .error c → Fails .chunkEnc s c := fails_of_error (i := .chunkEnc) hr
  have chunkDec {c : ErrCode} : chunkDecBody s = .error c → Fails .chunkDec s c := fails_of_error (i := .chunkDec) hr
  have arrayEnc {c : ErrCode} : arrayEncBody s = .error c → Fails .arrayEnc s c := fails_of_error (i := .arrayEnc) hr
  have arrayDec {c : ErrCode} : arrayDecBody s = .error c → Fails .arrayDec s c := fails_of_error (i := .arrayDec) hr
  refine ⟨fun h => fails_of_error (i := .estimate) hr (estimateBody_range h),
    fun h => ⟨chunkEnc (chunkEncBody_length (.inl h)), arrayEnc (arrayEncBody_length h)⟩,
    fun h => chunkEnc (chunkEncBody_length (.inr h)), fun hmod hmax => ?_, fun hmod => ?_, fun hrange => ?_,
    fun hrange hshare => ?_, fun c hrange hshare => ?_, fun hrange hshare => ?_⟩
  · exact ⟨fun hrange => chunkEnc (chunkEncBody_range hmod hmax hrange),
      fun hrange hshare => chunkEnc (chunkEncBody_overlap hmod hmax hrange hshare),
      fun hrange hshare hroom => chunkEnc (chunkEncBody_room hmod hmax hrange hshare hroom)⟩
  · exact ⟨fun hrange => arrayEnc (arrayEncBody_range hmod hrange),
      fun hrange hshare => arrayEnc (arrayEncBody_overlap hmod hrange hshare),
      fun hrange hshare hroom => arrayEnc (arrayEncBody_room hmod hrange hshare hroom)⟩
  · exact ⟨chunkDec (frame_rangeFault (by simp) hrange), arrayDec (frame_rangeFault (by simp) hrange)⟩
  · exact ⟨chunkDec (frame_overlapFault (by simp) hrange hshare), arrayDec (frame_overlapFault (by simp) hrange hshare)⟩
  · exact ⟨fun h => chunkDec (chunkDecBody_error hrange hshare h), fun h => arrayDec (arrayDecBody_error hrange hshare h)⟩
  · have fails {c : ErrCode} (h : arrayDecResult s = .error c) : Fails .arrayDec s c :=
      arrayDec (arrayDecBody_error hrange hshare h)
    have hlen : (srcWords s).length = s.srcLen.toNat := memRead_length _ _ _ _
    have hc : (packer s).Contract := packFns_contract _
    rw [← hlen]
    refine ⟨fun h => fails (if_pos h), fun N hone hN => ⟨fun hcap => ?_, fun pos vals n hcap hat => ⟨fun howed => ?_,
      fun howed => ⟨fun h => ?_, fun room => ⟨fun h => ?_, fun c hpos fits h => ?_⟩⟩⟩⟩⟩
    · exact fails ((if_neg (Nat.not_lt.mpr hone)).trans (if_pos (hN ▸ hcap)))
    · exact decodeArray_done hc hat hone hN hcap howed
    · exact fails (decodeArray_error_at hc hat hone hN hcap howed fun _ =>
        decodeArrayLoop_truncated (Nat.sub_pos_of_lt howed) h)
    · exact fails (decodeArray_error_at hc hat hone hN hcap howed fun _ =>
        decodeArrayLoop_length_error (Nat.sub_pos_of_lt howed) room h)
    · exact fails (decodeArray_error_at hc hat hone hN hcap howed fun _ =>
        decodeArrayLoop_chunk_error (Nat.sub_pos_of_lt howed) room hpos fits h)

end Sys2Proof.Machine
end

section
/-! PROOFS. The command word: its fields, the encoder, the decoder and the reserved rows (30_encoding.md R69 to R73, R85;
60_exceptions.md R148). -/

namespace Sys2Proof.Machine

/-! ### The fields of a command word (R69) -/

theorem opField_eq (w : Word) : opField w = w.toNat % 16 := by
  rw [opField, BitVec.extractLsb'_toNat, Nat.shiftRight_zero]

theorem bField_eq (w : Word) : bField w = w.toNat / 256 % 64 := by
  rw [bField, BitVec.extractLsb'_toNat, Nat.shiftRight_eq_div_pow]

/-! ### The encoder (R85) -/

theorem fields_lt {i : Instr} (h : i.wf = true) : opOf i < 16 ∧ bOf i < 64 := by
  cases i with
  | estimate | chunkEnc | chunkDec | arrayEnc | arrayDec | reservedOp0 => decide
  | blkEnc b | blkDec b => exact ⟨by simp [opOf], of_decide_eq_true h⟩
  | reservedOp8F op => exact ⟨(of_decide_eq_true h).2, by simp [bOf]⟩

/-- The two fields of a well-formed command do not meet in its word. -/
theorem encode_toNat {i : Instr} (h : i.wf = true) : (encode i).toNat = 256 * bOf i + opOf i := by
  obtain ⟨hop, hb⟩ := fields_lt h
  have hlow : (BitVec.ofNat 32 (opOf i)).toNat = opOf i := toNat_toReg (by omega)
  have hhigh : (BitVec.ofNat 32 (bOf i) <<< 8).toNat = bOf i <<< 8 := by
    rw [BitVec.toNat_shiftLeft, BitVec.toNat_ofNat, Nat.shiftLeft_eq, Nat.shiftLeft_eq]
    omega
  rw [encode, BitVec.toNat_or, hlow, hhigh, ← Nat.shiftLeft_add_eq_or_of_lt (by omega), Nat.shiftLeft_eq, Nat.mul_comm]

theorem fields_encode {i : Instr} (h : i.wf = true) : opField (encode i) = opOf i ∧ bField (encode i) = bOf i := by
  obtain ⟨hop, hb⟩ := fields_lt h
  rw [opField_eq, bField_eq, encode_toNat h]
  omega

/-! ### The decoder (R70) -/

/-- The second reserved row: every selector from 8 on. -/
theorem decode_of_opField_ge {w : Word} (h : 8 ≤ opField w) : decode w = .reservedOp8F (opField w) := by
  unfold decode
  split
  case h_9 => rfl
  all_goals omega

/-- A word with the two fields of a well-formed command is that command (the decoder reads nothing else). -/
theorem decode_of_fields {w : Word} {i : Instr} (h : i.wf = true) (hop : opField w = opOf i) (hb : bField w = bOf i) :
    decode w = i := by
  cases i with
  | estimate | chunkEnc | chunkDec | arrayEnc | arrayDec | reservedOp0 => simp only [decode, hop, opOf]
  | blkEnc b | blkDec b => simp only [decode, hop, opOf, hb, bOf]
  | reservedOp8F op =>
    have hrow : 8 ≤ op := (of_decide_eq_true h).1
    rw [decode_of_opField_ge (by rw [hop]; exact hrow), hop, opOf]

/-- A word selects its row by `OP`, and the two block rows take the word's `B`. -/
theorem decode_fields (w : Word) :
    (decode w).wf = true ∧ opOf (decode w) = opField w ∧
      ∀ b, decode w = .blkEnc b ∨ decode w = .blkDec b → b = bField w := by
  have hop : opField w < 16 := by rw [opField_eq]; omega
  have hb : bField w < 64 := by rw [bField_eq]; omega
  rcases Nat.lt_or_ge (opField w) 8 with hlow | hhigh
  · unfold decode
    interval_cases opField w <;> simp [Instr.wf, opOf, hb]
  · rw [decode_of_opField_ge hhigh]
    simp [Instr.wf, opOf, hhigh, hop]

/-! ### The reserved rows (R71, R148) -/

/-- A reserved selector takes the error `ILLEGAL_OP` with no written region, and this code keeps the memory. -/
theorem raiseError_illegalOp (s : State) :
    Completed .illegalOp (raiseError [] .illegalOp s) ∧ Results 0 0 0 (raiseError [] .illegalOp s) ∧
      (raiseError [] .illegalOp s).excCur = s.excCur ∧ ArgsKept s (raiseError [] .illegalOp s) ∧
      (raiseError [] .illegalOp s).mem = s.mem :=
  ⟨⟨rfl, rfl, rfl, rfl⟩, ⟨rfl, rfl, rfl⟩, rfl, (raiseError_ends false [] .illegalOp s).argsKept, rfl⟩

/-! ### The obligations -/

/-- Settles O2: the word of a well-formed command holds its fields (`fields_encode`), which are all the decoder reads. -/
theorem decodeEncode : Obligations.DecodeEncode := fun _ h =>
  decode_of_fields h (fields_encode h).1 (fields_encode h).2

/-- Settles O3: `decode_fields`, with the fields as numbers. -/
theorem decodeTotal : Obligations.DecodeTotal := by
  intro w
  rw [← opField_eq, ← bField_eq]
  exact decode_fields w

/-- Settles O4: an IDLE write of `CMD` is `issue`, which keeps the bits of `cmdMask` only, and so does the decoder. -/
theorem reservedBitsIgnored : Obligations.ReservedBitsIgnored := by
  intro w s hp
  have hwrite (v : Word) : writeReg .cmd v s = issue v s := guarded_idle hp
  refine ⟨?_, ?_, decode_and_cmdMask w⟩
  · rw [hwrite]
    exact issue_cmd w s
  · rw [hwrite, hwrite]
    exact (issue_and_cmdMask w s).symm

/-- Settles O1: each word is evaluated. -/
theorem decodeCommandWords : Obligations.DecodeCommandWords := by
  unfold Obligations.DecodeCommandWords
  decide

/-- Settles O45: both reserved rows are `raiseError [] .illegalOp`. -/
theorem reservedCompletes : Obligations.ReservedCompletes := fun s op =>
  ⟨⟨_, exec_reservedOp0 s, raiseError_illegalOp s⟩, ⟨_, exec_reservedOp8F op s, raiseError_illegalOp s⟩⟩

end Sys2Proof.Machine
end

section
/-! PROOFS. The chunk frame: headers, size and layout (30_encoding.md R77 to R81; 43_chunk.md R125, R126, R131). -/

namespace Sys2Proof.Machine

/-! ### The blocks of a frame, one after the other -/

/-- The exceptions of the chunk are those so far and those of the blocks, in order. -/
theorem encodeBlocks_snd (pk : PackFns) (b : Nat) (vs : List (List Word)) (excs : List Word) :
    (encodeBlocks pk b vs excs).2 = excs ++ vs.flatMap fun v => (compressBlock pk v b).excs := by
  induction vs generalizing excs with
  | nil => simp
  | cons v vs ih => rw [encodeBlocks_cons_snd, ih, List.flatMap_cons, List.append_assoc]

/-- The blocks `vs` after the blocks `us` are encoded as if the exceptions of `us` stood before them. -/
theorem encodeBlocks_append_fst (pk : PackFns) (b : Nat) (us vs : List (List Word)) (excs : List Word) :
    (encodeBlocks pk b (us ++ vs) excs).1 =
      (encodeBlocks pk b us excs).1 ++ (encodeBlocks pk b vs (encodeBlocks pk b us excs).2).1 := by
  induction us generalizing excs with
  | nil => rfl
  | cons u us ih =>
    rw [List.cons_append, encodeBlocks_cons_fst, ih, encodeBlocks_cons_fst, encodeBlocks_cons_snd, List.append_assoc]

/-- Block `k` of a chunk, compressed at width `b`. -/
def chunkBlock (pk : PackFns) (x : List Word) (b k : Nat) : Compressed :=
  compressBlock pk (slice x (128 * k) (128 * k + 128)) b

/-- The blocks of a chunk are those before block `k`, block `k` and later ones. -/
theorem blocksOf_split {x : List Word} {k : Nat} (hk : k < x.length / 128) :
    ∃ later, blocksOf x = ((List.range k).map fun j => slice x (128 * j) (128 * j + 128)) ++
      slice x (128 * k) (128 * k + 128) :: later := by
  obtain ⟨m, hm⟩ : ∃ m, x.length / 128 = k + (m + 1) := ⟨x.length / 128 - (k + 1), by omega⟩
  rw [blocksOf, hm, List.range_add, List.map_append, List.range_succ_eq_map, List.map_cons, List.map_cons]
  exact ⟨_, rfl⟩

/-- The exceptions of the first blocks of a chunk, in order. -/
theorem encodeBlocks_range_snd (pk : PackFns) (x : List Word) (b n : Nat) :
    (encodeBlocks pk b ((List.range n).map fun j => slice x (128 * j) (128 * j + 128)) []).2 =
      (List.range n).flatMap fun j => (chunkBlock pk x b j).excs := by
  rw [encodeBlocks_snd, List.nil_append, List.flatMap_map]
  rfl

/-! ### The pieces of a chunk frame (R80, R81, R125) -/

theorem encodeChunkAt_excCount_le (pk : PackFns) (x : List Word) {b : Nat} (hb : b ≤ 32) :
    (encodeChunkAt pk x b).excCount ≤ x.length := by
  have htail := encodeBlocks_tail_length (pk := pk) hb (fun _ => length_of_mem_blocksOf (x := x)) []
  rw [List.length_nil, length_blocksOf] at htail
  exact htail.trans (by omega)

section
variable {pk : PackFns} (hc : pk.Contract) {x : List Word} {b : Nat} (hb : b ≤ 32)

include hc hb

/-- The exceptions of a chunk frame begin where `tailStart` says. -/
theorem length_before_tail :
    ([toReg x.length, toReg b] ++ (encodeBlocks pk b (blocksOf x) []).1).length = tailStart (x.length / 128) b := by
  rw [List.length_append, encodeBlocks_length hc hb (fun _ => length_of_mem_blocksOf), length_blocksOf]
  rfl

theorem encodeChunkAt_length (hmod : x.length % 128 = 0) :
    (encodeChunkAt pk x b).out.length = frameWords x.length b (encodeChunkAt pk x b).excCount := by
  obtain ⟨n, hn⟩ := Nat.dvd_of_mod_eq_zero hmod
  have hblocks : x.length / 128 * (1 + bw b) = x.length / 128 + x.length * b / 32 := by
    rw [hn, bw, Nat.mul_div_cancel_left n (by decide), show 128 * n * b = 32 * (n * (4 * b)) by ring,
      Nat.mul_div_cancel_left _ (by decide), Nat.mul_add, Nat.mul_one]
  rw [encodeChunkAt_out, List.length_append, length_before_tail hc hb, tailStart, hblocks, ← Nat.add_assoc]
  rfl

theorem encodeChunkAt_tail :
    (encodeChunkAt pk x b).out.drop (tailStart (x.length / 128) b) =
      (List.range (x.length / 128)).flatMap fun k => (chunkBlock pk x b k).excs := by
  rw [encodeChunkAt_out, ← length_before_tail hc hb, List.drop_left, blocksOf, encodeBlocks_range_snd]

/-- Block `k` of a chunk frame: its header, which counts the exceptions up to its own, and its payload (R80, R126). -/
theorem encodeChunkAt_block {k : Nat} (hk : k < x.length / 128) :
    ∃ pre post, pre.length = 2 + k * (1 + bw b) ∧ (encodeChunkAt pk x b).out = pre ++
      (headerWord (chunkBlock pk x b k).first ((List.range (k + 1)).map fun j => (chunkBlock pk x b j).excs.length).sum ::
        (chunkBlock pk x b k).words) ++ post := by
  obtain ⟨later, hsplit⟩ := blocksOf_split hk
  have hearlier : ∀ v ∈ (List.range k).map fun j => slice x (128 * j) (128 * j + 128), v.length = 128 := fun v hv =>
    length_of_mem_blocksOf (hsplit ▸ List.mem_append_left _ hv)
  have hcount : ((List.range (k + 1)).map fun j => (chunkBlock pk x b j).excs.length).sum =
      ((List.range k).flatMap fun j => (chunkBlock pk x b j).excs).length + (chunkBlock pk x b k).excs.length := by
    rw [List.range_succ, List.map_append, List.sum_append, List.length_flatMap, List.map_singleton, List.sum_singleton]
  have hbefore := encodeBlocks_length hc hb hearlier []
  rw [List.length_map, List.length_range] at hbefore
  rw [encodeChunkAt_out, hcount]
  generalize (encodeBlocks pk b (blocksOf x) []).2 = tail
  rw [hsplit, encodeBlocks_append_fst, encodeBlocks_range_snd, encodeBlocks_cons_fst]
  generalize (encodeBlocks pk b _ []).1 = before at hbefore ⊢
  generalize (encodeBlocks pk b later _).1 = behind
  refine ⟨[toReg x.length, toReg b] ++ before, behind ++ tail, ?_, ?_⟩
  · rw [List.length_append, hbefore]
    rfl
  · simp only [blockFrame, chunkBlock, List.append_assoc]

/-- Where the header and the payload of block `k` stand (R80). -/
theorem encodeChunkAt_block_words {k : Nat} (hk : k < x.length / 128) :
    wordAt (encodeChunkAt pk x b).out (2 + k * (1 + bw b)) =
        headerWord (chunkBlock pk x b k).first
          ((List.range (k + 1)).map fun j => (chunkBlock pk x b j).excs.length).sum ∧
      slice (encodeChunkAt pk x b).out (3 + k * (1 + bw b)) (3 + k * (1 + bw b) + bw b) =
        (chunkBlock pk x b k).words := by
  obtain ⟨pre, post, hpre, hout⟩ := encodeChunkAt_block hc hb hk
  have hv : (slice x (128 * k) (128 * k + 128)).length = 128 := by
    rw [slice_length]
    omega
  have hwords : (chunkBlock pk x b k).words.length = bw b := compressBlock_words_length hc hv hb
  generalize headerWord _ _ = header at hout ⊢
  constructor
  · rw [hout, List.append_assoc, ← hpre]
    exact wordAt_append_right pre _ 0
  · have hstart : 3 + k * (1 + bw b) = (pre ++ [header]).length := by
      rw [List.length_append, hpre, List.length_singleton]
      omega
    refine slice_middle (zs := post) ?_ hstart (by rw [hstart, hwords])
    rw [hout]
    simp only [List.append_assoc, List.cons_append, List.nil_append]

end

/-! ### The obligations -/

/-- Settles O31: the two fields of a header do not meet (`headerWord_toNat`). -/
theorem headerFields : Obligations.HeaderFields :=
  ⟨fun _ _ _ hc => ⟨headerOff_headerWord hc, headerEnd_headerWord hc, headerWord_toNat hc⟩, rfl⟩

/-- Settles O32: a payload of at most 32 bits a value is no longer than the chunk, and so are the exceptions. -/
theorem chunkFrameSize : Obligations.ChunkFrameSize := by
  intro pk x sel hc hmod _
  have hb := estimate_le x sel
  have hlen := encodeChunkAt_length hc hb hmod
  have hexcs := encodeChunkAt_excCount_le pk x hb
  have hpayload : x.length * estimate x sel / 32 ≤ x.length :=
    Nat.div_le_of_le_mul (by rw [Nat.mul_comm]; exact Nat.mul_le_mul_right _ hb)
  refine ⟨rfl, hlen, hexcs, hlen.trans_le ?_⟩
  rw [frameWords]
  omega

/-- Settles O33: the frame is cut before block `k` (`encodeChunkAt_block`) and before the tail. -/
theorem chunkFrameLayout : Obligations.ChunkFrameLayout := by
  intro pk x sel hc _ _
  have hb := estimate_le x sel
  exact ⟨rfl, rfl, fun k hk => encodeChunkAt_block_words hc hb hk, encodeChunkAt_tail hc hb⟩

end Sys2Proof.Machine
end

section
/-! PROOFS. The bit length, the packer contract, and the bits of the reference layout (40_primitives.md R86 to R93). -/

namespace Sys2Proof.Machine

/-! ### Bit length (R86) -/

theorem lt_bitlen_iff {v : Word} {b : Nat} : b < bitlen v ↔ 2 ^ b ≤ v.toNat := by
  unfold bitlen
  split
  case isTrue h => simp [h]
  case isFalse h => rw [Nat.lt_succ_iff, Nat.le_log2 (BitVec.toNat_ne.mp h)]

theorem bitlen_le_iff {v : Word} {k : Nat} : bitlen v ≤ k ↔ v.toNat < 2 ^ k := by
  rw [← Nat.not_lt, lt_bitlen_iff, Nat.not_le]

theorem getLsbD_bitlen_pred {v : Word} (h : v ≠ 0#32) : v.getLsbD (bitlen v - 1) = true := by
  rw [bitlen, if_neg h, Nat.add_sub_cancel, ← BitVec.testBit_toNat]
  exact Nat.testBit_log2 (BitVec.toNat_ne.mp h)

theorem getLsbD_of_bitlen_le {v : Word} {j : Nat} (h : bitlen v ≤ j) : v.getLsbD j = false := by
  rw [← BitVec.testBit_toNat]
  exact Nat.testBit_lt_two_pow (bitlen_le_iff.mp h)

/-- Settles O18: `2 ^ b ≤ v` exactly when `b < bitlen v` (`lt_bitlen_iff`), which fixes the least `k` as well. -/
theorem bitLength : Obligations.BitLength := by
  refine ⟨fun v => ⟨bitlen_le_iff.mpr v.isLt, bitlen_le_iff.mp le_rfl, fun _ => bitlen_le_iff.mpr, fun h => ?_,
    fun _ _ => lt_bitlen_iff.symm⟩, by decide⟩
  exact ⟨getLsbD_bitlen_pred h, fun _ => getLsbD_of_bitlen_le⟩

/-! ### The packers of the parameter and the packer contract (R88, R90) -/

/-- Settles O19: the reference packer meets the contract, and a bijection of its payloads keeps it (`packFns_contract`). -/
theorem packersMeetContract : Obligations.PackersMeetContract := packFns_contract

/-- Two injections into a finite type differ by a bijection of it. -/
theorem exists_perm_apply_eq {α β : Type} [Finite β] {f g : α → β} (hf : f.Injective) (hg : g.Injective) :
    ∃ σ : Equiv.Perm β, ∀ a, σ (f a) = g a := by
  classical
  obtain ⟨e, he⟩ : ∃ e : Set.range f ≃ Set.range g, ∀ a, e ⟨f a, a, rfl⟩ = g a :=
    ⟨(Equiv.ofInjective f hf).symm.trans (Equiv.ofInjective g hg), fun a => by simp⟩
  exact ⟨e.extendSubtype, fun a => (e.extendSubtype_apply_of_mem _ ⟨a, rfl⟩).trans (he a)⟩

/-- The blocks the contract asks to be packed without loss at width `b` (R88 clause 1). -/
def InRangeBlock (b : Nat) : Type := { P : List Word // P.length = 128 ∧ ∀ v ∈ P, v.toNat < 2 ^ b }

/-- The payload of a block, as a tuple of `4·b` words. -/
def payload (pk : PackFns) (b : Nat) (P : List Word) : Fin (4 * b) → Word := fun i => wordAt (pk.pack P b) i

section
variable {pk : PackFns} (hc : pk.Contract) {b : Nat} (hb : b ≤ 31)

include hc hb

theorem ofFn_payload {P : List Word} (hl : P.length = 128) : List.ofFn (payload pk b P) = pk.pack P b :=
  ofFn_wordAt (hc.packSize P b hl hb)

/-- Packing is injective on in-range blocks, as unpacking undoes it. -/
theorem payload_injective : Function.Injective fun P : InRangeBlock b => payload pk b P.1 := by
  rintro ⟨P, hP, hPv⟩ ⟨Q, hQ, hQv⟩ h
  have hpack : pk.pack P b = pk.pack Q b :=
    calc pk.pack P b = List.ofFn (payload pk b P) := (ofFn_payload hc hb hP).symm
      _ = List.ofFn (payload pk b Q) := congrArg List.ofFn h
      _ = pk.pack Q b := ofFn_payload hc hb hQ
  have hunpack := congrArg (pk.unpack · b) hpack
  rw [hc.lossless P b hP hb hPv, hc.lossless Q b hQ hb hQv] at hunpack
  exact Subtype.ext hunpack

end

/-- Settles O20: the packer and the reference packer both map the in-range blocks one to one into the payloads
(`payload_injective`), of which there are finitely many. -/
theorem packersCovered : Obligations.PackersCovered := by
  intro pk hc b hb
  obtain ⟨σ, hσ⟩ := exists_perm_apply_eq (payload_injective refFns_contract hb) (payload_injective hc hb)
  refine ⟨σ, fun P hl hv => ?_⟩
  rw [← ofFn_payload hc hb hl]
  exact congrArg List.ofFn (hσ ⟨P, hl, hv⟩).symm

/-! ### The bits of a digit -/

theorem getD_splitDigits {B n i : Nat} (x : Nat) (h : i < n) : (splitDigits B n x).getD i 0 = x / B ^ i % B := by
  induction n generalizing x i with
  | zero => omega
  | succ n ih =>
    cases i with
    | zero => simp [splitDigits]
    | succ i => rw [splitDigits, List.getD_cons_succ, ih _ (by omega), Nat.div_div_eq_div_mul, Nat.pow_succ']

/-- Bit `t` of digit `i` in base `2 ^ m` is bit `i·m + t` of the number. -/
theorem testBit_getD_splitDigits {m n i t : Nat} (x : Nat) (hi : i < n) (ht : t < m) :
    ((splitDigits (2 ^ m) n x).getD i 0).testBit t = x.testBit (i * m + t) := by
  rw [getD_splitDigits x hi, Nat.testBit_mod_two_pow, ← Nat.pow_mul, Nat.testBit_div_two_pow, Nat.mul_comm, Nat.add_comm]
  simp [ht]

theorem testBit_joinDigits {m i t : Nat} {ds : List Nat} (h : ∀ d ∈ ds, d < 2 ^ m) (hi : i < ds.length) (ht : t < m) :
    (joinDigits (2 ^ m) ds).testBit (i * m + t) = (ds.getD i 0).testBit t := by
  rw [← testBit_getD_splitDigits _ hi ht, splitDigits_joinDigits (Nat.two_pow_pos m) h]

/-! ### The bits of one pack (R92, R93) -/

theorem wordAt_map_ofNat (ds : List Nat) (k : Nat) :
    wordAt (ds.map (BitVec.ofNat 32)) k = BitVec.ofNat 32 (ds.getD k 0) := List.getD_map ds 0 (BitVec.ofNat 32)

theorem getD_map_wordAt {f : Word → Nat} (h : f 0#32 = 0) (xs : List Word) (k : Nat) :
    (xs.map f).getD k 0 = f (wordAt xs k) := by
  rw [← h, List.getD_map, wordAt]

/-- Bit `t` of the `b`-bit field `j` of a pack stands in one of its `b` words. -/
theorem stream_word_lt {b j t : Nat} (hj : j < 32) (ht : t < b) : (j * b + t) / 32 < b := by
  have hfield : (j + 1) * b ≤ 32 * b := Nat.mul_le_mul_right b hj
  rw [Nat.succ_mul] at hfield
  omega

theorem getLsbD_packOne {vs : List Word} {b j t : Nat} (hl : vs.length = 32) (hj : j < 32) (ht : t < b) :
    (wordAt (packOne vs b) ((j * b + t) / 32)).getLsbD ((j * b + t) % 32) = (wordAt vs j).getLsbD t := by
  have hs : (j * b + t) % 32 < 32 := Nat.mod_lt _ (by decide)
  have hfields : ∀ d ∈ vs.map fun v => v.toNat % 2 ^ b, d < 2 ^ b := fun d hd => by
    obtain ⟨v, -, rfl⟩ := List.mem_map.mp hd
    exact Nat.mod_lt _ (Nat.two_pow_pos b)
  rw [packOne, wordAt_map_ofNat, BitVec.getLsbD_ofNat, testBit_getD_splitDigits _ (stream_word_lt hj ht) hs,
    Nat.div_add_mod', testBit_joinDigits hfields (by rwa [List.length_map, hl]) ht, getD_map_wordAt (Nat.zero_mod _),
    Nat.testBit_mod_two_pow, BitVec.testBit_toNat]
  simp [hs, ht]

theorem getLsbD_unpackOne {ws : List Word} {b j t : Nat} (hb : b ≤ 32) (hl : ws.length = b) (hj : j < 32) (ht : t < b) :
    (wordAt (unpackOne ws b) j).getLsbD t = (wordAt ws ((j * b + t) / 32)).getLsbD ((j * b + t) % 32) := by
  have hs : (j * b + t) % 32 < 32 := Nat.mod_lt _ (by decide)
  have hwords : ∀ d ∈ ws.map BitVec.toNat, d < 2 ^ 32 := fun d hd => by
    obtain ⟨v, -, rfl⟩ := List.mem_map.mp hd
    exact v.isLt
  have hstream := testBit_joinDigits hwords (by rw [List.length_map, hl]; exact stream_word_lt hj ht) hs
  rw [Nat.div_add_mod', getD_map_wordAt rfl, BitVec.testBit_toNat] at hstream
  rw [unpackOne, wordAt_map_ofNat, BitVec.getLsbD_ofNat, testBit_getD_splitDigits _ hj ht, hstream]
  simp [show t < 32 by omega]

/-! ### The four packs of a block -/

theorem wordAt_mem {xs : List Word} {k : Nat} (h : k < xs.length) : wordAt xs k ∈ xs := by
  simp [wordAt, h]

theorem wordAt_slice (xs : List Word) {i n k : Nat} (h : k < n) : wordAt (slice xs i (i + n)) k = wordAt xs (i + k) := by
  simp [wordAt, slice, List.getD_eq_getElem?_getD, h]

/-- Pieces of `m` words one after the other: piece `p` is the slice at `p·m`. -/
theorem slice_flatMap_range {f : Nat → List Word} {m : Nat} (hf : ∀ q, (f q).length = m) {n p : Nat} (hp : p < n) :
    slice ((List.range n).flatMap f) (p * m) (p * m + m) = f p := by
  obtain ⟨r, rfl⟩ : ∃ r, n = p + (r + 1) := ⟨n - (p + 1), by omega⟩
  have hbefore : p * m = ((List.range p).flatMap f).length := by simp [List.length_flatMap, hf]
  refine slice_middle (zs := ((List.range r).map fun q => p + (q + 1)).flatMap f) ?_ hbefore (by rw [hf, hbefore])
  rw [List.range_add, List.range_succ_eq_map]
  simp [List.flatMap_map]

theorem wordAt_packRef (P : List Word) {b p k : Nat} (hp : p < 4) (hk : k < b) :
    wordAt (packRef P b) (p * b + k) = wordAt (packOne (slice P (32 * p) (32 * p + 32)) b) k := by
  rw [← wordAt_slice _ hk, packRef, slice_flatMap_range (fun _ => packOne_length _ b) hp]

theorem wordAt_unpackRef (w : List Word) (b : Nat) {p j : Nat} (hp : p < 4) (hj : j < 32) :
    wordAt (unpackRef w b) (32 * p + j) = wordAt (unpackOne (slice w (p * b) (p * b + b)) b) j := by
  rw [← wordAt_slice _ hj, Nat.mul_comm 32, unpackRef, slice_flatMap_range (fun _ => unpackOne_length _ b) hp]

/-- At width 32 the reference packing is the identity, as the reference unpacking is. -/
theorem packRef_raw {P : List Word} (h : P.length = 128) : packRef P 32 = P := by
  rw [← unpackRef_raw (packRef_length P 32), unpackRef_packRef h fun v _ => v.isLt]

/-- Settles O21: the payload is made of four packs (`wordAt_packRef`), the bits of each by `getLsbD_packOne`. -/
theorem packRefBits : Obligations.PackRefBits := by
  intro P b hl _
  refine ⟨packRef_length P b, fun p j t hp hj ht => ?_, fun h => h ▸ packRef_raw hl⟩
  have hpack : (slice P (32 * p) (32 * p + 32)).length = 32 := by
    rw [slice_length]
    omega
  rw [wordAt_packRef P hp (stream_word_lt hj ht), getLsbD_packOne hpack hj ht, wordAt_slice P hj]

/-- Settles O22: the values are those of four packs (`wordAt_unpackRef`), the bits of each by `getLsbD_unpackOne`. -/
theorem unpackRefBits : Obligations.UnpackRefBits := by
  intro w b hb hl
  refine ⟨unpackRef_length w b, fun p j hp hj => ⟨fun t ht => ?_, ?_⟩⟩
  · have hpack : (slice w (p * b) (p * b + b)).length = b := by
      have hend : (p + 1) * b ≤ 4 * b := Nat.mul_le_mul_right b hp
      rw [Nat.succ_mul] at hend
      rw [slice_length, hl, bw]
      omega
    rw [wordAt_unpackRef w b hp hj, getLsbD_unpackOne hb hpack hj ht, wordAt_slice w (stream_word_lt hj ht)]
  · refine unpackRef_range hb _ (wordAt_mem (xs := unpackRef w b) ?_)
    rw [unpackRef_length]
    omega

end Sys2Proof.Machine
end

section
/-! PROOFS. The estimator: the sample window, the integer forms of the cost, the smallest width of least cost, and ESTIMATE
(41_estimator.md R97 to R106). -/

namespace Sys2Proof.Machine

/-! ### The sample window (R98) -/

theorem sampleSize_eq (n : Nat) : sampleSize n = min n 65536 := rfl

theorem sampleSize_pos {x : List Word} (hx : x ≠ []) : 0 < sampleSize x.length :=
  Nat.lt_min.mpr ⟨List.length_pos_of_ne_nil hx, by decide⟩

theorem sampleStart_eq (n : Nat) (sel : Word) :
    sampleStart n sel = if 65536 < n then sel.toNat % (n - 65536 + 1) else 0 := by
  unfold sampleStart
  by_cases h : 65536 < n
  · have hsize : sampleSize n = 65536 := Nat.min_eq_right h.le
    rw [hsize, if_pos h]
  · have hsize : sampleSize n = n := Nat.min_eq_left (Nat.not_lt.mp h)
    rw [hsize, if_neg (Nat.lt_irrefl n), if_neg h]

/-- The window ends within the segment. -/
theorem sampleStart_le (n : Nat) (sel : Word) : sampleStart n sel ≤ n - sampleSize n := by
  rw [sampleStart_eq]
  split
  case isTrue h =>
    rw [sampleSize_eq, Nat.min_eq_right h.le]
    exact Nat.lt_succ_iff.mp (Nat.mod_lt _ (Nat.succ_pos _))
  case isFalse => exact Nat.zero_le _

theorem sampleOf_length (x : List Word) (sel : Word) : (sampleOf x sel).length = sampleSize x.length := by
  have hstart := sampleStart_le x.length sel
  have hsize : sampleSize x.length ≤ x.length := Nat.min_le_left _ _
  rw [sampleOf, slice_length]
  omega

theorem sampleOf_of_le {x : List Word} (sel : Word) (h : x.length ≤ 65536) : sampleOf x sel = x := by
  rw [sampleOf, sampleStart_eq, if_neg (Nat.not_lt.mpr h), sampleSize_eq, Nat.min_eq_left h]
  simp [slice]

theorem wordAt_sampleOf {x : List Word} {i : Nat} (sel : Word) (h : i < sampleSize x.length) :
    wordAt (sampleOf x sel) i = wordAt x (sampleStart x.length sel + i) := wordAt_slice x h

/-- Settles O23: the window is a slice of the segment (`wordAt_sampleOf`) that ends within it (`sampleStart_le`). -/
theorem sampleWindow : Obligations.SampleWindow := by
  refine ⟨fun x sel => ⟨sampleSize_eq _, sampleOf_length x sel, fun h => ?_, fun h => ?_⟩, by decide⟩
  · exact ⟨(sampleStart_eq _ sel).trans (if_neg (Nat.not_lt.mpr h)), sampleOf_of_le sel h⟩
  · have hsize : sampleSize x.length = 65536 := Nat.min_eq_right h.le
    exact ⟨(sampleStart_eq _ sel).trans (if_pos h), hsize ▸ sampleStart_le _ sel,
      fun i hi => wordAt_sampleOf sel (hsize ▸ hi)⟩

/-! ### The rate and the cost (R101, R102, R104) -/

/-- Where there are exceptions, the rate is the larger of the raw one and its compensation. -/
theorem rate_of_pos {S e : Nat} (b : Nat) (he : 0 < e) :
    rate S e b = max ((e : Rat) / S) (altRate ((e : Rat) / S) b) := by
  simp only [rate, if_pos he]
  split
  case isTrue h => exact (max_eq_right h.le).symm
  case isFalse h => exact (max_eq_left (not_lt.mp h)).symm

theorem altRate_eq {S e : Nat} (b : Nat) (hS : 0 < S) (he : 0 < e) :
    altRate ((e : Rat) / S) b = (128 * (e : Rat) - S) / (e * 2 ^ b) := by
  have hS' : (S : Rat) ≠ 0 := Nat.cast_ne_zero.mpr hS.ne'
  have he' : (e : Rat) ≠ 0 := Nat.cast_ne_zero.mpr he.ne'
  unfold altRate
  field_simp

/-- The comparison `alt > e / S`, both positive denominators multiplied out. -/
theorem lt_altRate_iff {S e : Nat} (b : Nat) (hS : 0 < S) (he : 0 < e) :
    (e : Rat) / S < altRate ((e : Rat) / S) b ↔ (e : Int) ^ 2 * 2 ^ b < S * (128 * e - S) := by
  have hS' : (0 : Rat) < S := Nat.cast_pos.mpr hS
  have he' : (0 : Rat) < e * 2 ^ b := by positivity
  calc (e : Rat) / S < altRate ((e : Rat) / S) b
      ↔ (e : Rat) * (e * 2 ^ b) < (128 * e - S) * S := by rw [altRate_eq b hS he, div_lt_div_iff₀ hS' he']
    _ ↔ (e : Rat) ^ 2 * 2 ^ b < S * (128 * e - S) := by rw [← mul_assoc, ← sq, mul_comm (S : Rat)]
    _ ↔ (e : Int) ^ 2 * 2 ^ b < S * (128 * e - S) := by exact_mod_cast Iff.rfl

/-- Settles O24: the compensation in lowest terms (`altRate_eq`), and when it is the larger (`lt_altRate_iff`). -/
theorem costIntegerForms : Obligations.CostIntegerForms := by
  intro S e b hS he
  refine ⟨altRate_eq b hS he, lt_altRate_iff b hS he, fun h => ?_, fun h => ?_⟩
  · have hraw := not_lt.mp (mt (lt_altRate_iff b hS he).mp h)
    rw [cost, rate_of_pos b he, max_eq_left hraw]
    ring
  · have halt := (lt_altRate_iff b hS he).mpr h
    rw [cost, rate_of_pos b he, max_eq_right halt.le, altRate_eq b hS he]
    ring

/-! ### The exceptions at each candidate (R99, R100) -/

/-- One step of the running count: the values over `b` are those over `b + 1` and those of `b + 1` bits. -/
theorem excess_succ_add_hist (sample : List Word) (b : Nat) :
    excess sample (b + 1) + hist sample (b + 1) = excess sample b := by
  induction sample with
  | nil => rfl
  | cons v vs ih =>
    simp only [excess, hist, List.countP_cons, decide_eq_true_eq, beq_iff_eq] at ih ⊢
    split_ifs <;> omega

theorem excess_eq_zero {sample : List Word} {b : Nat} (h : ∀ v ∈ sample, bitlen v ≤ b) : excess sample b = 0 :=
  List.countP_eq_zero.mpr fun v hv => by simpa using h v hv

theorem excess_eq_length {sample : List Word} {b : Nat} (h : ∀ v ∈ sample, b < bitlen v) :
    excess sample b = sample.length :=
  List.countP_eq_length.mpr fun v hv => by simpa using h v hv

theorem excess_32 (sample : List Word) : excess sample 32 = 0 :=
  excess_eq_zero fun v _ => bitlen_le_iff.mpr v.isLt

/-! ### The sweep (R103) -/

/-- `n` is the smallest width of least cost among `m..32`. -/
def LeastFrom (f : Nat → Rat) (m n : Nat) : Prop :=
  n ≤ 32 ∧ ∀ b, m ≤ b → b ≤ 32 → f n ≤ f b ∧ (f b = f n → n ≤ b)

theorem leastFrom_32 (f : Nat → Rat) : LeastFrom f 32 32 :=
  ⟨le_rfl, fun b hm hb => ⟨by rw [Nat.le_antisymm hb hm], fun _ => hm⟩⟩

/-- A candidate that costs no more than the best so far is the new best. -/
theorem LeastFrom.take {f : Nat → Rat} {m n : Nat} (h : LeastFrom f (m + 1) n) (hm : m ≤ 32) (hle : f m ≤ f n) :
    LeastFrom f m m := by
  obtain ⟨-, hleast⟩ := h
  refine ⟨hm, fun b hmb hb => ⟨?_, fun _ => hmb⟩⟩
  rcases hmb.eq_or_lt with rfl | hmb
  · exact le_rfl
  · exact hle.trans (hleast b hmb hb).1

/-- A candidate that costs more than the best so far leaves it the best. -/
theorem LeastFrom.keep {f : Nat → Rat} {m n : Nat} (h : LeastFrom f (m + 1) n) (hlt : f n < f m) : LeastFrom f m n := by
  obtain ⟨hn, hleast⟩ := h
  refine ⟨hn, fun b hmb hb => ?_⟩
  rcases hmb.eq_or_lt with rfl | hmb
  · exact ⟨hlt.le, fun heq => absurd heq hlt.ne'⟩
  · exact hleast b hmb hb

theorem widthCost_of_lt {x : List Word} {sel : Word} {b : Nat} (h : b < 32) :
    widthCost x sel b = cost (sampleSize x.length) (excess (sampleOf x sel) b) b := if_neg h.ne

/-- The sweep's invariant: with the widths below `n` to visit, it holds the count at `n` and the best of the others. -/
theorem sweep_leastFrom {x : List Word} {sel : Word} {n best : Nat} (hn : n ≤ 32)
    (h : LeastFrom (widthCost x sel) n best) :
    LeastFrom (widthCost x sel) 0 (sweep (sampleOf x sel) (sampleSize x.length) (List.range n).reverse
      (excess (sampleOf x sel) n) best (widthCost x sel best)) := by
  induction n generalizing best with
  | zero => exact h
  | succ n ih =>
    have hrange : (List.range (n + 1)).reverse = n :: (List.range n).reverse := by simp [List.range_succ]
    simp only [hrange, sweep, excess_succ_add_hist, ← widthCost_of_lt (sel := sel) (Nat.lt_of_succ_le hn)]
    split
    case isTrue hle => exact ih (by omega) (h.take (by omega) hle)
    case isFalse hgt => exact ih (by omega) (h.keep (not_le.mp hgt))

theorem estimate_leastFrom {x : List Word} (sel : Word) (hx : x ≠ []) :
    LeastFrom (widthCost x sel) 0 (estimate x sel) := by
  have h := sweep_leastFrom le_rfl (leastFrom_32 (widthCost x sel))
  rw [excess_32] at h
  rwa [estimate, if_neg (mt List.eq_nil_of_length_eq_zero hx)]

/-- Settles O25: the sweep keeps the best of the widths it has visited (`sweep_leastFrom`). -/
theorem estimateLeastCost : Obligations.EstimateLeastCost := by
  refine ⟨fun _ => rfl, fun x sel hx => ?_⟩
  obtain ⟨hle, hleast⟩ := estimate_leastFrom sel hx
  exact ⟨hle, fun b => hleast b (Nat.zero_le b)⟩

/-! ### A sample of one bit length (R105) -/

theorem cost_no_exceptions (S b : Nat) : cost S 0 b = b := by simp [cost, rate]

/-- Where every sample value is an exception, a width costs more than 32: `b + 32` at least, and at width 0 the
compensated rate is 127. -/
theorem lt_cost_all_exceptions {S : Nat} (b : Nat) (hS : 0 < S) : 32 < cost S S b := by
  have hraw : (S : Rat) / S = 1 := div_self (Nat.cast_ne_zero.mpr hS.ne')
  rw [cost, rate_of_pos b hS, hraw]
  cases b with
  | zero => norm_num [altRate]
  | succ b =>
    have hmax := le_max_left 1 (altRate 1 (b + 1))
    push_cast
    linarith [Nat.cast_nonneg (α := Rat) b]

section
variable {x : List Word} {sel : Word} {k b : Nat} (h : ∀ v ∈ sampleOf x sel, bitlen v = k)
include h

theorem widthCost_of_bitlen_le (hb : k ≤ b) : widthCost x sel b = b := by
  unfold widthCost
  split
  case isTrue h32 => simp [h32]
  case isFalse => rw [excess_eq_zero fun v hv => (h v hv).trans_le hb, cost_no_exceptions]

theorem lt_widthCost_of_lt_bitlen (hx : x ≠ []) (hk : k ≤ 32) (hb : b < k) : 32 < widthCost x sel b := by
  rw [widthCost_of_lt (hb.trans_le hk), excess_eq_length fun v hv => hb.trans_eq (h v hv).symm, sampleOf_length]
  exact lt_cost_all_exceptions b (sampleSize_pos hx)

theorem bitlen_of_sample_le (hx : x ≠ []) : k ≤ 32 := by
  obtain ⟨v, hv⟩ := List.exists_mem_of_length_pos ((sampleSize_pos hx).trans_eq (sampleOf_length x sel).symm)
  exact h v hv ▸ bitlen_le_iff.mpr v.isLt

end

/-- Settles O26: width `k` costs `k`, a smaller one over 32 (`lt_widthCost_of_lt_bitlen`) and a larger one its own number
of bits, so the width of least cost is `k`. -/
theorem widthMonotonicity : Obligations.WidthMonotonicity := by
  intro x sel k hx h
  have hk := bitlen_of_sample_le h hx
  obtain ⟨-, hbest⟩ := estimate_leastFrom sel hx
  have hleast : widthCost x sel (estimate x sel) ≤ k :=
    (hbest k (Nat.zero_le k) hk).1.trans_eq (widthCost_of_bitlen_le h le_rfl)
  have hge : k ≤ estimate x sel := by
    by_contra hlt
    have hover := lt_widthCost_of_lt_bitlen h hx hk (Nat.not_le.mp hlt)
    exact absurd (hover.trans_le hleast) (not_lt.mpr (Nat.cast_le_ofNat.mpr hk))
  rw [widthCost_of_bitlen_le h hge, Nat.cast_le] at hleast
  exact Nat.le_antisymm hleast hge

/-! ### ESTIMATE (R106) -/

theorem estimateBody_in_range {s : State} (h : s.srcAddr.toNat + s.srcLen.toNat ≤ s.params.memWords) :
    estimateBody s = .ok
      { writes := []
        excCur := s.excCur
        result0 := toReg (estimate (srcWords s) s.sampleSel)
        result1 := toReg (sampleSize s.srcLen.toNat)
        result2 := toReg (sampleStart s.srcLen.toNat s.sampleSel) } :=
  if_neg (by simpa [allInRange, readRegions, writtenRegions, inRange, srcRegion, regionAt] using h)

/-- Settles O38: the one check passes (`estimateBody_in_range`), and the success stores nothing. -/
theorem estimateCompletes : Obligations.EstimateCompletes := by
  intro s hr hrange
  refine ⟨_, (exec_estimate s).trans (congrArg _ (complete_ok hr (estimateBody_in_range hrange))), ?_⟩
  exact ⟨⟨rfl, rfl, rfl, rfl⟩, ⟨rfl, rfl, congrArg toReg (sampleStart_eq _ _)⟩, rfl, by simp [ArgsKept], rfl⟩

end Sys2Proof.Machine
end

section
/-! PROOFS. The exception patcher: the chain the encoder makes, and the decoder's walk over any chain (42_patcher.md). -/

namespace Sys2Proof.Machine

/-! ### Blocks without exceptions (R108, R110) -/

theorem missList_eq_nil {v : List Word} {b : Nat} (hv : v.length = 128) (small : ∀ x ∈ v, x.toNat < 2 ^ b) :
    missList v b = [] := by
  refine List.eq_nil_iff_forall_not_mem.mpr fun k hk => ?_
  obtain ⟨inside, big⟩ := mem_missList.mp hk
  exact Nat.not_lt.mpr big (small _ (wordAt_mem (hv ▸ inside)))

/-- Settles O27: width 32 is a branch of its own, and a block of small values has no misses. -/
theorem compressNoExceptions : Obligations.CompressNoExceptions := by
  intro pk v hv
  exact ⟨compressBlock_raw pk v, fun b hb small => compressBlock_nil hb.ne (missList_eq_nil hv small)⟩

/-! ### The decoder's walk (R118 to R121) -/

theorem walkChain_cons_eq_ok {e : Word} {es out r : List Word} {cur : Nat} :
    walkChain (e :: es) cur out = .ok r ↔
      cur < 128 ∧ walkChain es (cur + (wordAt out cur).toNat + 1) (out.set cur e) = .ok r := by
  rw [walkChain, ite_error_eq_ok, Nat.not_le]

/-- Every exception takes a position of its own before the end of the block. -/
theorem walkChain_ok_length {es out r : List Word} {cur : Nat} (h : walkChain es cur out = .ok r) :
    es.length ≤ 128 - cur := by
  induction es generalizing cur out with
  | nil => simp
  | cons e es ih =>
    obtain ⟨inside, h⟩ := walkChain_cons_eq_ok.mp h
    have := ih h
    rw [List.length_cons]
    omega

/-- The walk only goes on, so the slots behind it are final. -/
theorem wordAt_walkChain_behind {es out r : List Word} {cur k : Nat} (h : walkChain es cur out = .ok r) (hk : k < cur) :
    wordAt r k = wordAt out k := by
  induction es generalizing cur out with
  | nil =>
    rw [walkChain, Except.ok.injEq] at h
    rw [h]
  | cons e es ih =>
    obtain ⟨-, h⟩ := walkChain_cons_eq_ok.mp h
    rw [ih h (by omega), wordAt_set, if_neg (by omega)]

theorem walkChain_outside {es out : List Word} {cur : Nat} (hes : es ≠ []) (h : 128 ≤ cur) :
    walkChain es cur out = .error .malChain := by
  obtain ⟨e, es, rfl⟩ := List.exists_cons_of_ne_nil hes
  rw [walkChain, if_pos h]

/-- Where the walk stands after `i` exceptions, the walk over the rest goes on. -/
theorem walkChain_of_chainAt {excs unpacked out : List Word} {first i cur : Nat}
    (h : ChainAt excs first unpacked i cur out) :
    walkChain excs first unpacked = walkChain (excs.drop i) cur out := by
  induction h with
  | start => rfl
  | @next i cur out _ left inside ih =>
    have hget : wordAt excs i = excs[i] := by simp [wordAt, List.getD_eq_getElem?_getD, left]
    rw [ih, List.drop_eq_getElem_cons left, walkChain_cons inside, hget]

section
variable {pk : PackFns} {w excs : List Word} {b first : Nat}

theorem walkChain_of_decompressBlock {out : List Word} {used : Nat} (hf : first ≠ 128)
    (h : decompressBlock pk w b excs first = .ok (out, used)) : walkChain excs first (pk.unpack w b) = .ok out := by
  rw [decompressBlock, if_neg hf] at h
  split at h
  case h_1 hwalk => cases h; exact hwalk
  case h_2 => cases h

theorem decompressBlock_error_of_walkChain {c : ErrCode} (hf : first ≠ 128)
    (h : walkChain excs first (pk.unpack w b) = .error c) : decompressBlock pk w b excs first = .error c := by
  rw [decompressBlock, if_neg hf, h]

/-- A slice with more exceptions than the block has positions from `first` on leaves the block. -/
theorem decompressBlock_too_long (hf : first ≠ 128) (long : 128 - first < excs.length) :
    decompressBlock pk w b excs first = .error .malChain := by
  cases h : decompressBlock pk w b excs first with
  | error c => rw [decompressBlock_error h]
  | ok r => exact absurd (walkChain_ok_length (walkChain_of_decompressBlock hf h)) (Nat.not_le.mpr long)

/-- The first exception goes to the first position. -/
theorem wordAt_decompressBlock_first {out : List Word} {used : Nat} (hf : first < (pk.unpack w b).length)
    (h128 : first ≠ 128) (h : decompressBlock pk w b excs first = .ok (out, used)) (hne : excs ≠ []) :
    wordAt out first = wordAt excs 0 := by
  obtain ⟨e, es, rfl⟩ := List.exists_cons_of_ne_nil hne
  obtain ⟨-, hwalk⟩ := walkChain_cons_eq_ok.mp (walkChain_of_decompressBlock h128 h)
  rw [wordAt_walkChain_behind hwalk (by omega), wordAt_set, if_pos ⟨rfl, hf⟩]
  rfl

end

/-- Settles O29: the walk from `first` is the one from wherever it stands, over the exceptions left
(`walkChain_of_chainAt`). -/
theorem decompressConsumes : Obligations.DecompressConsumes := by
  intro pk w excs b first hc hb hw _
  have hsize := hc.unpackSize w b hb hw
  refine ⟨fun h => h ▸ decompressBlock_128 pk w excs b, fun hf long => decompressBlock_too_long hf.ne long,
    fun out used hf h => ?_, fun c => decompressBlock_error, fun i cur out hf hat => ?_⟩
  · have hused : used = excs.length := (decompressBlock_used h).trans (if_neg hf.ne)
    exact ⟨(decompressBlock_length h).trans hsize, hused, fun pos =>
      wordAt_decompressBlock_first (hsize.symm ▸ hf) hf.ne h (List.ne_nil_of_length_pos (hused ▸ pos))⟩
  · have hwalk := walkChain_of_chainAt hat
    refine ⟨fun hi => decompressBlock_of_walkChain hf.ne ?_, fun hi hcur => decompressBlock_error_of_walkChain hf.ne ?_⟩
    · rw [hwalk, hi, List.drop_length, walkChain]
    · rw [hwalk, walkChain_outside (by simpa using hi) hcur]

/-- Settles O30: `decompressBlock_compressBlock`, by the invariant of the encoder's walk (`Walk.Decodes`). -/
theorem blockRoundTrip : Obligations.BlockRoundTrip :=
  fun _ hc _ _ hv hb => decompressBlock_compressBlock hc hv hb

/-! ### The gap chain (R109 to R116) -/

/-- The encoder's walk over `v` from the first miss `m0` on, with the positions `c` it has linked: every link is to a later
position within the gap a slot holds, which is a real exception or the compulsory one (R112, R113). -/
inductive Linked (v : List Word) (b m0 : Nat) : Walk → List Nat → Prop where
  | start : Linked v b m0 { wc := v, excs := [wordAt v m0], prev := m0 } [m0]
  | link {w : Walk} {c : List Nat} {cur : Nat} (before : Linked v b m0 w c) (later : w.prev < cur)
      (gap : cur - w.prev - 1 < 2 ^ b) (reason : 2 ^ b ≤ (wordAt v cur).toNat ∨ cur = w.prev + 2 ^ b) :
      Linked v b m0 (linkReal cur w) (c ++ [cur])

/-- Neighbours `i`, `j` of the chain over the working copy `wc`. -/
structure Neighbours (v : List Word) (b : Nat) (wc : List Word) (i j : Nat) : Prop where
  later : i < j
  gap : j - i - 1 < 2 ^ b
  slot : wordAt wc i = toReg (j - i - 1)
  reason : 2 ^ b ≤ (wordAt v j).toNat ∨ j = i + 2 ^ b

namespace Linked
variable {v : List Word} {b m0 k : Nat} {w : Walk} {c : List Nat}

theorem getLast? (h : Linked v b m0 w c) : c.getLast? = some w.prev := by
  cases h with
  | start => rfl
  | link => simp

theorem prev_mem (h : Linked v b m0 w c) : w.prev ∈ c := List.mem_of_getLast? h.getLast?

theorem head? (h : Linked v b m0 w c) : c.head? = some m0 := by
  induction h with
  | start => rfl
  | link _ _ _ _ ih => rw [List.head?_append, ih, Option.some_or]

theorem le_prev (h : Linked v b m0 w c) (hk : k ∈ c) : k ≤ w.prev := by
  induction h with
  | start => exact (List.mem_singleton.mp hk).le
  | link _ later _ _ ih =>
    rcases List.mem_append.mp hk with hk | hk
    · exact (ih hk).trans later.le
    · exact (List.mem_singleton.mp hk).le

theorem wc_length (h : Linked v b m0 w c) : w.wc.length = v.length := by
  induction h with
  | start => rfl
  | link _ _ _ _ ih => rw [linkReal_wc, List.length_set, ih]

/-- Only the slots of the chain before its last position are overwritten. -/
theorem untouched (h : Linked v b m0 w c) (hk : k ∈ c → k = w.prev) : wordAt w.wc k = wordAt v k := by
  induction h with
  | start => rfl
  | link before later _ _ ih =>
    have ahead {i : Nat} (hi : i ∈ _) : i ≠ k := fun heq =>
      ((before.le_prev hi).trans_lt later).ne (heq.trans (hk (List.mem_append_left _ (heq ▸ hi))))
    rw [linkReal_wc, wordAt_set, if_neg fun hset => ahead before.prev_mem hset.1,
      ih fun hmem => absurd rfl (ahead hmem)]

theorem excs (h : Linked v b m0 w c) : w.excs = c.map (wordAt v) := by
  induction h with
  | start => rfl
  | link before later _ _ ih =>
    rw [linkReal_excs, ih, List.map_append, List.map_singleton,
      before.untouched fun hmem => absurd (before.le_prev hmem) (Nat.not_le.mpr later)]

theorem neighbours (h : Linked v b m0 w c) (inside : w.prev < v.length) : c.IsChain (Neighbours v b w.wc) := by
  induction h with
  | start => exact .singleton m0
  | @link w c cur before later gap reason ih =>
    rw [linkReal_prev] at inside
    rw [linkReal_wc]
    refine List.isChain_append.mpr ⟨?_, .singleton cur, fun i hi j hj => ?_⟩
    · refine (ih (later.trans inside)).imp_of_mem_imp fun i j _ hj hij => ⟨hij.later, hij.gap, ?_, hij.reason⟩
      have : i < w.prev := hij.later.trans_le (before.le_prev hj)
      rw [wordAt_set, if_neg (by omega), hij.slot]
    · obtain rfl : w.prev = i := by simpa [before.getLast?] using hi
      obtain rfl : cur = j := by simpa using hj
      exact ⟨later, gap, by rw [wordAt_set, if_pos ⟨rfl, before.wc_length ▸ later.trans inside⟩], reason⟩

theorem rising (h : Linked v b m0 w c) (inside : w.prev < v.length) : c.Pairwise (· < ·) :=
  List.isChain_iff_pairwise.mp ((h.neighbours inside).imp fun _ _ hij => hij.later)

/-- The walk's end is the chain of the block, where the chain takes in every miss and begins and ends with one. -/
theorem chain (h : Linked v b m0 w c) (hv : v.length = 128) (hb : b < 32) (inside : w.prev < 128)
    (misses : ∀ k, k < 128 → 2 ^ b ≤ (wordAt v k).toNat → k ∈ c) (first : 2 ^ b ≤ (wordAt v m0).toNat)
    (last : 2 ^ b ≤ (wordAt v w.prev).toNat) : Chain v b c (maskBlock w.wc b) := by
  have rising := h.rising (hv ▸ inside)
  have hlt : ∀ k ∈ c, k < 128 := fun k hk => (h.le_prev hk).trans_lt inside
  have neighbours (i : Nat) (hi : i + 1 < c.length) : Neighbours v b w.wc (c.getD i 0) (c.getD (i + 1) 0) := by
    simpa [List.getD_eq_getElem?_getD, hi, Nat.lt_of_succ_lt hi] using
      List.isChain_iff_getElem.mp (h.neighbours (hv ▸ inside)) i hi
  refine
    { size := (maskBlock_length _ _).trans (h.wc_length.trans hv)
      rising
      inside := hlt
      atMost := ?_
      everyReal := misses
      firstReal := ⟨m0, h.head?, first⟩
      lastReal := ⟨w.prev, h.getLast?, last, ?_⟩
      gap := fun i hi => ?_
      compulsory := fun i hi small => (neighbours i hi).reason.resolve_left (Nat.not_le.mpr small)
      others := fun k hk hkc => ?_ }
  · simpa using (rising.nodup.subperm fun k hk => List.mem_range.mpr (hlt k hk)).length_le
  · have : (wordAt v w.prev).toNat % 2 ^ b < 2 ^ 32 := (Nat.mod_le _ _).trans_lt (wordAt v w.prev).isLt
    rw [wordAt_maskBlock, h.untouched fun _ => rfl, toNat_toReg this]
  · obtain ⟨-, gap, slot, -⟩ := neighbours i hi
    have fits : (wordAt w.wc (c.getD i 0)).toNat = c.getD (i + 1) 0 - c.getD i 0 - 1 := by
      rw [slot, toNat_toReg (gap.trans (Nat.pow_lt_pow_right (by decide) hb))]
    exact ⟨by rw [wordAt_maskBlock_of_lt (fits ▸ gap), fits], gap⟩
  · have small : (wordAt v k).toNat < 2 ^ b := Nat.not_le.mp fun big => hkc (misses k hk big)
    have same := h.untouched fun hmem => absurd hmem hkc
    exact ⟨by rw [wordAt_maskBlock_of_lt (same ▸ small), same], small⟩

end Linked

theorem insertCompulsory_linked {v : List Word} {b m0 cur fuel : Nat} {w : Walk} {c : List Nat}
    (h : Linked v b m0 w c) (later : w.prev < cur) (enough : cur ≤ w.prev + 2 ^ b + fuel) :
    ∃ c', Linked v b m0 (insertCompulsory (2 ^ b) cur fuel w) c' ∧ c ⊆ c' ∧
      (insertCompulsory (2 ^ b) cur fuel w).prev < cur ∧ cur ≤ (insertCompulsory (2 ^ b) cur fuel w).prev + 2 ^ b := by
  induction fuel generalizing w c with
  | zero => exact ⟨c, h, List.Subset.refl c, later, enough⟩
  | succ fuel ih =>
    rw [insertCompulsory_succ]
    split
    case isTrue far =>
      have pos : 0 < 2 ^ b := Nat.two_pow_pos b
      obtain ⟨c', hc', kept, bounds⟩ := ih (h.link (by omega) (by omega) (.inr rfl)) far (by rw [linkReal_prev]; omega)
      exact ⟨c', hc', fun k hk => kept (List.mem_append_left _ hk), bounds⟩
    case isFalse near => exact ⟨c, h, List.Subset.refl c, later, by omega⟩

/-- A miss within the block is linked, after the compulsory positions it needs; at width 7 and above every gap fits. -/
theorem walkStep_linked {v : List Word} {b m0 cur : Nat} {w : Walk} {c : List Nat} (h : Linked v b m0 w c)
    (later : w.prev < cur) (inside : cur < 128) (real : 2 ^ b ≤ (wordAt v cur).toNat) :
    ∃ c', Linked v b m0 (walkStep b w cur) c' ∧ c ⊆ c' ∧ cur ∈ c' := by
  unfold walkStep
  split
  case isTrue =>
    obtain ⟨c', hc', kept, before, reach⟩ := insertCompulsory_linked (fuel := blockLen) h later
      (inside.le.trans (Nat.le_add_left _ _))
    exact ⟨_, hc'.link before (by omega) (.inl real), fun k hk => List.mem_append_left _ (kept hk), by simp⟩
  case isFalse wide =>
    have : 2 ^ 7 ≤ 2 ^ b := Nat.pow_le_pow_right (by decide) (Nat.not_lt.mp wide)
    exact ⟨_, h.link later (by omega) (.inl real), List.subset_append_left _ _, by simp⟩

theorem foldl_walkStep_linked {v : List Word} {b m0 : Nat} {ms : List Nat} {w : Walk} {c : List Nat}
    (h : Linked v b m0 w c) (sorted : (w.prev :: ms).Pairwise (· < ·))
    (misses : ∀ m ∈ ms, m < 128 ∧ 2 ^ b ≤ (wordAt v m).toNat) :
    ∃ c', Linked v b m0 (ms.foldl (walkStep b) w) c' ∧ c ⊆ c' ∧ ms ⊆ c' ∧
      (ms.foldl (walkStep b) w).prev ∈ w.prev :: ms := by
  induction ms generalizing w c with
  | nil => exact ⟨c, h, List.Subset.refl c, List.nil_subset c, List.mem_singleton_self _⟩
  | cons m ms ih =>
    obtain ⟨hprev, hms⟩ := List.pairwise_cons.mp sorted
    obtain ⟨inside, real⟩ := misses m List.mem_cons_self
    obtain ⟨c₁, h₁, kept₁, hm⟩ := walkStep_linked h (hprev m List.mem_cons_self) inside real
    obtain ⟨c₂, h₂, kept₂, rest, hlast⟩ := ih h₁ (by rwa [walkStep_prev]) fun k hk => misses k (List.mem_cons_of_mem m hk)
    rw [walkStep_prev] at hlast
    exact ⟨c₂, h₂, List.Subset.trans kept₁ kept₂, List.cons_subset.mpr ⟨kept₂ hm, rest⟩, List.mem_cons_of_mem _ hlast⟩

/-- The whole walk links every miss, and ends at one. -/
theorem walkAll_linked {v : List Word} {b m0 : Nat} {ms : List Nat} (hmiss : missList v b = m0 :: ms) :
    ∃ c, Linked v b m0 (walkAll v b m0 ms) c ∧ missList v b ⊆ c ∧ (walkAll v b m0 ms).prev ∈ missList v b := by
  have sorted : (m0 :: ms).Pairwise (· < ·) := hmiss ▸ missList_pairwise v b
  obtain ⟨c, hc, kept, rest, hlast⟩ := foldl_walkStep_linked (.start (v := v) (b := b)) sorted fun m hm =>
    mem_missList.mp (hmiss ▸ List.mem_cons_of_mem m0 hm)
  exact hmiss ▸ ⟨c, hc, List.cons_subset.mpr ⟨kept List.mem_cons_self, rest⟩, hlast⟩

/-- Settles O28: the encoder's walk links its positions (`walkAll_linked`), and they are the block's chain
(`Linked.chain`). -/
theorem compressChain : Obligations.CompressChain := by
  intro pk v b hv hb ⟨k, hk, big⟩
  obtain ⟨m0, ms, hmiss⟩ := List.exists_cons_of_ne_nil (List.ne_nil_of_mem (mem_missList.mpr ⟨hk, big⟩))
  obtain ⟨c, hc, misses, hlast⟩ := walkAll_linked hmiss
  obtain ⟨inside, last⟩ := mem_missList.mp hlast
  obtain ⟨-, first⟩ := mem_missList.mp (hmiss ▸ List.mem_cons_self : m0 ∈ missList v b)
  have chain := hc.chain hv hb inside (fun k hk big => misses (mem_missList.mpr ⟨hk, big⟩)) first last
  rw [compressBlock_cons hb.ne hmiss]
  exact ⟨c, _, chain, by simp [List.headD_eq_head?_getD, hc.head?], hc.excs, rfl⟩

end Sys2Proof.Machine
end

section
/-! PROOFS. The chunk decoder check by check, wherever its loop stands, and the chunk round trip (43_chunk.md R127 to
R130). -/

namespace Sys2Proof.Machine

/-- A check's answer is an error where the check fails, or where it passes and what follows is one. -/
theorem ite_error_eq_error {α : Type} {c : Prop} [Decidable c] {e d : ErrCode} {x : Except ErrCode α} :
    (if c then .error e else x) = .error d ↔ c ∧ e = d ∨ ¬c ∧ x = .error d := by
  split <;> simp [*]

/-! ### One block (R127 to R129) -/

section
variable {pk : PackFns} {w : List Word} {b T k cur : Nat}

/-- An empty slice is decoded with the first offset 128, whatever the header's `OFF` (R128). -/
theorem blockAnswer_empty_slice (h : headerEnd (blockHeader w b k) = cur) :
    blockAnswer pk w b T k cur = .ok (pk.unpack (blockPayload w b k) b, 0) := by
  rw [blockAnswer, if_pos h, decompressBlock_128]

theorem decodeBlock_count_below (h : headerEnd (blockHeader w b k) < cur) :
    decodeBlock pk w b T k cur = .error .malHeader := if_pos h

/-- A width-32 block whose slice is not empty is malformed (R129). -/
theorem decodeBlock_width32 (h : headerEnd (blockHeader w 32 k) ≠ cur) :
    decodeBlock pk w 32 T k cur = .error .malHeader := by
  rw [decodeBlock_eq, if_pos (And.intro rfl h), ite_self]

theorem decodeBlock_beyond (rising : cur ≤ headerEnd (blockHeader w b k))
    (raw : b = 32 → headerEnd (blockHeader w b k) = cur) (h : w.length < T + headerEnd (blockHeader w b k)) :
    decodeBlock pk w b T k cur = .error .malTruncated := by
  rw [decodeBlock_eq, if_neg (Nat.not_lt.mpr rising), if_neg fun hne => hne.2 (raw hne.1), if_pos h]

/-- A block that passes its checks is decompressed, and its slice ends where its header says. -/
theorem decodeBlock_sound (h : BlockSound w b T k cur) :
    decodeBlock pk w b T k cur =
      (blockAnswer pk w b T k cur).map fun r => (r.1, headerEnd (blockHeader w b k)) := by
  rw [decodeBlock_eq, if_neg (Nat.not_lt.mpr h.rising), if_neg fun hne => hne.2 (h.raw hne.1),
    if_neg (Nat.not_lt.mpr h.inside)]
  cases blockAnswer pk w b T k cur <;> rfl

theorem decodeBlock_error_mem {c : ErrCode} (h : decodeBlock pk w b T k cur = .error c) :
    c ∈ [ErrCode.malHeader, .malTruncated, .malChain] := by
  simp only [decodeBlock_eq, ite_error_eq_error] at h
  obtain ⟨-, rfl⟩ | ⟨-, ⟨-, rfl⟩ | ⟨-, ⟨-, rfl⟩ | ⟨-, h⟩⟩⟩ := h
  · decide
  · decide
  · decide
  · split at h
    · rename_i hblock
      cases h
      obtain rfl := decompressBlock_error hblock
      decide
    · cases h

end

/-! ### The loop over the blocks (R127) -/

/-- The answer of the blocks still to decode, with the values `vals` of those before them. -/
def withValues (vals : List Word) : List Word × Nat → List Word × Nat := Prod.map (vals ++ ·) id

theorem map_withValues_nil (x : Except ErrCode (List Word × Nat)) : x.map (withValues []) = x := by
  cases x <;> rfl

theorem map_withValues_map_withValues (vals more : List Word) (x : Except ErrCode (List Word × Nat)) :
    (x.map (withValues more)).map (withValues vals) = x.map (withValues (vals ++ more)) := by
  cases x with
  | error c => rfl
  | ok r => simp [Except.map, withValues, Prod.map]

section
variable {pk : PackFns} {w : List Word} {b T k cur : Nat}

theorem decodeBlocks_succ_error {c : ErrCode} (h : decodeBlock pk w b T k cur = .error c) (todo : Nat) :
    decodeBlocks pk w b T (todo + 1) k cur = .error c := by
  rw [decodeBlocks, h]

theorem decodeBlocks_succ_ok {blk : List Word} {stop : Nat} (h : decodeBlock pk w b T k cur = .ok (blk, stop))
    (todo : Nat) :
    decodeBlocks pk w b T (todo + 1) k cur = (decodeBlocks pk w b T todo (k + 1) stop).map (withValues blk) := by
  rw [decodeBlocks, h]
  dsimp only
  cases decodeBlocks pk w b T todo (k + 1) stop <;> rfl

theorem decodeBlocks_error_mem {todo : Nat} {c : ErrCode} (h : decodeBlocks pk w b T todo k cur = .error c) :
    c ∈ [ErrCode.malHeader, .malTruncated, .malChain] := by
  induction todo generalizing k cur with
  | zero => cases h
  | succ todo ih =>
    cases hblock : decodeBlock pk w b T k cur with
    | error d =>
      rw [decodeBlocks_succ_error hblock] at h
      cases h
      exact decodeBlock_error_mem hblock
    | ok r =>
      rw [decodeBlocks_succ_ok hblock] at h
      cases hrest : decodeBlocks pk w b T todo (k + 1) r.2 with
      | error d =>
        rw [hrest] at h
        cases h
        exact ih hrest
      | ok rest =>
        rw [hrest] at h
        cases h

/-- After `k` blocks with the values `vals`, what is left of the loop is the loop from there. -/
theorem BlocksAt.loop {vals : List Word} (h : BlocksAt pk w b T k cur vals) (todo : Nat) :
    decodeBlocks pk w b T (k + todo) 0 0 = (decodeBlocks pk w b T todo k cur).map (withValues vals) := by
  induction h generalizing todo with
  | start => rw [Nat.zero_add, map_withValues_nil]
  | @next k cur used vals blk _ sound decoded ih =>
    have hblock : decodeBlock pk w b T k cur = .ok (blk, headerEnd (blockHeader w b k)) := by
      rw [decodeBlock_sound sound, decoded]
      rfl
    rw [Nat.add_right_comm, Nat.add_assoc, ih, decodeBlocks_succ_ok hblock, map_withValues_map_withValues]

/-- Over blocks whose headers all count 0 the loop reaches the next one with no exception used. -/
theorem exists_blocksAt_of_counts_zero (hT : T ≤ w.length) (h : ∀ j < k, headerEnd (blockHeader w b j) = 0) :
    ∃ vals, BlocksAt pk w b T k 0 vals := by
  induction k with
  | zero => exact ⟨[], .start⟩
  | succ k ih =>
    obtain ⟨vals, before⟩ := ih fun j hj => h j (Nat.lt_succ_of_lt hj)
    have hend := h k (Nat.lt_succ_self k)
    have next := before.next ⟨Nat.zero_le _, fun _ => hend, by rwa [hend]⟩ (blockAnswer_empty_slice hend)
    exact ⟨_, hend ▸ next⟩

end

/-! ### The chunk (R127) -/

section
variable {pk : PackFns} {w : List Word} {avail : Nat}

theorem decodeChunk_short (h : w.length < 2) : decodeChunk pk w avail = .error .malTruncated := if_pos h

theorem decodeChunk_error_mem {c : ErrCode} (h : decodeChunk pk w avail = .error c) :
    c ∈ [ErrCode.malTruncated, .malLength, .malWidth, .outputOverflow, .malHeader, .malChain] := by
  simp only [decodeChunk, ite_error_eq_error] at h
  obtain ⟨-, rfl⟩ | ⟨-, ⟨-, rfl⟩ | ⟨-, ⟨-, rfl⟩ | ⟨-, ⟨-, rfl⟩ | ⟨-, ⟨-, rfl⟩ | ⟨-, h⟩⟩⟩⟩⟩ := h
  · decide
  · decide
  · decide
  · decide
  · decide
  · split at h
    · rename_i hblocks
      cases h
      have codes : [ErrCode.malHeader, .malTruncated, .malChain] ⊆
        [.malTruncated, .malLength, .malWidth, .outputOverflow, .malHeader, .malChain] := by decide
      exact codes (decodeBlocks_error_mem hblocks)
    · cases h

variable {L b : Nat} (hlen : 2 ≤ w.length) (hL : (wordAt w 0).toNat = L) (hb : (wordAt w 1).toNat = b)
include hlen hL

theorem decodeChunk_illegal_length (h : L % 128 ≠ 0 ∨ 2 ^ 24 < L) : decodeChunk pk w avail = .error .malLength := by
  subst hL
  exact (if_neg (Nat.not_lt.mpr hlen)).trans (if_pos h)

include hb
variable (hmod : L % 128 = 0) (hmax : L ≤ 2 ^ 24)
include hmod hmax

/-- The checks that follow a legal length. -/
theorem decodeChunk_legal :
    decodeChunk pk w avail =
      if 32 < b then .error .malWidth
      else if avail < L then .error .outputOverflow
      else if w.length < tailStart (L / 128) b then .error .malTruncated
      else (decodeBlocks pk w b (tailStart (L / 128) b) (L / 128) 0 0).map fun r =>
        { vals := r.1, used := tailStart (L / 128) b + r.2, width := b } := by
  subst hL hb
  have legal : ¬((wordAt w 0).toNat % 128 ≠ 0 ∨ chunkMax < (wordAt w 0).toNat) :=
    not_or.mpr ⟨not_not.mpr hmod, Nat.not_lt.mpr hmax⟩
  rw [decodeChunk, if_neg (Nat.not_lt.mpr hlen), if_neg legal]
  cases decodeBlocks pk w (wordAt w 1).toNat (tailStart ((wordAt w 0).toNat / 128) (wordAt w 1).toNat)
    ((wordAt w 0).toNat / 128) 0 0 <;> rfl

theorem decodeChunk_wide (hwide : 32 < b) : decodeChunk pk w avail = .error .malWidth := by
  rw [decodeChunk_legal hlen hL hb hmod hmax, if_pos hwide]

variable (hwidth : b ≤ 32)
include hwidth

theorem decodeChunk_overflow (h : avail < L) : decodeChunk pk w avail = .error .outputOverflow := by
  rw [decodeChunk_legal hlen hL hb hmod hmax, if_neg (Nat.not_lt.mpr hwidth), if_pos h]

variable (havail : L ≤ avail)
include havail

theorem decodeChunk_no_tail (h : w.length < tailStart (L / 128) b) : decodeChunk pk w avail = .error .malTruncated := by
  rw [decodeChunk_legal hlen hL hb hmod hmax, if_neg (Nat.not_lt.mpr hwidth), if_neg (Nat.not_lt.mpr havail), if_pos h]

variable (htail : tailStart (L / 128) b ≤ w.length) {k cur : Nat} {vals : List Word}
  (hat : BlocksAt pk w b (tailStart (L / 128) b) k cur vals)
include htail hat

/-- Once the checks before the blocks have passed, the chunk is what is left of the loop. -/
theorem decodeChunk_at {todo : Nat} (htodo : L / 128 = k + todo) :
    decodeChunk pk w avail =
      (decodeBlocks pk w b (tailStart (L / 128) b) todo k cur).map fun r =>
        { vals := vals ++ r.1, used := tailStart (L / 128) b + r.2, width := b } := by
  rw [decodeChunk_legal hlen hL hb hmod hmax, if_neg (Nat.not_lt.mpr hwidth), if_neg (Nat.not_lt.mpr havail),
    if_neg (Nat.not_lt.mpr htail)]
  generalize tailStart (L / 128) b = T at hat ⊢
  rw [htodo, hat.loop]
  cases decodeBlocks pk w b T todo k cur <;> rfl

/-- With no block left the loop has ended. -/
theorem decodeChunk_done (hk : k = L / 128) :
    decodeChunk pk w avail = .ok { vals := vals, used := tailStart (L / 128) b + cur, width := b } := by
  rw [decodeChunk_at hlen hL hb hmod hmax hwidth havail htail hat (todo := 0) hk.symm, decodeBlocks]
  simp [Except.map]

/-- With blocks left an error of the next block is the chunk's. -/
theorem decodeChunk_error_at (hk : k < L / 128) {c : ErrCode}
    (hblock : decodeBlock pk w b (tailStart (L / 128) b) k cur = .error c) : decodeChunk pk w avail = .error c := by
  obtain ⟨todo, htodo⟩ := Nat.exists_eq_add_of_lt hk
  rw [decodeChunk_at hlen hL hb hmod hmax hwidth havail htail hat (todo := todo + 1) htodo,
    decodeBlocks_succ_error hblock]
  rfl

end

/-- The first header of a chunk that shows a non-empty slice is the first that does not count 0. -/
theorem exists_first_nonempty_slice {stop : Nat → Nat} {n : Nat}
    (h : ∃ k, k < n ∧ stop k ≠ if k = 0 then 0 else stop (k - 1)) :
    ∃ k, k < n ∧ stop k ≠ 0 ∧ ∀ j < k, stop j = 0 := by
  have nonzero : ∃ k, k < n ∧ stop k ≠ 0 := by
    by_contra! hall
    obtain ⟨k, hk, hne⟩ := h
    apply hne
    rw [hall k hk, hall (k - 1) (by omega), ite_self]
  obtain ⟨hlt, hne⟩ := Nat.find_spec nonzero
  refine ⟨Nat.find nonzero, hlt, hne, fun j hj => ?_⟩
  by_contra hj0
  exact Nat.find_min nonzero hj ⟨hj.trans hlt, hj0⟩

theorem encodeChunkAt_width32_excCount (pk : PackFns) (x : List Word) : (encodeChunkAt pk x 32).excCount = 0 := by
  have htail : (encodeBlocks pk 32 (blocksOf x) []).2 = [] := by
    rw [encodeBlocks_snd, List.nil_append, List.flatMap_eq_nil_iff]
    exact fun _ _ => rfl
  exact congrArg List.length htail

/-! ### The obligations -/

/-- Settles O34: up to the first header that does not count 0 the loop uses no exception, and that block fails
(`decodeBlock_width32`). -/
theorem width32NoExceptions : Obligations.Width32NoExceptions := by
  refine ⟨fun pk w avail L hL hb hmod hmax havail htail hslice => ?_, encodeChunkAt_width32_excCount,
    fun pk w T k cur h => decodeBlock_width32 h, fun pk v => ⟨rfl, rfl⟩⟩
  obtain ⟨k, hk, hne, hzero⟩ := exists_first_nonempty_slice hslice
  obtain ⟨vals, hat⟩ := exists_blocksAt_of_counts_zero (pk := pk) htail hzero
  exact decodeChunk_error_at (by omega) hL hb hmod hmax (Nat.le_refl 32) havail htail hat hk (decodeBlock_width32 hne)

/-- Settles O35: `decodeChunk_encodeChunk`, which the array round trip rests on. -/
theorem chunkRoundTrip : Obligations.ChunkRoundTrip :=
  fun _ hc _ rest sel _ => decodeChunk_encodeChunk hc rest sel

/-- Settles O48: each clause is the first check its premises fail; of a block, wherever the loop stands
(`decodeChunk_done`, `decodeChunk_error_at`). -/
theorem chunkDecodeChecks : Obligations.ChunkDecodeChecks := by
  refine fun pk w avail => ⟨decodeChunk_short, fun L b hlen hL hb =>
    ⟨decodeChunk_illegal_length hlen hL, fun hmod hmax =>
      ⟨decodeChunk_wide hlen hL hb hmod hmax, decodeChunk_overflow hlen hL hb hmod hmax,
        decodeChunk_no_tail hlen hL hb hmod hmax, fun hwidth hzero => ?_, fun c => decodeChunk_error_mem,
        fun T k cur vals hwidth havail hT htail hat => ?_⟩⟩⟩
  · subst hzero
    have htwo : tailStart (0 / 128) b = 2 := by simp [tailStart]
    have hdone := decodeChunk_done (pk := pk) hlen hL hb hmod hmax hwidth (Nat.zero_le avail)
      (htwo.trans_le hlen) .start rfl
    rwa [htwo] at hdone
  · subst hT
    refine ⟨decodeChunk_done hlen hL hb hmod hmax hwidth havail htail hat, fun hk => ?_⟩
    have fails {c : ErrCode} := decodeChunk_error_at hlen hL hb hmod hmax hwidth havail htail hat hk (c := c)
    refine ⟨fun h => fails (decodeBlock_count_below h), ?_, fun rising raw h => fails (decodeBlock_beyond rising raw h),
      fun c sound h => fails (by rw [tailStart, bw, decodeBlock_sound sound, h]; rfl), blockAnswer_empty_slice⟩
    rintro rfl h
    exact fails (decodeBlock_width32 h)

end Sys2Proof.Machine
end

section
/-! PROOFS. The array frame: its chunks in order, its exceptions and its size (44_array.md R133, R134, R136). -/

namespace Sys2Proof.Machine

/-! ### The chunks of an array -/

/-- Chunk `k` of the array `x`, the longest allowed at its place (R133). -/
def arrayChunk (x : List Word) (k : Nat) : List Word :=
  slice x (2 ^ 24 * k) (2 ^ 24 * k + min (x.length - 2 ^ 24 * k) (2 ^ 24))

/-- That a chunk ends with the array is what `take` does anyway. -/
theorem arrayChunk_eq_take (x : List Word) (k : Nat) : arrayChunk x k = (x.drop (2 ^ 24 * k)).take (2 ^ 24) := by
  rw [arrayChunk, slice, Nat.add_sub_cancel_left, ← List.length_drop, List.take_eq_take_iff]
  omega

@[simp] theorem arrayChunk_zero (x : List Word) : arrayChunk x 0 = x.take chunkMax := arrayChunk_eq_take x 0

/-- The later chunks are those of the array that is left after the first. -/
@[simp] theorem arrayChunk_succ (x : List Word) (k : Nat) : arrayChunk x (k + 1) = arrayChunk (x.drop chunkMax) k := by
  rw [arrayChunk_eq_take, arrayChunk_eq_take, List.drop_drop, Nat.mul_succ, Nat.add_comm]

/-! ### Along the loop of the encoder -/

/-- The frame `r` with the frame of the chunk `c` before it. -/
def ArrayFrame.after (pk : PackFns) (sel : Word) (c : List Word) (r : ArrayFrame) : ArrayFrame where
  out := (encodeChunk pk c sel).out ++ r.out
  chunks := r.chunks + 1
  excCount := (encodeChunk pk c sel).excCount + r.excCount

/-- What holds of no values, and of an array when it holds of what is left after its first chunk, holds of every array
and the frame the loop makes of it. -/
theorem encodeArrayLoop_induction {pk : PackFns} {sel : Word} {P : List Word → ArrayFrame → Prop}
    (nil : P [] { out := [], chunks := 0, excCount := 0 })
    (chunk : ∀ x r, P (x.drop chunkMax) r → P x (r.after pk sel (x.take chunkMax)))
    {fuel : Nat} {x : List Word} (hfuel : x.length ≤ fuel) : P x (encodeArrayLoop pk sel fuel x) := by
  induction fuel generalizing x with
  | zero =>
    rw [List.eq_nil_of_length_eq_zero (Nat.le_zero.mp hfuel)]
    exact nil
  | succ fuel ih =>
    rcases Nat.eq_zero_or_pos x.length with hx | hx
    · rw [List.eq_nil_of_length_eq_zero hx, encodeArrayLoop_nil]
      exact nil
    · have hdrop : (x.drop chunkMax).length = x.length - 2 ^ 24 := List.length_drop
      rw [encodeArrayLoop_succ hx]
      exact chunk x _ (ih (by omega))

/-- `r` is made of the frames of the first `r.chunks` chunks of `x`, in order (R133). -/
def ArrayFrame.MadeOf (pk : PackFns) (sel : Word) (x : List Word) (r : ArrayFrame) : Prop :=
  r.out = ((List.range r.chunks).flatMap fun k => (encodeChunk pk (arrayChunk x k) sel).out) ∧
    r.excCount = ((List.range r.chunks).map fun k => (encodeChunk pk (arrayChunk x k) sel).excCount).sum

theorem ArrayFrame.MadeOf.after {pk : PackFns} {sel : Word} {x : List Word} {r : ArrayFrame}
    (h : r.MadeOf pk sel (x.drop chunkMax)) : (r.after pk sel (x.take chunkMax)).MadeOf pk sel x := by
  obtain ⟨hout, hexcs⟩ := h
  simp only [ArrayFrame.MadeOf, ArrayFrame.after, hout, hexcs, List.range_succ_eq_map, List.flatMap_cons,
    List.flatMap_map, List.map_cons, List.map_map, List.sum_cons, Function.comp_def, arrayChunk_zero, arrayChunk_succ,
    and_self]

theorem encodeArrayLoop_madeOf (pk : PackFns) (sel : Word) (x : List Word) :
    (encodeArrayLoop pk sel x.length x).MadeOf pk sel x :=
  encodeArrayLoop_induction (P := ArrayFrame.MadeOf pk sel) ⟨rfl, rfl⟩ (fun _ _ => .after) (Nat.le_refl _)

/-- The bounds on the exceptions and the words of the chunk frames `r` of the `N` values (R134, R136). -/
def ArrayFrame.Within (N : Nat) (r : ArrayFrame) : Prop :=
  r.excCount ≤ N ∧ r.out.length ≤ 2 * r.chunks + N / 128 + 2 * N

/-- One more chunk keeps the bounds, its own being those of R131. -/
theorem ArrayFrame.Within.after {pk : PackFns} (hc : pk.Contract) (sel : Word) {x : List Word} {r : ArrayFrame}
    (hmod : x.length % 128 = 0) (h : r.Within (x.drop chunkMax).length) :
    (r.after pk sel (x.take chunkMax)).Within x.length := by
  have htake : (x.take chunkMax).length = min (2 ^ 24) x.length := List.length_take
  have hdrop : (x.drop chunkMax).length = x.length - 2 ^ 24 := List.length_drop
  obtain ⟨-, -, hexcs, hout⟩ := chunkFrameSize pk (x.take chunkMax) sel hc (by omega) (by omega)
  obtain ⟨hexcsRest, houtRest⟩ := h
  simp only [ArrayFrame.Within, ArrayFrame.after, List.length_append]
  omega

theorem encodeArrayLoop_within {pk : PackFns} (hc : pk.Contract) (sel : Word) {x : List Word}
    (hmod : x.length % 128 = 0) : (encodeArrayLoop pk sel x.length x).Within x.length := by
  refine encodeArrayLoop_induction (P := fun x r => x.length % 128 = 0 → r.Within x.length)
    (fun _ => ⟨Nat.le_refl 0, Nat.le_refl 0⟩) (fun x r ih hmod => ?_) (Nat.le_refl _) hmod
  have hdrop : (x.drop chunkMax).length = x.length - 2 ^ 24 := List.length_drop
  exact (ih (by omega)).after hc sel hmod

/-! ### The obligation -/

/-- Settles O36: the loop makes the frames of the chunks in order (`encodeArrayLoop_madeOf`), as many as
`encodeArrayLoop_chunks` says, and each keeps the bounds (`encodeArrayLoop_within`). -/
theorem arrayFrameCounts : Obligations.ArrayFrameCounts := by
  refine ⟨fun _ _ => rfl, fun pk x sel hc hmod _ => ?_⟩
  have hchunks := encodeArrayLoop_chunks (pk := pk) (sel := sel) (Nat.le_refl x.length)
  obtain ⟨hout, hexcs⟩ := encodeArrayLoop_madeOf pk sel x
  obtain ⟨hexcsLe, houtLe⟩ := encodeArrayLoop_within hc sel hmod
  rw [hchunks] at hout hexcs houtLe
  refine ⟨hchunks, congrArg (toReg x.length :: ·) hout, hexcs, hexcsLe, ?_, fun hpos hone => ?_⟩
  · show (encodeArrayLoop pk sel x.length x).out.length + 1 ≤ _
    omega
  · rw [show (x.length + (2 ^ 24 - 1)) / 2 ^ 24 = 1 by omega, List.range_one, List.flatMap_singleton, arrayChunk_zero,
      List.take_of_length_le hone] at hout
    exact congrArg (toReg x.length :: ·) hout

end Sys2Proof.Machine
end

section
/-! PROOFS. What an error records, and the errors decided from the registers alone (60_exceptions.md R142, R144). -/

namespace Sys2Proof.Machine

/-! ### What an error records (R144) -/

/-- A command that ends with an error has changed nothing but the memory before its completion, raced or not. -/
theorem exec_eq_finish_of_error {i : Instr} {s t : State} (he : exec i s = .next t) (hne : t.errCode ≠ .noError) :
    ∃ c m, c ≠ .noError ∧ t = finish c 0#32 0#32 0#32 { s with mem := m } := by
  cases hr : s.raced with
  | true =>
    obtain ⟨u, hu, hcases⟩ := exec_of_raced i hr
    cases hu.symm.trans he
    rcases hcases with rfl | ⟨c, hc, rfl⟩
    · exact absurd (succeed_errCode _ _) hne
    · exact ⟨c, _, hc, rfl⟩
  | false =>
    cases ho : outcome i s with
    | ok ok =>
      cases (exec_of_ok hr ho).symm.trans he
      exact absurd (succeed_errCode ok s) hne
    | error c =>
      cases (exec_of_error hr ho).symm.trans he
      exact ⟨c, _, hne, rfl⟩

/-- Settles O49: the completion of an error (`exec_eq_finish_of_error`) writes `STATUS` and the results, and keeps the
other registers. -/
theorem errorRecord : Obligations.ErrorRecord := by
  intro i s t he hne
  obtain ⟨c, m, hc, rfl⟩ := exec_eq_finish_of_error he hne
  exact ⟨decide_eq_true hc, rfl, rfl, rfl, rfl, rfl, (ends_of_exec he).argsKept⟩

/-! ### Errors raised while processing -/

/-- No error of `x` is one decided before memory is touched: each is raised while processing (R142, R143). -/
def Late {α : Type} (x : Except ErrCode α) : Prop := ∀ c, x = .error c → beforeMemory c = false

section
variable {α β : Type} {x : Except ErrCode α} {p : Prop} [Decidable p] {e : ErrCode}

theorem Late.ok (a : α) : Late (.ok a) := fun _ h => by cases h

theorem Late.check (he : beforeMemory e = false) (hx : Late x) : Late (if p then .error e else x) := fun c h => by
  rcases ite_error_eq_error.mp h with ⟨-, rfl⟩ | ⟨-, h⟩
  · exact he
  · exact hx c h

/-- An answer that passes the errors of `x` on and goes on with what `x` gives. -/
theorem Late.andThen (hx : Late x) {y : Except ErrCode β} (herror : ∀ c, x = .error c → y = .error c)
    (hok : ∀ a, x = .ok a → Late y) : Late y := by
  cases x with
  | error d =>
    rw [herror d rfl]
    exact fun c h => hx c (by cases h; rfl)
  | ok a => exact hok a rfl

end

theorem decompressBlock_late (pk : PackFns) (w : List Word) (b : Nat) (excs : List Word) (first : Nat) :
    Late (decompressBlock pk w b excs first) := fun c h => by
  rw [decompressBlock_error h]
  rfl

theorem decodeChunk_late (pk : PackFns) (w : List Word) (avail : Nat) : Late (decodeChunk pk w avail) := fun c h => by
  have late : ∀ c ∈ [ErrCode.malTruncated, .malLength, .malWidth, .outputOverflow, .malHeader, .malChain],
      beforeMemory c = false := by decide
  exact late c (decodeChunk_error_mem h)

theorem decodeArrayLoop_late (pk : PackFns) (w : List Word) (fuel owed pos : Nat) :
    Late (decodeArrayLoop pk w fuel owed pos) := by
  induction fuel generalizing owed pos with
  | zero => exact .ok _
  | succ fuel ih =>
    rw [decodeArrayLoop]
    split
    · exact .ok _
    · refine .check rfl (.check rfl ((decodeChunk_late pk (w.drop pos) owed).andThen (fun _ h => by rw [h])
        fun r h => ?_))
      simp only [h]
      exact (ih (owed - r.vals.length) (pos + r.used)).andThen (fun _ h => by rw [h]) fun _ h => by rw [h]; exact .ok _

theorem decodeArray_late (pk : PackFns) (w : List Word) (cap : Nat) : Late (decodeArray pk w cap) :=
  .check rfl (.check rfl (decodeArrayLoop_late pk w _ _ 1))

/-! ### Errors decided from the registers (R142) -/

/-- Every error of `x` decided before memory is touched is the answer of `y` too. -/
def EarlyErrorsPass {α : Type} (x y : Except ErrCode α) : Prop :=
  ∀ c, beforeMemory c = true → x = .error c → y = .error c

section
variable {α : Type} {x y : Except ErrCode α}

/-- A check on the registers gives both the same answer. -/
theorem EarlyErrorsPass.check {p : Prop} [Decidable p] {e : ErrCode} (h : EarlyErrorsPass x y) :
    EarlyErrorsPass (if p then .error e else x) (if p then .error e else y) := fun c hc hx => by
  rw [ite_error_eq_error] at hx ⊢
  exact hx.imp_right (And.imp_right (h c hc))

/-- Once memory is read, no such error is left. -/
theorem Late.earlyErrorsPass (hx : Late x) : EarlyErrorsPass x y := fun c hc h => by
  rw [hx c h] at hc
  cases hc

end

/-- The checks that come before the first read of memory are the same whatever the memory holds, and what follows them
raises no error of R142. -/
theorem outcome_earlyErrorsPass (i : Instr) (s : State) (m : Memory) :
    EarlyErrorsPass (outcome i s) (outcome i { s with mem := m }) := by
  cases i with
  | estimate => exact .check (Late.ok _).earlyErrorsPass
  | blkEnc b => exact .check (.check (.check (.check (Late.check rfl (.ok _)).earlyErrorsPass)))
  | blkDec b =>
    have late : Late (blkDecResult b s) := decompressBlock_late _ _ b _ _
    refine .check (.check (.check (.check (.check (Late.earlyErrorsPass ?_)))))
    exact late.andThen (fun _ h => by rw [h]) fun _ h => by rw [h]; exact .ok _
  | chunkEnc => exact .check (.check (.check (Late.check rfl (.ok _)).earlyErrorsPass))
  | chunkDec =>
    have late : Late (chunkDecResult s) := decodeChunk_late _ _ _
    refine .check (.check (Late.earlyErrorsPass ?_))
    exact late.andThen (fun _ h => by rw [h]) fun _ h => by rw [h]; exact .ok _
  | arrayEnc => exact .check (.check (.check (Late.check rfl (.ok _)).earlyErrorsPass))
  | arrayDec =>
    have late : Late (arrayDecResult s) := decodeArray_late _ _ _
    refine .check (.check (Late.earlyErrorsPass ?_))
    exact late.andThen (fun _ h => by rw [h]) fun _ h => by rw [h]; exact .ok _
  | reservedOp0 | reservedOp8F op => exact fun _ _ h => h

theorem raiseError_mem_of_beforeMemory {c : ErrCode} (hc : beforeMemory c = true) (ws : List Region) (s : State) :
    (raiseError ws c s).mem = s.mem := by
  rw [raiseError_mem, if_pos hc]

/-- Settles O50: an early error comes from a check on the registers alone (`outcome_earlyErrorsPass`), and raising it
keeps the memory. -/
theorem earlyErrorsKeepMemory : Obligations.EarlyErrorsKeepMemory := by
  intro i s t hr he hcode
  cases ho : outcome i s with
  | ok ok =>
    cases (exec_of_ok hr ho).symm.trans he
    simp at hcode
  | error c =>
    cases (exec_of_error hr ho).symm.trans he
    rw [raiseError_errCode] at hcode
    have early : ∀ c ∈ [ErrCode.illegalOp, .invalidArg, .invalidLength, .accessFault, .overlap],
        beforeMemory c = true := by decide
    have hc := early c hcode
    exact ⟨raiseError_mem_of_beforeMemory hc _ s, fun m =>
      ⟨_, exec_of_error (s := { s with mem := m }) hr (outcome_earlyErrorsPass i s m c hc ho), rfl,
        raiseError_mem_of_beforeMemory hc _ _⟩⟩

end Sys2Proof.Machine
end

section
/-! PROOFS. The reset state meets the invariant of the machine (10_state.md R50). -/

namespace Sys2Proof.Machine

/-- R13: the default parameters are legal ones. -/
theorem Params.default_legal : Params.default.Legal := by decide

/-- R41: the scratch lists of the reset state are empty (log 11). -/
theorem reset_scratch_legal : State.reset.scratch.Legal := ⟨Nat.zero_le _, Nat.zero_le _⟩

/-- Nothing is listed in an empty memory, so it is canonical and inside any bound (log 3). -/
theorem MemOk.empty (p : Params) : MemOk p [] where
  wf := ⟨.nil, fun _ hc => absurd hc List.not_mem_nil⟩
  inside _ hc := absurd hc List.not_mem_nil

/-- Settles O15: the parameters are legal, the memory and the scratch lists are empty, `CMD` and the flags are 0, and nothing
has raced. With `stepKeepsInv`, every state reached from reset meets the invariant. -/
theorem resetInv : Obligations.ResetInv where
  params := Params.default_legal
  memWf := (MemOk.empty Params.default).wf
  memInside := (MemOk.empty Params.default).inside
  cmdReserved := BitVec.zero_and
  busyClear _ := ⟨rfl, rfl, rfl⟩
  errIff := by simp [State.reset]
  scratch := reset_scratch_legal
  racedBusy hraced := nomatch hraced

end Sys2Proof.Machine
end
